-- ==== Sys2Proof/Config.lean ====
section
/-! DEFINITION. What an implementation fixes and the spec leaves open: the three buffer sizes (spec/00_scope.md R6)
and the answers of the key source (spec/10_state.md R40). Each rests on a constant without a body, so no proof can
see a value; the bounds the spec sets are the only facts about them. -/

namespace Sys2Proof.Config

/-- FREE VALUE. The implementation's choice behind RXBUF_SIZE (log 1). -/
opaque freeRxbufSize : Nat

/-- FREE VALUE. The implementation's choice behind TXBUF_SIZE (log 1). -/
opaque freeTxbufSize : Nat

/-- FREE VALUE. The implementation's choice behind CBUF_SIZE (log 1). -/
opaque freeCbufSize : Nat

/-- FREE VALUE. What the key source answers at the n-th draw, before it is brought into [1, 2^32 - 1] (log 2). -/
opaque freeKey : Nat → Nat

/-- RXBUF_SIZE of the implementation: any value from 14 to 2^28 (00_scope.md R6). -/
def rxbufSize : Nat := freeRxbufSize % (2 ^ 28 - 13) + 14

/-- TXBUF_SIZE of the implementation: any value from 14 to 2^28 (00_scope.md R6). -/
def txbufSize : Nat := freeTxbufSize % (2 ^ 28 - 13) + 14

/-- CBUF_SIZE of the implementation: any value from 2 to 2^27 (00_scope.md R6). -/
def cbufSize : Nat := freeCbufSize % (2 ^ 27 - 1) + 2

end Sys2Proof.Config
end

