-- ==== Sys2Proof/Word.lean ====
section
/-! DEFINITION. The word types of the block: bytes of RXBUF and TXBUF, 32-bit registers, 16-bit code units of CBUF
and the 64-bit lengths (spec/00_scope.md R6, spec/20_memory.md R50). -/

namespace Sys2Proof

/-- An element of RXBUF or TXBUF, and a byte of the wire (20_memory.md R50). -/
abbrev Byte := BitVec 8

/-- A memory-mapped register, a host bus address or a mask key: 32 bits (00_scope.md R6). -/
abbrev Word := BitVec 32

/-- A code unit, the element of CBUF (00_scope.md R11, 20_memory.md R50). -/
abbrev CodeUnit := BitVec 16

/-- A 64-bit register pair, such as the payload length (00_scope.md R6). -/
abbrev DWord := BitVec 64

end Sys2Proof
end

