-- ==== Sys2Proof/Syntax.lean ====
section
/-! DEFINITION. The instructions of the block, one constructor for each row of spec/opcode_table.json: the seven
command words (spec/30_encoding.md R86) and the six wire opcodes (R75) with the header fields as operands (R70). -/

namespace Sys2Proof

/-- The two units that run commands (10_state.md R20). -/
inductive UnitId where
  /-- RXU, the receive unit. -/
  | rxu
  /-- TXU, the transmit unit. -/
  | txu
deriving DecidableEq, Repr

/-- The payload length of a wire header in one of its three forms (30_encoding.md R70, R73). The form is kept beside
the value because a longer form than needed is legal on the wire (R73). -/
inductive LenField where
  /-- LEN7 itself is the length, 0 to 125. -/
  | len7 (n : BitVec 7)
  /-- LEN7 = 126 and two extended length bytes. -/
  | ext16 (n : BitVec 16)
  /-- LEN7 = 127 and eight extended length bytes. -/
  | ext64 (n : BitVec 64)
deriving DecidableEq, Repr

/-- The fields of a wire header beside its opcode (30_encoding.md R70 to R72). -/
structure FrameFields where
  /-- FIN, byte 0 bit 7. -/
  fin : Bool
  /-- RSV, byte 0 bits 6:4. -/
  rsv : BitVec 3
  /-- LEN7 and the extended length bytes. -/
  len : LenField
  /-- The masking key as a 32-bit value (R78) when MASK = 1; none when MASK = 0. -/
  key : Option Word
deriving DecidableEq, Repr

/-- One constructor for each row of spec/opcode_table.json. -/
inductive Instr where
  /-- DEC_HDR, command word 0x0000_0001 (40_frame_codec.md R101). -/
  | decHdr
  /-- ENC_FRAME, command word 0x0000_0002 (40_frame_codec.md R106). -/
  | encFrame
  /-- XOR_MASK, command word 0x0000_0003 (40_frame_codec.md R111). -/
  | xorMask
  /-- UTF_RESET, command word 0x0000_0004 (41_utf8_validator.md R134). -/
  | utfReset
  /-- UTF_DECODE, command word 0x0000_0005: validate only (41_utf8_validator.md R136). -/
  | utfDecode
  /-- UTF_DECODE.E, command word 0x0000_0015: decode into CBUF (41_utf8_validator.md R136). -/
  | utfDecodeE
  /-- UTF_FINISH, command word 0x0000_0006 (41_utf8_validator.md R138). -/
  | utfFinish
  /-- FRAME_CONTINUATION, wire opcode 0x0 (30_encoding.md R75). -/
  | frameContinuation (f : FrameFields)
  /-- FRAME_TEXT, wire opcode 0x1 (30_encoding.md R75). -/
  | frameText (f : FrameFields)
  /-- FRAME_BINARY, wire opcode 0x2 (30_encoding.md R75). -/
  | frameBinary (f : FrameFields)
  /-- FRAME_CLOSE, wire opcode 0x8 (30_encoding.md R75). -/
  | frameClose (f : FrameFields)
  /-- FRAME_PING, wire opcode 0x9 (30_encoding.md R75). -/
  | framePing (f : FrameFields)
  /-- FRAME_PONG, wire opcode 0xA (30_encoding.md R75). -/
  | framePong (f : FrameFields)
deriving DecidableEq, Repr

end Sys2Proof
end

