-- ==== Sys2Proof/WellFormed.lean ====
section
/-! DEFINITION. Which terms of the syntax an encoding can hold. The one check the types do not make: a length given
in LEN7 itself is at most 125, since 126 and 127 announce the extended forms (spec/30_encoding.md R73). -/

namespace Sys2Proof

/-- A length field has an encoding: LEN7 values 126 and 127 are not lengths (30_encoding.md R73). -/
def LenField.wf : LenField → Bool
  | .len7 n => decide (n.toNat ≤ 125)
  | .ext16 _ => true
  | .ext64 _ => true

/-- The fields of a header have an encoding. -/
def FrameFields.wf (f : FrameFields) : Bool := f.len.wf

/-- An instruction has an encoding (30_encoding.md R73, R86). -/
def Instr.wf : Instr → Bool
  | .decHdr => true
  | .encFrame => true
  | .xorMask => true
  | .utfReset => true
  | .utfDecode => true
  | .utfDecodeE => true
  | .utfFinish => true
  | .frameContinuation f => f.wf
  | .frameText f => f.wf
  | .frameBinary f => f.wf
  | .frameClose f => f.wf
  | .framePing f => f.wf
  | .framePong f => f.wf

end Sys2Proof
end

