-- ==== Sys2Proof/Decode.lean ====
section
/-! DEFINITION. The two encodings of the block and their decoders (spec/30_encoding.md): the wire header, a sequence of
bytes, and the 32-bit command word. Both decoders are total and reject by name; the encoders stand after them and are
written from the same tables. -/

namespace Sys2Proof

/-! ### Big-endian byte lists (30_encoding.md R73) -/

/-- `BE(bytes)`: the unsigned big-endian value of a list of bytes (30_encoding.md R73). -/
def beValue : List Byte → Nat
  | [] => 0
  | b :: bs => b.toNat * 256 ^ bs.length + beValue bs

/-- The `n`-byte big-endian list of `v`, the inverse of `beValue` (30_encoding.md R74). -/
def beBytes : Nat → Nat → List Byte
  | 0, _ => []
  | n + 1, v => BitVec.ofNat 8 (v / 256 ^ n) :: beBytes n v

/-! ### Header bytes and lengths (30_encoding.md R71 to R74) -/

/-- `ext(LEN7)`: the number of extended length bytes (30_encoding.md R73). -/
def extSize (len7 : BitVec 7) : Nat :=
  if len7.toNat ≤ 125 then 0 else if len7.toNat = 126 then 2 else 8

/-- LEN7 of a length field (30_encoding.md R73). -/
def LenField.len7Bits : LenField → BitVec 7
  | .len7 n => n
  | .ext16 _ => 126#7
  | .ext64 _ => 127#7

/-- The payload length a length field says (30_encoding.md R73). -/
def LenField.value : LenField → Nat
  | .len7 n => n.toNat
  | .ext16 n => n.toNat
  | .ext64 n => n.toNat

/-- The extended length bytes of a length field (30_encoding.md R70, R73). -/
def LenField.extBytes : LenField → List Byte
  | .len7 _ => []
  | .ext16 n => beBytes 2 n.toNat
  | .ext64 n => beBytes 8 n.toNat

/-- The length field that a decoded LEN7 and payload length stand for (30_encoding.md R73). -/
def lenFieldOf (len7 : BitVec 7) (plen : Nat) : LenField :=
  if len7.toNat ≤ 125 then .len7 len7
  else if len7.toNat = 126 then .ext16 (BitVec.ofNat 16 plen)
  else .ext64 (BitVec.ofNat 64 plen)

/-- `LEN7(L)` and `EXT(L)` together: the shortest length form (30_encoding.md R74). -/
def shortestLen (len : Nat) : LenField :=
  if len ≤ 125 then .len7 (BitVec.ofNat 7 len)
  else if len ≤ 65535 then .ext16 (BitVec.ofNat 16 len)
  else .ext64 (BitVec.ofNat 64 len)

/-- Header byte 0, `FIN·128 + RSV·16 + OPCODE` (30_encoding.md R71). -/
def headerByte0 (fin : Bool) (rsv : BitVec 3) (opcode : BitVec 4) : Byte :=
  BitVec.ofBool fin ++ rsv ++ opcode

/-- Header byte 1, `MASK·128 + LEN7` (30_encoding.md R72). -/
def headerByte1 (mask : Bool) (len7 : BitVec 7) : Byte :=
  BitVec.ofBool mask ++ len7

/-- FIN, bit 7 of byte 0 (30_encoding.md R71). -/
def finOf (b0 : Byte) : Bool := b0.getLsbD 7

/-- RSV, bits 6:4 of byte 0 (30_encoding.md R71). -/
def rsvOf (b0 : Byte) : BitVec 3 := b0.extractLsb' 4 3

/-- OPCODE, bits 3:0 of byte 0 (30_encoding.md R71). -/
def opcodeOf (b0 : Byte) : BitVec 4 := b0.extractLsb' 0 4

/-- MASK, bit 7 of byte 1 (30_encoding.md R72). -/
def maskOf (b1 : Byte) : Bool := b1.getLsbD 7

/-- LEN7, bits 6:0 of byte 1 (30_encoding.md R72). -/
def len7Of (b1 : Byte) : BitVec 7 := b1.extractLsb' 0 7

/-! ### Opcode values and classes (30_encoding.md R75, R76) -/

/-- `Recognized(opc)` (30_encoding.md R76). -/
def recognized (opcode : BitVec 4) : Bool :=
  opcode = 0x0#4 || opcode = 0x1#4 || opcode = 0x2#4 || opcode = 0x8#4 || opcode = 0x9#4 || opcode = 0xA#4

/-- `IsControl(opc)`: CLOSE, PING or PONG (30_encoding.md R76). -/
def isControl (opcode : BitVec 4) : Bool :=
  opcode = 0x8#4 || opcode = 0x9#4 || opcode = 0xA#4

/-- `IsData(opc)`: TEXT or BINARY (30_encoding.md R76). -/
def isData (opcode : BitVec 4) : Bool := opcode = 0x1#4 || opcode = 0x2#4

/-- The row of the opcode table that a wire opcode names (30_encoding.md R75). -/
def frameOfOpcode (opcode : BitVec 4) (f : FrameFields) : Option Instr :=
  if opcode = 0x0#4 then some (.frameContinuation f)
  else if opcode = 0x1#4 then some (.frameText f)
  else if opcode = 0x2#4 then some (.frameBinary f)
  else if opcode = 0x8#4 then some (.frameClose f)
  else if opcode = 0x9#4 then some (.framePing f)
  else if opcode = 0xA#4 then some (.framePong f)
  else none

/-! ### ParseHeader and EncodeHeader (30_encoding.md R79, R80) -/

/-- The record `ParseHeader` answers (30_encoding.md R79). -/
structure Header where
  fin : Bool
  rsv : BitVec 3
  opcode : BitVec 4
  mask : Bool
  len7 : BitVec 7
  plen : Nat
  key : Word
  hsize : Nat
deriving DecidableEq, Repr

/-- The result of `ParseHeader`: `NeedMore(n)` or `Header(h)` (30_encoding.md R79). -/
inductive ParseResult where
  | needMore (n : Nat)
  | header (h : Header)
deriving DecidableEq, Repr

/-- The payload length of a header whose bytes are `bs` and whose LEN7 is `len7` (30_encoding.md R73). -/
def plenOf (len7 : BitVec 7) (bs : List Byte) : Nat :=
  if extSize len7 = 0 then len7.toNat else beValue ((bs.drop 2).take (extSize len7))

/-- `ParseHeader(bs)`: total, direction-free, without a validity check (30_encoding.md R79). -/
def parseHeader (bs : List Byte) : ParseResult :=
  match bs with
  | b0 :: b1 :: _ =>
    let e := extSize (len7Of b1)
    let mk (mask : Bool) (key : Word) (hsize : Nat) : ParseResult :=
      .header { fin := finOf b0, rsv := rsvOf b0, opcode := opcodeOf b0, mask := mask, len7 := len7Of b1,
                plen := plenOf (len7Of b1) bs, key := key, hsize := hsize }
    if bs.length < 2 + e then .needMore (2 + e)
    else if maskOf b1 then
      if bs.length < 2 + e + 4 then .needMore (2 + e + 4)
      else mk true (BitVec.ofNat 32 (beValue ((bs.drop (2 + e)).take 4))) (2 + e + 4)
    else mk false 0#32 (2 + e)
  | _ => .needMore 2

/-- The header bytes of a frame with opcode `opcode` and fields `f` (30_encoding.md R70). -/
def headerBytes (opcode : BitVec 4) (f : FrameFields) : List Byte :=
  headerByte0 f.fin f.rsv opcode :: headerByte1 f.key.isSome f.len.len7Bits ::
    (f.len.extBytes ++
      match f.key with
      | some k => beBytes 4 k.toNat
      | none => [])

/-- `EncodeHeader(fin, rsv, opc, L, key)`: the client header, masked, with the shortest length form
(30_encoding.md R80). -/
def encodeHeader (fin : Bool) (rsv : BitVec 3) (opcode : BitVec 4) (len : Nat) (key : Word) : List Byte :=
  headerByte0 fin rsv opcode :: headerByte1 true (shortestLen len).len7Bits ::
    ((shortestLen len).extBytes ++ beBytes 4 key.toNat)

/-! ### Decoding -/

/-- Why a word or a byte list is no instruction. -/
inductive DecodeError where
  /-- Command word with one of bits 31:5 set (30_encoding.md R87). -/
  | reservedBitsSet
  /-- Command word with CODE 0x0 or 0x7 to 0xF (30_encoding.md R87). -/
  | reservedCode
  /-- Command word with EMIT = 1 and a CODE other than 0x5 (30_encoding.md R87). -/
  | emitNotAllowed
  /-- Command word that names a command of the other unit (30_encoding.md R87). -/
  | otherUnit
  /-- Wire bytes that end before the header does: `n` bytes are needed (30_encoding.md R79). -/
  | needMore (n : Nat)
  /-- Wire header with an opcode 0x3 to 0x7 or 0xB to 0xF (30_encoding.md R75, R82). -/
  | unrecognizedOpcode (opcode : BitVec 4)
  /-- Wire bytes left over after one header, where exactly one header is asked for. -/
  | trailingBytes
deriving DecidableEq, Repr

/-- CODE, bits 3:0 of a command word (30_encoding.md R85). -/
def codeOf (w : Word) : BitVec 4 := w.extractLsb' 0 4

/-- EMIT, bit 4 of a command word (30_encoding.md R85). -/
def emitOf (w : Word) : Bool := w.getLsbD 4

/-- Bits 31:5 of a command word, which must be 0 (30_encoding.md R85). -/
def upperBitsOf (w : Word) : BitVec 27 := w.extractLsb' 5 27

/-- The command that CODE and EMIT name (30_encoding.md R86, R87). -/
def commandOf (code : BitVec 4) (emit : Bool) : Except DecodeError Instr :=
  if code = 0x5#4 then .ok (if emit then .utfDecodeE else .utfDecode)
  else if code = 0x0#4 ∨ 0x7#4 ≤ code then .error .reservedCode
  else if emit then .error .emitNotAllowed
  else if code = 0x1#4 then .ok .decHdr
  else if code = 0x2#4 then .ok .encFrame
  else if code = 0x3#4 then .ok .xorMask
  else if code = 0x4#4 then .ok .utfReset
  else .ok .utfFinish

/-- The command a 32-bit word names, whichever unit it is written to (30_encoding.md R85 to R87). -/
def decodeCommandWord (w : Word) : Except DecodeError Instr :=
  if upperBitsOf w ≠ 0#27 then .error .reservedBitsSet else commandOf (codeOf w) (emitOf w)

/-- The unit that runs an instruction (30_encoding.md R86). A wire header is met by RXU (40_frame_codec.md R101). -/
def Instr.unit : Instr → UnitId
  | .decHdr => .rxu
  | .encFrame => .txu
  | .xorMask => .txu
  | .utfReset => .rxu
  | .utfDecode => .rxu
  | .utfDecodeE => .rxu
  | .utfFinish => .rxu
  | .frameContinuation _ => .rxu
  | .frameText _ => .rxu
  | .frameBinary _ => .rxu
  | .frameClose _ => .rxu
  | .framePing _ => .rxu
  | .framePong _ => .rxu

/-- The command a word starts when it is written to the command register of `u` (30_encoding.md R86, R87). -/
def decodeCommand (u : UnitId) (w : Word) : Except DecodeError Instr :=
  match decodeCommandWord w with
  | .error e => .error e
  | .ok i => if i.unit = u then .ok i else .error .otherUnit

/-- The fields of a parsed header as operands of a FRAME_ instruction (30_encoding.md R79). -/
def Header.fields (h : Header) : FrameFields :=
  { fin := h.fin, rsv := h.rsv, len := lenFieldOf h.len7 h.plen, key := if h.mask then some h.key else none }

/-- The wire instruction at the head of a byte list, and the bytes after its header (30_encoding.md R75, R79). -/
def decodeFrame (bs : List Byte) : Except DecodeError (Instr × List Byte) :=
  match parseHeader bs with
  | .needMore n => .error (.needMore n)
  | .header h =>
    match frameOfOpcode h.opcode h.fields with
    | some i => .ok (i, bs.drop h.hsize)
    | none => .error (.unrecognizedOpcode h.opcode)

/-- An encoded instruction: a command word for a unit, or the bytes of a wire header. -/
inductive Encoding where
  | command (u : UnitId) (w : Word)
  | wire (bytes : List Byte)
deriving DecidableEq, Repr

/-- The instruction an encoding holds, exactly. -/
def decode : Encoding → Except DecodeError Instr
  | .command u w => decodeCommand u w
  | .wire bs =>
    match decodeFrame bs with
    | .error e => .error e
    | .ok (i, []) => .ok i
    | .ok (_, _ :: _) => .error .trailingBytes

/-! ### Encoding -/

/-- The encoding of an instruction: the command words of 30_encoding.md R86, the header bytes of R70 with the opcode
values of R75. -/
def encode : Instr → Encoding
  | .decHdr => .command .rxu 0x00000001#32
  | .encFrame => .command .txu 0x00000002#32
  | .xorMask => .command .txu 0x00000003#32
  | .utfReset => .command .rxu 0x00000004#32
  | .utfDecode => .command .rxu 0x00000005#32
  | .utfDecodeE => .command .rxu 0x00000015#32
  | .utfFinish => .command .rxu 0x00000006#32
  | .frameContinuation f => .wire (headerBytes 0x0#4 f)
  | .frameText f => .wire (headerBytes 0x1#4 f)
  | .frameBinary f => .wire (headerBytes 0x2#4 f)
  | .frameClose f => .wire (headerBytes 0x8#4 f)
  | .framePing f => .wire (headerBytes 0x9#4 f)
  | .framePong f => .wire (headerBytes 0xA#4 f)

/-- The size of an encoding in bytes: 4 for a command word (30_encoding.md R89), HS for a header (R77). -/
def Encoding.size : Encoding → Nat
  | .command _ _ => 4
  | .wire bs => bs.length

/-! ### The opcode table's numbering -/

/-- The longest wire header, in bytes (30_encoding.md R77). -/
def maxHeaderSize : Nat := 14

/-- The bytes of a table word: byte k is bits 8k+7 to 8k, and every bit from `nbits` up is 0 (log 11). -/
def tableBytes (nbits w : Nat) : List Byte :=
  (List.range maxHeaderSize).map fun k => BitVec.ofNat 8 ((w % 2 ^ nbits) / 2 ^ (8 * k))

/-- The instruction of a word numbered as spec/opcode_table.json numbers it: a row of 32 bits is a command word, a
shorter row (the 8-bit wire opcodes) is the start of a wire header (log 11). -/
def decodeTableWord (nbits w : Nat) : Option Instr :=
  if nbits = 32 then (decodeCommandWord (BitVec.ofNat 32 w)).toOption
  else (decodeFrame (tableBytes nbits w)).toOption.map Prod.fst

end Sys2Proof
end

