-- ==== Sys2Proof/Machine/State.lean ====
section
/-! DEFINITION. The state of the block as plain data: every register of spec/10_state.md R23, the three buffers of
spec/20_memory.md R50, the model-only state of R49, and beside them the model's own fields (sizes, draw counter,
inputs, last read value). State.reset is the table of R46. -/

namespace Sys2Proof.Machine

/-! ### Status -/

/-- The values STATUS.CODE takes, no other is ever written (60_exceptions.md R160). -/
inductive StatusCode where
  | ok
  | needMore
  | outFull
  | protoRsv
  | protoOpcode
  | protoMasked
  | protoLen64
  | protoCtrlFrag
  | protoCtrlLen
  | utfBadLead
  | utfBadCont
  | utfBadCp
  | utfIncomplete
  | resTooLarge
  | useIllegalCmd
  | useRange
deriving DecidableEq, Repr

/-- A unit's status (10_state.md R22) and its pending command word (R49). STATUS.BUSY is 1 exactly while a command
word is pending, so the two are stored once (log 8). -/
structure UnitStatus where
  /-- The latched command word while the unit is busy, none while it is idle (R21, R49). -/
  pending : Option Word
  /-- STATUS.DONE. -/
  done : Bool
  /-- STATUS.CODE. -/
  code : StatusCode
deriving DecidableEq, Repr

/-! ### Receive unit -/

/-- RX_HDR (10_state.md R30). -/
structure RxHdr where
  opcode : BitVec 4
  rsv : BitVec 3
  fin : Bool
  len7 : BitVec 7
  mask : Bool
  ctrl : Bool
deriving DecidableEq, Repr

/-- RX_UTF, the UTF-8 decode state (10_state.md R35). -/
structure Utf8State where
  /-- pending_codepoint. -/
  cp : BitVec 21
  /-- remaining_continuation_bytes. -/
  rem : BitVec 2
  /-- Length of the sequence in progress, 0 when REM = 0. -/
  seqLen : BitVec 3
deriving DecidableEq, Repr

/-- The RX_ registers (10_state.md R23, R25 to R35). Register pairs that only commands write (RX_PLEN, RX_FSIZE) are
stored as one 64-bit value (log 8). -/
structure RxUnit where
  /-- RX_CMD and RX_STATUS. -/
  status : UnitStatus
  /-- RX_CFG.RSV_ALLOW. -/
  rsvAllow : BitVec 3
  /-- RX_CFG.UTF_STRICT. -/
  utfStrict : Bool
  /-- RX_MAXLEN_LO. -/
  maxLenLo : Word
  /-- RX_MAXLEN_HI. -/
  maxLenHi : Word
  /-- RX_OFF. -/
  off : Word
  /-- RX_LEN. -/
  len : Word
  /-- RX_COFF. -/
  coff : Word
  /-- RX_CCAP. -/
  ccap : Word
  /-- RX_HDR. -/
  hdr : RxHdr
  /-- RX_HSIZE. -/
  hsize : Word
  /-- RX_NEED. -/
  need : Word
  /-- RX_PLEN_HI and RX_PLEN_LO. -/
  plen : DWord
  /-- RX_PAYOFF. -/
  payOff : Word
  /-- RX_FSIZE_HI and RX_FSIZE_LO. -/
  fsize : DWord
  /-- RX_CONSUMED. -/
  consumed : Word
  /-- RX_PRODUCED. -/
  produced : Word
  /-- RX_UTF. -/
  utf : Utf8State
deriving DecidableEq, Repr

/-! ### Transmit unit -/

/-- TX_CTL (10_state.md R37). -/
structure TxCtl where
  opcode : BitVec 4
  rsv : BitVec 3
  fin : Bool
deriving DecidableEq, Repr

/-- The TX_ registers (10_state.md R23, R36 to R42). -/
structure TxUnit where
  /-- TX_CMD and TX_STATUS. -/
  status : UnitStatus
  /-- TX_CFG.RSV_ALLOW. -/
  rsvAllow : BitVec 3
  /-- TX_CTL. -/
  ctl : TxCtl
  /-- TX_SRC. -/
  src : Word
  /-- TX_DST. -/
  dst : Word
  /-- TX_LEN. -/
  len : Word
  /-- TX_KEY. -/
  key : Word
  /-- TX_PHASE.PHASE. -/
  phase : BitVec 2
  /-- TX_HSIZE. -/
  hsize : Word
  /-- TX_KEYOUT. -/
  keyOut : Word
  /-- TX_FSIZE. -/
  fsize : Word
deriving DecidableEq, Repr

/-! ### Buffers -/

/-- A buffer as the list of its written elements by index, indices strictly rising. An unlisted element has its
written mark clear and holds no value (20_memory.md R55, 10_state.md R49; log 7). -/
abbrev Memory (α : Type) := List (Nat × α)

/-- The canonical form of a buffer: indices strictly rising. -/
def Memory.wf {α : Type} (m : Memory α) : Bool := decide (m.Pairwise fun a b => a.1 < b.1)

/-- The three memories (20_memory.md R50). -/
inductive BufferId where
  | rxbuf
  | txbuf
  | cbuf
deriving DecidableEq, Repr

/-- The OPEN parameters of 00_scope.md R6. No step writes them (log 1). -/
structure Params where
  rxbufSize : Nat
  txbufSize : Nat
  cbufSize : Nat
deriving DecidableEq, Repr

/-! ### Faults and refusals -/

/-- The model faults (60_exceptions.md R166). Each is safe: the model admits no run past it. -/
inductive Fault where
  /-- HOST_BAD_ACCESS: a host access to an unmapped address, with a wrong width, or misaligned (10_state.md R24,
  20_memory.md R53). Raised by the host port. Safe. -/
  | hostBadAccess (addr : Word) (width : Nat)
  /-- HOST_HAZARD: a host access that is forbidden while the unit is busy (70_reset_and_hazards.md R186). Raised by the
  host port. Safe. -/
  | hostHazard (unit : UnitId) (addr : Word)
  /-- UNINIT_READ: a read of a buffer element never written since reset (20_memory.md R55). Raised by the host port and
  by DEC_HDR, ENC_FRAME, XOR_MASK and UTF_DECODE. Safe. -/
  | uninitRead (buffer : BufferId) (index : Nat)
deriving DecidableEq, Repr

/-- Why a step has no meaning in the model. -/
inductive Refusal where
  /-- An instruction that has no meaning in the model yet. Raised by exec only; no arm raises it now. Safe. -/
  | notModelled (mnemonic : String)
deriving DecidableEq, Repr

/-! ### Inputs from outside the block -/

/-- One access of the host port (20_memory.md R51). `width` is in bits. The data of a narrow write are the low bits of
`data` (log 17). -/
inductive HostAccess where
  | read (width : Nat) (addr : Word)
  | write (width : Nat) (addr : Word) (data : Word)
deriving DecidableEq, Repr

/-- One event of an execution's total order (20_memory.md R58). A command start is part of the host write that causes
it (10_state.md R21). -/
inductive Input where
  /-- The next host access. -/
  | access (a : HostAccess)
  /-- The moment of a busy unit's completion step (10_state.md R21). -/
  | complete (u : UnitId)
  /-- The reset input is asserted (70_reset_and_hazards.md R180). -/
  | reset
deriving DecidableEq, Repr

/-! ### The state -/

/-- The whole state of the block and its model. -/
structure State where
  /-- The RX_ registers. -/
  rx : RxUnit
  /-- The TX_ registers. -/
  tx : TxUnit
  /-- RXBUF. -/
  rxbuf : Memory Byte
  /-- TXBUF. -/
  txbuf : Memory Byte
  /-- CBUF. -/
  cbuf : Memory CodeUnit
  /-- The fault record (10_state.md R49). -/
  faultRecord : List Fault
  /-- The model's own: the buffer sizes (log 1). -/
  params : Params
  /-- The model's own: how many draws the key source has answered (log 2). -/
  draws : Nat
  /-- The model's own: the events still to come, next first (log 3). -/
  inputs : List Input
  /-- The model's own: what the host port returned for the last read (log 14). -/
  lastRead : Option Word
deriving DecidableEq, Repr

/-- RX_UTF in the empty state, `EMPTY` of 41_utf8_validator.md (10_state.md R43). -/
def Utf8State.empty : Utf8State := { cp := 0#21, rem := 0#2, seqLen := 0#3 }

/-- RX_HDR = 0. -/
def RxHdr.zero : RxHdr := { opcode := 0#4, rsv := 0#3, fin := false, len7 := 0#7, mask := false, ctrl := false }

/-- A unit's status at reset: BUSY = 0, DONE = 0, CODE = 0x00 (10_state.md R46). -/
def UnitStatus.reset : UnitStatus := { pending := none, done := false, code := .ok }

/-- The RX_ registers at reset (10_state.md R46). -/
def RxUnit.reset : RxUnit :=
  { status := UnitStatus.reset, rsvAllow := 0#3, utfStrict := true, maxLenLo := 0xFFFFFFFF#32, maxLenHi := 0x7FFFFFFF#32,
    off := 0#32, len := 0#32, coff := 0#32, ccap := 0#32, hdr := RxHdr.zero, hsize := 0#32, need := 0#32, plen := 0#64,
    payOff := 0#32, fsize := 0#64, consumed := 0#32, produced := 0#32, utf := Utf8State.empty }

/-- The TX_ registers at reset (10_state.md R46). -/
def TxUnit.reset : TxUnit :=
  { status := UnitStatus.reset, rsvAllow := 0#3, ctl := { opcode := 0#4, rsv := 0#3, fin := false }, src := 0#32,
    dst := 0#32, len := 0#32, key := 0#32, phase := 0#2, hsize := 0#32, keyOut := 0#32, fsize := 0#32 }

/-- The sizes of the implementation (00_scope.md R6; log 1). -/
def Params.ofConfig : Params :=
  { rxbufSize := Config.rxbufSize, txbufSize := Config.txbufSize, cbufSize := Config.cbufSize }

/-- The block right after reset (10_state.md R46). -/
def State.reset : State :=
  { rx := RxUnit.reset, tx := TxUnit.reset, rxbuf := [], txbuf := [], cbuf := [], faultRecord := [],
    params := Params.ofConfig, draws := 0, inputs := [], lastRead := none }

end Sys2Proof.Machine
end

