-- ==== Sys2Proof/Machine/Flags.lean ====
section
/-! DEFINITION. The status flags, the only flags of the block (spec/10_state.md R47): the values of STATUS.CODE, the
STATUS word, and the two operations that write a status, command start and `finish` (R21, R22). -/

namespace Sys2Proof.Machine

/-- The 8-bit value of a status code (60_exceptions.md R160). -/
def StatusCode.toByte : StatusCode → BitVec 8
  | .ok => 0x00#8
  | .needMore => 0x01#8
  | .outFull => 0x02#8
  | .protoRsv => 0x10#8
  | .protoOpcode => 0x11#8
  | .protoMasked => 0x12#8
  | .protoLen64 => 0x13#8
  | .protoCtrlFrag => 0x14#8
  | .protoCtrlLen => 0x15#8
  | .utfBadLead => 0x18#8
  | .utfBadCont => 0x19#8
  | .utfBadCp => 0x1A#8
  | .utfIncomplete => 0x1B#8
  | .resTooLarge => 0x20#8
  | .useIllegalCmd => 0x30#8
  | .useRange => 0x31#8

/-- STATUS.BUSY: 1 from a command write until that command's completion step (10_state.md R22; log 8). -/
def UnitStatus.busy (u : UnitStatus) : Bool := u.pending.isSome

/-- The STATUS word: CODE in bits 15:8, DONE in bit 1, BUSY in bit 0, the rest 0 (10_state.md R22). -/
def UnitStatus.word (u : UnitStatus) : Word :=
  0#16 ++ u.code.toByte ++ 0#6 ++ BitVec.ofBool u.done ++ BitVec.ofBool u.busy

/-- What a command write does to the status: the word is latched, BUSY is set, DONE is cleared and CODE is kept
(10_state.md R21). -/
def UnitStatus.start (w : Word) (u : UnitStatus) : UnitStatus := { u with pending := some w, done := false }

/-- What `finish(code)` leaves in the status: CODE = code, BUSY = 0, DONE = 1 (10_state.md R22). -/
def UnitStatus.finished (code : StatusCode) : UnitStatus := { pending := none, done := true, code := code }

end Sys2Proof.Machine
end

