-- ==== Sys2Proof/Machine/Ops.lean ====
section
/-! DEFINITION. The named operations over buffers and registers: element and range access (spec/20_memory.md R54, R55),
command start (spec/10_state.md R21), `finish` with which every command reports its status (R22), the draw of a mask key
(R40), the record of a model fault (R49) and the reset event (spec/70_reset_and_hazards.md R180).

The block does not trap (spec/60_exceptions.md R163): `finish` is the one shared operation by which a command reports
an error, and there is nothing to restore after it (R164). -/

namespace Sys2Proof.Machine

/-- What a meaning answers. -/
abbrev Result := Host.Outcome State Fault Refusal

/-! ### Buffers -/

/-- One element of a buffer; none when it was never written (20_memory.md R55). -/
def Memory.read {α : Type} : Memory α → Nat → Option α
  | [], _ => none
  | (k, v) :: rest, i => if k = i then some v else Memory.read rest i

/-- A write of one element, which keeps the canonical form and sets the written mark (20_memory.md R55). -/
def Memory.write {α : Type} : Memory α → Nat → α → Memory α
  | [], i, v => [(i, v)]
  | (k, w) :: rest, i, v =>
    if i < k then (i, v) :: (k, w) :: rest
    else if i = k then (i, v) :: rest
    else (k, w) :: Memory.write rest i v

/-- `MemRead(buf, i, n)`: n elements from element i (00_scope.md R9), or the first index of them never written. -/
def Memory.readRange {α : Type} (m : Memory α) : Nat → Nat → Except Nat (List α)
  | _, 0 => .ok []
  | i, n + 1 =>
    match m.read i with
    | none => .error i
    | some v =>
      match m.readRange (i + 1) n with
      | .error j => .error j
      | .ok vs => .ok (v :: vs)

/-- `MemWrite(buf, i, n, vs)`: the elements of `vs` from element i on (00_scope.md R9). -/
def Memory.writeRange {α : Type} (m : Memory α) : Nat → List α → Memory α
  | _, [] => m
  | i, v :: vs => (m.write i v).writeRange (i + 1) vs

/-- Every listed index lies below `size` (20_memory.md R50). -/
def Memory.within {α : Type} (size : Nat) (m : Memory α) : Bool := m.all fun c => decide (c.1 < size)

/-! ### Status of a unit inside the state -/

/-- The status of a unit (10_state.md R22). -/
def State.status (u : UnitId) (s : State) : UnitStatus :=
  match u with
  | .rxu => s.rx.status
  | .txu => s.tx.status

/-- The state with another status for a unit. -/
def State.withStatus (u : UnitId) (st : UnitStatus) (s : State) : State :=
  match u with
  | .rxu => { s with rx := { s.rx with status := st } }
  | .txu => { s with tx := { s.tx with status := st } }

/-- A command start: a word is written to the unit's command register (10_state.md R21). -/
def State.startCommand (u : UnitId) (w : Word) (s : State) : State :=
  s.withStatus u ((s.status u).start w)

/-- `finish(code)` of a command of unit `u` (10_state.md R22, 60_exceptions.md R163). -/
def State.finish (u : UnitId) (code : StatusCode) (s : State) : State :=
  s.withStatus u (UnitStatus.finished code)

/-- The completion step of an illegal command word: USE_ILLEGAL_CMD and no other change (30_encoding.md R87,
40_frame_codec.md R100). -/
def illegalCommand (u : UnitId) (s : State) : Result := .next (s.finish u .useIllegalCmd)

/-! ### Key source, fault record, reset -/

/-- The n-th answer of the key source, a free value in [1, 2^32 - 1] (10_state.md R40; log 2). -/
def drawKey (n : Nat) : Word := BitVec.ofNat 32 (Config.freeKey n % (2 ^ 32 - 1) + 1)

/-- A model fault is appended to the fault record; nothing else changes (10_state.md R49, 60_exceptions.md R166;
log 6). -/
def State.raise (r : Fault) (s : State) : State := { s with faultRecord := s.faultRecord ++ [r] }

/-- The reset event: every register takes its reset value, both units become idle with their commands abandoned, every
written mark and the fault record are cleared (70_reset_and_hazards.md R180). The sizes belong to the implementation,
the key source has no reset (10_state.md R40), and `rest` is what is still to come (log 15). -/
def State.resetEvent (rest : List Input) (s : State) : State :=
  { State.reset with params := s.params, draws := s.draws, inputs := rest }

end Sys2Proof.Machine
end

