-- ==== Sys2Proof/Machine/Operands.lean ====
section
/-! DEFINITION. Operand assembly (spec/30_encoding.md R88): the registers and buffer elements a command reads, each as
its unsigned value, the range checks of spec/20_memory.md R54, and the key bytes of spec/30_encoding.md R78. -/

namespace Sys2Proof.Machine

/-- `MAXLEN = {RX_MAXLEN_HI, RX_MAXLEN_LO}` (10_state.md R27). -/
def RxUnit.maxLen (rx : RxUnit) : Nat := (rx.maxLenHi ++ rx.maxLenLo).toNat

/-- The window of RXBUF a receive command names, `[RX_OFF, RX_OFF + RX_LEN)`, lies in RXBUF (20_memory.md R54). -/
def State.rxWindowFits (s : State) : Bool := decide (s.rx.off.toNat + s.rx.len.toNat ≤ s.params.rxbufSize)

/-- The destination `[RX_COFF, RX_COFF + RX_CCAP)` lies in CBUF (41_utf8_validator.md R136). -/
def State.cbufWindowFits (s : State) : Bool := decide (s.rx.coff.toNat + s.rx.ccap.toNat ≤ s.params.cbufSize)

/-- Read of one RXBUF byte by a command (20_memory.md R55). -/
def State.rxByte (s : State) (i : Nat) : Except Fault Byte :=
  match s.rxbuf.read i with
  | some b => .ok b
  | none => .error (.uninitRead .rxbuf i)

/-- `MemRead(RXBUF, i, n)` by a command (20_memory.md R55). -/
def State.rxBytes (s : State) (i n : Nat) : Except Fault (List Byte) :=
  match s.rxbuf.readRange i n with
  | .ok bs => .ok bs
  | .error j => .error (.uninitRead .rxbuf j)

/-- `MemRead(TXBUF, i, n)` by a command (20_memory.md R55). -/
def State.txBytes (s : State) (i n : Nat) : Except Fault (List Byte) :=
  match s.txbuf.readRange i n with
  | .ok bs => .ok bs
  | .error j => .error (.uninitRead .txbuf j)

/-- `KeyByte(key, j) = key[31−8j : 24−8j]` for j from 0 to 3 (30_encoding.md R78). -/
def keyByte (key : Word) (j : Nat) : Byte := key.extractLsb' (24 - 8 * j) 8

/-- The bytes of a list XORed with the key bytes, the first with key byte `ph mod 4` (30_encoding.md R78,
40_frame_codec.md R111). -/
def maskBytes (key : Word) : Nat → List Byte → List Byte
  | _, [] => []
  | ph, b :: bs => (b ^^^ keyByte key (ph % 4)) :: maskBytes key (ph + 1) bs

/-- RX_HDR of header bytes 0 and 1 (10_state.md R30, 40_frame_codec.md R101). -/
def RxHdr.ofBytes (b0 b1 : Byte) : RxHdr :=
  { opcode := opcodeOf b0, rsv := rsvOf b0, fin := finOf b0, len7 := len7Of b1, mask := maskOf b1,
    ctrl := isControl (opcodeOf b0) }

/-- RX_HDR of a wire header given by its fields (10_state.md R30). -/
def RxHdr.ofFields (opcode : BitVec 4) (f : FrameFields) : RxHdr :=
  { opcode := opcode, rsv := f.rsv, fin := f.fin, len7 := f.len.len7Bits, mask := f.key.isSome,
    ctrl := isControl opcode }

end Sys2Proof.Machine
end

