-- ==== Sys2Proof/Machine/FrameCodec.lean ====
section
/-! DEFINITION. The frame codec commands DEC_HDR, ENC_FRAME and XOR_MASK (spec/40_frame_codec.md R101, R106, R111). -/

namespace Sys2Proof.Machine

/-! ### DEC_HDR -/

/-- The result set of DEC_HDR is cleared before any check (40_frame_codec.md R100, R101). -/
def State.clearHeaderResults (s : State) : State :=
  { s with rx := { s.rx with hdr := RxHdr.zero, hsize := 0#32, need := 0#32, plen := 0#64, payOff := 0#32, fsize := 0#64 } }

/-- RX_NEED is written. -/
def State.withNeed (n : Nat) (s : State) : State := { s with rx := { s.rx with need := BitVec.ofNat 32 n } }

/-- RX_HDR is written. -/
def State.withHdr (h : RxHdr) (s : State) : State := { s with rx := { s.rx with hdr := h } }

/-- RX_HSIZE, RX_PLEN, RX_PAYOFF and RX_FSIZE of an accepted header of size `hs` with payload length `plen`
(40_frame_codec.md R101). -/
def State.withAccepted (hs plen : Nat) (s : State) : State :=
  { s with rx := { s.rx with
      hsize := BitVec.ofNat 32 hs
      plen := BitVec.ofNat 64 plen
      payOff := BitVec.ofNat 32 (s.rx.off.toNat + hs)
      fsize := BitVec.ofNat 64 (hs + plen) } }

/-- The checks DEC_HDR makes on bytes 0 and 1 alone, in their order; none when all pass (40_frame_codec.md R101). -/
def firstBytesError (rsvAllow : BitVec 3) (h : RxHdr) : Option StatusCode :=
  if h.rsv &&& ~~~rsvAllow ≠ 0#3 then some .protoRsv
  else if !recognized h.opcode then some .protoOpcode
  else if h.mask then some .protoMasked
  else if isControl h.opcode && !h.fin then some .protoCtrlFrag
  else none

/-- The checks DEC_HDR makes on the decoded payload length, in their order; none when all pass
(40_frame_codec.md R101). -/
def lengthError (maxLen : Nat) (h : RxHdr) (plen : Nat) : Option StatusCode :=
  if extSize h.len7 = 8 ∧ 2 ^ 63 ≤ plen then some .protoLen64
  else if isControl h.opcode ∧ 125 < plen then some .protoCtrlLen
  else if maxLen < plen then some .resTooLarge
  else none

/-- DEC_HDR over a header whose first two bytes read as `hdr` and whose payload length reads as `plen hdr`
(40_frame_codec.md R101). The readings are asked for only where the rule reads the bytes. -/
def receiveHeader (hdr : Except Fault RxHdr) (plen : RxHdr → Except Fault Nat) (s : State) : Result :=
  let s1 := s.clearHeaderResults
  if !s.rxWindowFits then .next (s1.finish .rxu .useRange)
  else if s.rx.len.toNat < 2 then .next ((s1.withNeed 2).finish .rxu .needMore)
  else
    match hdr with
    | .error r => .fault r
    | .ok h =>
      let e := extSize h.len7
      let s2 := (s1.withHdr h).withNeed (2 + e)
      match firstBytesError s.rx.rsvAllow h with
      | some code => .next (s2.finish .rxu code)
      | none =>
        if s.rx.len.toNat < 2 + e then .next (s2.finish .rxu .needMore)
        else
          match plen h with
          | .error r => .fault r
          | .ok n =>
            match lengthError s.rx.maxLen h n with
            | some code => .next (s2.finish .rxu code)
            | none => .next ((s2.withAccepted (2 + e) n).finish .rxu .ok)

/-- Header bytes 0 and 1 read from RXBUF at RX_OFF (40_frame_codec.md R101). -/
def State.readHdr (s : State) : Except Fault RxHdr :=
  match s.rxByte s.rx.off.toNat with
  | .error r => .error r
  | .ok b0 =>
    match s.rxByte (s.rx.off.toNat + 1) with
    | .error r => .error r
    | .ok b1 => .ok (RxHdr.ofBytes b0 b1)

/-- The payload length of the header at RX_OFF, whose bytes 0 and 1 are `h` (30_encoding.md R73). -/
def State.readPlen (s : State) (h : RxHdr) : Except Fault Nat :=
  if extSize h.len7 = 0 then .ok h.len7.toNat
  else
    match s.rxBytes (s.rx.off.toNat + 2) (extSize h.len7) with
    | .error r => .error r
    | .ok bs => .ok (beValue bs)

/-- DEC_HDR (40_frame_codec.md R101). -/
def execDecHdr (s : State) : Result := receiveHeader s.readHdr s.readPlen s

/-! ### ENC_FRAME -/

/-- The result set of ENC_FRAME is cleared before any check (40_frame_codec.md R100, R106). -/
def State.clearFrameResults (s : State) : State :=
  { s with tx := { s.tx with hsize := 0#32, keyOut := 0#32, fsize := 0#32 } }

/-- The header size H of a frame with payload length `len`: 6, 8 or 14 (30_encoding.md R80, 40_frame_codec.md R106). -/
def clientHeaderSize (len : Nat) : Nat := if len ≤ 125 then 6 else if len ≤ 65535 then 8 else 14

/-- The checks ENC_FRAME makes on the frame's fields, in their order; none when all pass (40_frame_codec.md R106). -/
def encodeError (rsvAllow : BitVec 3) (c : TxCtl) (len : Nat) : Option StatusCode :=
  if c.rsv &&& ~~~rsvAllow ≠ 0#3 then some .protoRsv
  else if !recognized c.opcode then some .protoOpcode
  else if isControl c.opcode && !c.fin then some .protoCtrlFrag
  else if isControl c.opcode ∧ 125 < len then some .protoCtrlLen
  else none

/-- The payload source and the frame's place lie in TXBUF (40_frame_codec.md R106). -/
def State.frameFits (s : State) : Bool :=
  decide (s.tx.src.toNat + s.tx.len.toNat ≤ s.params.txbufSize ∧
    s.tx.dst.toNat + clientHeaderSize s.tx.len.toNat + s.tx.len.toNat ≤ s.params.txbufSize)

/-- The frame ENC_FRAME writes for a payload and a key: header, then the payload masked from phase 0
(40_frame_codec.md R106). -/
def clientFrame (c : TxCtl) (key : Word) (payload : List Byte) : List Byte :=
  encodeHeader c.fin c.rsv c.opcode payload.length key ++ maskBytes key 0 payload

/-- TX_HSIZE, TX_KEYOUT and TX_FSIZE of a frame written (40_frame_codec.md R106). -/
def State.withFrameResults (key : Word) (s : State) : State :=
  { s with tx := { s.tx with
      hsize := BitVec.ofNat 32 (clientHeaderSize s.tx.len.toNat)
      keyOut := key
      fsize := BitVec.ofNat 32 (clientHeaderSize s.tx.len.toNat + s.tx.len.toNat) } }

/-- The number of draws ENC_FRAME takes from the key source when its checks pass (10_state.md R40). -/
def drawsFor (len : Nat) : Nat := if len = 0 then 0 else 1

/-- ENC_FRAME with `draw` as the key source's answer, which is used only when TX_LEN > 0 (40_frame_codec.md R106,
10_state.md R40). -/
def encodeFrame (draw : Word) (s : State) : Result :=
  let s1 := s.clearFrameResults
  let len := s.tx.len.toNat
  if !s.frameFits then .next (s1.finish .txu .useRange)
  else
    match encodeError s.tx.rsvAllow s.tx.ctl len with
    | some code => .next (s1.finish .txu code)
    | none =>
      let key := if len = 0 then 0#32 else draw
      match s.txBytes s.tx.src.toNat len with
      | .error r => .fault r
      | .ok payload =>
        let s2 : State := { s1 with
          txbuf := s.txbuf.writeRange s.tx.dst.toNat (clientFrame s.tx.ctl key payload)
          draws := s.draws + drawsFor len }
        .next ((s2.withFrameResults key).finish .txu .ok)

/-- ENC_FRAME (40_frame_codec.md R106): the key is the key source's next answer (10_state.md R40; log 2). -/
def execEncFrame (s : State) : Result := encodeFrame (drawKey s.draws) s

/-! ### XOR_MASK -/

/-- The bytes XOR_MASK masks lie in TXBUF (40_frame_codec.md R111). -/
def State.maskFits (s : State) : Bool := decide (s.tx.dst.toNat + s.tx.len.toNat ≤ s.params.txbufSize)

/-- XOR_MASK (40_frame_codec.md R111). -/
def execXorMask (s : State) : Result :=
  if !s.maskFits then .next (s.finish .txu .useRange)
  else
    match s.txBytes s.tx.dst.toNat s.tx.len.toNat with
    | .error r => .fault r
    | .ok bs =>
      let s1 : State := { s with txbuf := s.txbuf.writeRange s.tx.dst.toNat (maskBytes s.tx.key s.tx.phase.toNat bs) }
      .next (s1.finish .txu .ok)

end Sys2Proof.Machine
end

