-- ==== Sys2Proof/Machine/Utf8.lean ====
section
/-! DEFINITION. The streaming UTF-8 validator (spec/41_utf8_validator.md): the byte step and its fold, and the commands
UTF_RESET, UTF_DECODE, UTF_DECODE.E and UTF_FINISH. -/

namespace Sys2Proof.Machine

/-! ### The byte step -/

/-- The result of `Utf8Step` (41_utf8_validator.md R130). -/
inductive Utf8Result where
  | err (code : StatusCode)
  | pend (s : Utf8State)
  | emit (units : List CodeUnit) (s : Utf8State)
deriving DecidableEq, Repr

/-- `Valid(cp, sl, strict)`: the check of a completed multi-byte sequence (41_utf8_validator.md R131). -/
def validCodepoint (cp sl : Nat) (strict : Bool) : Bool :=
  if 0x10FFFF < cp then false
  else if !strict then true
  else if sl = 2 ∧ cp < 0x80 then false
  else if sl = 3 ∧ cp < 0x800 then false
  else if sl = 3 ∧ 0xD800 ≤ cp ∧ cp ≤ 0xDFFF then false
  else if sl = 4 ∧ cp < 0x10000 then false
  else true

/-- `Units(cp)`: the code units of a completed codepoint (41_utf8_validator.md R132). -/
def codeUnits (cp : Nat) : List CodeUnit :=
  if cp ≤ 0xFFFF then [BitVec.ofNat 16 cp]
  else [BitVec.ofNat 16 (0xD800 + ((cp - 0x10000) >>> 10)), BitVec.ofNat 16 (0xDC00 + ((cp - 0x10000) &&& 0x3FF))]

/-- The step on a leading byte, when REM = 0 (41_utf8_validator.md R130). -/
def utf8Lead (b : Byte) : Utf8Result :=
  if b ≤ 0x7F#8 then .emit [b.setWidth 16] Utf8State.empty
  else if b &&& 0xE0#8 = 0xC0#8 then .pend { cp := (b &&& 0x1F#8).setWidth 21, rem := 1#2, seqLen := 2#3 }
  else if b &&& 0xF0#8 = 0xE0#8 then .pend { cp := (b &&& 0x0F#8).setWidth 21, rem := 2#2, seqLen := 3#3 }
  else if b &&& 0xF8#8 = 0xF0#8 then .pend { cp := (b &&& 0x07#8).setWidth 21, rem := 3#2, seqLen := 4#3 }
  else .err .utfBadLead

/-- `(cp << 6) | (b & 0x3F)`, without wrap (41_utf8_validator.md R130, 00_scope.md R8; log 16). -/
def extendCodepoint (cp : BitVec 21) (b : Byte) : Nat := (cp.toNat <<< 6) ||| (b &&& 0x3F#8).toNat

/-- The step on a continuation byte, when REM is not 0 (41_utf8_validator.md R130). -/
def utf8Continue (u : Utf8State) (b : Byte) (strict : Bool) : Utf8Result :=
  if b &&& 0xC0#8 ≠ 0x80#8 then .err .utfBadCont
  else if 1#2 < u.rem then
    .pend { cp := BitVec.ofNat 21 (extendCodepoint u.cp b), rem := u.rem - 1#2, seqLen := u.seqLen }
  else if !validCodepoint (extendCodepoint u.cp b) u.seqLen.toNat strict then .err .utfBadCp
  else .emit (codeUnits (extendCodepoint u.cp b)) Utf8State.empty

/-- `Utf8Step(s, b, strict)` (41_utf8_validator.md R130). -/
def utf8Step (u : Utf8State) (b : Byte) (strict : Bool) : Utf8Result :=
  if u.rem = 0#2 then utf8Lead b else utf8Continue u b strict

/-- The result of `Fold` over a byte list: the code units emitted, the state after, and the error that ended it with the
index of its byte. -/
structure FoldResult where
  units : List CodeUnit
  utf : Utf8State
  error : Option (Nat × StatusCode)
deriving DecidableEq, Repr

/-- `Fold(s, bytes)`: the left fold of `Utf8Step`, which ends at the first error (41_utf8_validator.md R137). `i` is the
index of the first byte and `acc` what was emitted before it. -/
def utf8Fold (strict : Bool) : List Byte → Nat → List CodeUnit → Utf8State → FoldResult
  | [], _, acc, u => { units := acc, utf := u, error := none }
  | b :: bs, i, acc, u =>
    match utf8Step u b strict with
    | .err code => { units := acc, utf := Utf8State.empty, error := some (i, code) }
    | .pend u' => utf8Fold strict bs (i + 1) acc u'
    | .emit us u' => utf8Fold strict bs (i + 1) (acc ++ us) u'

/-! ### The commands -/

/-- How a UTF_DECODE ended: its code, RX_CONSUMED, RX_PRODUCED, RX_UTF and CBUF. -/
structure DecodeRun where
  code : StatusCode
  consumed : Nat
  produced : Nat
  utf : Utf8State
  cbuf : Memory CodeUnit
deriving DecidableEq, Repr

/-- What UTF_DECODE's loop reads and never writes (41_utf8_validator.md R136). -/
structure DecodeParams where
  strict : Bool
  emit : Bool
  /-- RX_COFF. -/
  coff : Nat
  /-- RX_CCAP. -/
  cap : Nat
deriving DecidableEq, Repr

/-- The loop of UTF_DECODE with `n` bytes to go from RXBUF[pos], `i` consumed and `p` produced
(41_utf8_validator.md R136). -/
def utf8Loop (d : DecodeParams) (rxbuf : Memory Byte) :
    (n pos i p : Nat) → Utf8State → Memory CodeUnit → Except Fault DecodeRun
  | 0, _, i, p, u, c => .ok { code := .ok, consumed := i, produced := p, utf := u, cbuf := c }
  | n + 1, pos, i, p, u, c =>
    match rxbuf.read pos with
    | none => .error (.uninitRead .rxbuf pos)
    | some b =>
      match utf8Step u b d.strict with
      | .err code => .ok { code := code, consumed := i, produced := p, utf := Utf8State.empty, cbuf := c }
      | .pend u' => utf8Loop d rxbuf n (pos + 1) (i + 1) p u' c
      | .emit us u' =>
        if d.emit ∧ d.cap < p + us.length then
          .ok { code := .outFull, consumed := i, produced := p, utf := u, cbuf := c }
        else
          utf8Loop d rxbuf n (pos + 1) (i + 1) (p + us.length) u'
            (if d.emit then c.writeRange (d.coff + p) us else c)

/-- The result set of UTF_DECODE is cleared before any check (40_frame_codec.md R100, 41_utf8_validator.md R136). -/
def State.clearDecodeResults (s : State) : State :=
  { s with rx := { s.rx with consumed := 0#32, produced := 0#32 } }

/-- What a UTF_DECODE leaves in RX_CONSUMED, RX_PRODUCED, RX_UTF and CBUF (41_utf8_validator.md R136). -/
def State.withDecodeRun (r : DecodeRun) (s : State) : State :=
  { s with
    rx := { s.rx with consumed := BitVec.ofNat 32 r.consumed, produced := BitVec.ofNat 32 r.produced, utf := r.utf }
    cbuf := r.cbuf }

/-- UTF_DECODE and UTF_DECODE.E (41_utf8_validator.md R136). RX_COFF and RX_CCAP matter only when EMIT = 1. -/
def utf8DecodeRange (emit : Bool) (s : State) : Result :=
  let s1 := s.clearDecodeResults
  if !s.rxWindowFits then .next (s1.finish .rxu .useRange)
  else if emit && !s.cbufWindowFits then .next (s1.finish .rxu .useRange)
  else
    match utf8Loop { strict := s.rx.utfStrict, emit := emit, coff := s.rx.coff.toNat, cap := s.rx.ccap.toNat }
        s.rxbuf s.rx.len.toNat s.rx.off.toNat 0 0 s.rx.utf s.cbuf with
    | .error r => .fault r
    | .ok r => .next ((s1.withDecodeRun r).finish .rxu r.code)

/-- RX_UTF is emptied. -/
def State.emptyUtf (s : State) : State := { s with rx := { s.rx with utf := Utf8State.empty } }

/-- UTF_RESET (41_utf8_validator.md R134). -/
def execUtfReset (s : State) : Result := .next (s.emptyUtf.finish .rxu .ok)

/-- UTF_DECODE, EMIT = 0 (41_utf8_validator.md R136). -/
def execUtfDecode (s : State) : Result := utf8DecodeRange false s

/-- UTF_DECODE.E, EMIT = 1 (41_utf8_validator.md R136). -/
def execUtfDecodeE (s : State) : Result := utf8DecodeRange true s

/-- UTF_FINISH (41_utf8_validator.md R138). -/
def execUtfFinish (s : State) : Result :=
  if s.rx.utf.rem ≠ 0#2 then .next (s.emptyUtf.finish .rxu .utfIncomplete)
  else .next (s.emptyUtf.finish .rxu .ok)

end Sys2Proof.Machine
end

