-- ==== Sys2Proof/Machine/WireFrames.lean ====
section
/-! DEFINITION. The wire opcodes FRAME_CONTINUATION to FRAME_PONG (spec/30_encoding.md R75). A wire header acts on the
block when RXU receives it: DEC_HDR's rule (spec/40_frame_codec.md R101) over a header whose fields are the
instruction's operands, placed at RX_OFF (log 10). -/

namespace Sys2Proof.Machine

/-- RXU receives a header with opcode `opcode` and fields `f` (40_frame_codec.md R101; log 10). -/
def receiveFrame (opcode : BitVec 4) (f : FrameFields) (s : State) : Result :=
  receiveHeader (.ok (RxHdr.ofFields opcode f)) (fun _ => .ok f.len.value) s

/-- FRAME_CONTINUATION, opcode 0x0 (30_encoding.md R75). -/
def execFrameContinuation (f : FrameFields) (s : State) : Result := receiveFrame 0x0#4 f s

/-- FRAME_TEXT, opcode 0x1 (30_encoding.md R75). -/
def execFrameText (f : FrameFields) (s : State) : Result := receiveFrame 0x1#4 f s

/-- FRAME_BINARY, opcode 0x2 (30_encoding.md R75). -/
def execFrameBinary (f : FrameFields) (s : State) : Result := receiveFrame 0x2#4 f s

/-- FRAME_CLOSE, opcode 0x8 (30_encoding.md R75). -/
def execFrameClose (f : FrameFields) (s : State) : Result := receiveFrame 0x8#4 f s

/-- FRAME_PING, opcode 0x9 (30_encoding.md R75). -/
def execFramePing (f : FrameFields) (s : State) : Result := receiveFrame 0x9#4 f s

/-- FRAME_PONG, opcode 0xA (30_encoding.md R75). -/
def execFramePong (f : FrameFields) (s : State) : Result := receiveFrame 0xA#4 f s

end Sys2Proof.Machine
end

