-- ==== Sys2Proof/Machine/Dispatch.lean ====
section
/-! DEFINITION. The dispatch of every instruction of spec/opcode_table.json to its meaning, one arm per constructor. -/

namespace Sys2Proof.Machine

/-- The completion step of an instruction (spec/10_state.md R21). -/
def exec (i : Instr) (s : State) : Host.Outcome State Fault Refusal :=
  match i with
  | .decHdr => Sys2Proof.Machine.execDecHdr s
  | .encFrame => Sys2Proof.Machine.execEncFrame s
  | .xorMask => Sys2Proof.Machine.execXorMask s
  | .utfReset => Sys2Proof.Machine.execUtfReset s
  | .utfDecode => Sys2Proof.Machine.execUtfDecode s
  | .utfDecodeE => Sys2Proof.Machine.execUtfDecodeE s
  | .utfFinish => Sys2Proof.Machine.execUtfFinish s
  | .frameContinuation f => Sys2Proof.Machine.execFrameContinuation f s
  | .frameText f => Sys2Proof.Machine.execFrameText f s
  | .frameBinary f => Sys2Proof.Machine.execFrameBinary f s
  | .frameClose f => Sys2Proof.Machine.execFrameClose f s
  | .framePing f => Sys2Proof.Machine.execFramePing f s
  | .framePong f => Sys2Proof.Machine.execFramePong f s

end Sys2Proof.Machine
end

