-- ==== Sys2Proof/Machine/HostPort.lean ====
section
/-! DEFINITION. The host port: the address map and legal access shapes (spec/20_memory.md R52, R53), the registers and
their access kinds (spec/10_state.md R23, R24), the busy-unit hazards (spec/70_reset_and_hazards.md R186), and the
effect of one host access. -/

namespace Sys2Proof.Machine

/-- The registers of the register map (10_state.md R23). -/
inductive Reg where
  | rxCmd | rxStatus | rxCfg | rxMaxLenLo | rxMaxLenHi | rxOff | rxLen | rxCoff | rxCcap | rxHdr | rxHsize | rxNeed
  | rxPlenLo | rxPlenHi | rxPayOff | rxFsizeLo | rxFsizeHi | rxConsumed | rxProduced | rxUtf
  | txCmd | txStatus | txCfg | txCtl | txSrc | txDst | txLen | txKey | txPhase | txHsize | txKeyOut | txFsize
deriving DecidableEq, Repr

/-- The access kinds (10_state.md R23). -/
inductive AccessKind where
  | rw
  | ro
  | wo
deriving DecidableEq, Repr

/-- The register at an offset; every other offset is unmapped (10_state.md R23). -/
def Reg.ofOffset (offset : Nat) : Option Reg :=
  match offset with
  | 0x000 => some .rxCmd
  | 0x004 => some .rxStatus
  | 0x008 => some .rxCfg
  | 0x00C => some .rxMaxLenLo
  | 0x010 => some .rxMaxLenHi
  | 0x014 => some .rxOff
  | 0x018 => some .rxLen
  | 0x01C => some .rxCoff
  | 0x020 => some .rxCcap
  | 0x024 => some .rxHdr
  | 0x028 => some .rxHsize
  | 0x02C => some .rxNeed
  | 0x030 => some .rxPlenLo
  | 0x034 => some .rxPlenHi
  | 0x038 => some .rxPayOff
  | 0x03C => some .rxFsizeLo
  | 0x040 => some .rxFsizeHi
  | 0x044 => some .rxConsumed
  | 0x048 => some .rxProduced
  | 0x04C => some .rxUtf
  | 0x100 => some .txCmd
  | 0x104 => some .txStatus
  | 0x108 => some .txCfg
  | 0x10C => some .txCtl
  | 0x110 => some .txSrc
  | 0x114 => some .txDst
  | 0x118 => some .txLen
  | 0x11C => some .txKey
  | 0x120 => some .txPhase
  | 0x124 => some .txHsize
  | 0x128 => some .txKeyOut
  | 0x12C => some .txFsize
  | _ => none

/-- The access kind of a register (10_state.md R23). -/
def Reg.kind : Reg → AccessKind
  | .rxCmd => .wo
  | .rxStatus => .ro
  | .rxCfg => .rw
  | .rxMaxLenLo => .rw
  | .rxMaxLenHi => .rw
  | .rxOff => .rw
  | .rxLen => .rw
  | .rxCoff => .rw
  | .rxCcap => .rw
  | .rxHdr => .ro
  | .rxHsize => .ro
  | .rxNeed => .ro
  | .rxPlenLo => .ro
  | .rxPlenHi => .ro
  | .rxPayOff => .ro
  | .rxFsizeLo => .ro
  | .rxFsizeHi => .ro
  | .rxConsumed => .ro
  | .rxProduced => .ro
  | .rxUtf => .ro
  | .txCmd => .wo
  | .txStatus => .ro
  | .txCfg => .rw
  | .txCtl => .rw
  | .txSrc => .rw
  | .txDst => .rw
  | .txLen => .rw
  | .txKey => .rw
  | .txPhase => .rw
  | .txHsize => .ro
  | .txKeyOut => .ro
  | .txFsize => .ro

/-- The unit a register belongs to (10_state.md R23). -/
def Reg.unit : Reg → UnitId
  | .txCmd | .txStatus | .txCfg | .txCtl | .txSrc | .txDst | .txLen | .txKey | .txPhase | .txHsize | .txKeyOut
  | .txFsize => .txu
  | .rxCmd | .rxStatus | .rxCfg | .rxMaxLenLo | .rxMaxLenHi | .rxOff | .rxLen | .rxCoff | .rxCcap | .rxHdr | .rxHsize
  | .rxNeed | .rxPlenLo | .rxPlenHi | .rxPayOff | .rxFsizeLo | .rxFsizeHi | .rxConsumed | .rxProduced | .rxUtf => .rxu

/-- A STATUS register, the only one that may be read while its unit is busy (70_reset_and_hazards.md R186). -/
def Reg.isStatus : Reg → Bool
  | .rxStatus | .txStatus => true
  | _ => false

/-! ### Register words -/

/-- RX_HDR as a word (10_state.md R30). -/
def RxHdr.word (h : RxHdr) : Word :=
  0#15 ++ BitVec.ofBool h.ctrl ++ BitVec.ofBool h.mask ++ h.len7 ++ BitVec.ofBool h.fin ++ h.rsv ++ h.opcode

/-- RX_UTF as a word (10_state.md R35). -/
def Utf8State.word (u : Utf8State) : Word := 0#6 ++ u.seqLen ++ u.rem ++ u.cp

/-- TX_CTL as a word (10_state.md R37). -/
def TxCtl.word (c : TxCtl) : Word := 0#24 ++ BitVec.ofBool c.fin ++ c.rsv ++ c.opcode

/-- TX_CTL of a written word (10_state.md R24, R37). -/
def TxCtl.ofWord (v : Word) : TxCtl :=
  { opcode := v.extractLsb' 0 4, rsv := v.extractLsb' 4 3, fin := v.getLsbD 7 }

/-- The value a host read of a register returns; a WO register reads 0, reserved bits read 0 (10_state.md R24). -/
def State.readReg (s : State) : Reg → Word
  | .rxCmd => 0#32
  | .rxStatus => s.rx.status.word
  | .rxCfg => 0#28 ++ BitVec.ofBool s.rx.utfStrict ++ s.rx.rsvAllow
  | .rxMaxLenLo => s.rx.maxLenLo
  | .rxMaxLenHi => s.rx.maxLenHi
  | .rxOff => s.rx.off
  | .rxLen => s.rx.len
  | .rxCoff => s.rx.coff
  | .rxCcap => s.rx.ccap
  | .rxHdr => s.rx.hdr.word
  | .rxHsize => s.rx.hsize
  | .rxNeed => s.rx.need
  | .rxPlenLo => s.rx.plen.extractLsb' 0 32
  | .rxPlenHi => s.rx.plen.extractLsb' 32 32
  | .rxPayOff => s.rx.payOff
  | .rxFsizeLo => s.rx.fsize.extractLsb' 0 32
  | .rxFsizeHi => s.rx.fsize.extractLsb' 32 32
  | .rxConsumed => s.rx.consumed
  | .rxProduced => s.rx.produced
  | .rxUtf => s.rx.utf.word
  | .txCmd => 0#32
  | .txStatus => s.tx.status.word
  | .txCfg => 0#29 ++ s.tx.rsvAllow
  | .txCtl => s.tx.ctl.word
  | .txSrc => s.tx.src
  | .txDst => s.tx.dst
  | .txLen => s.tx.len
  | .txKey => s.tx.key
  | .txPhase => 0#30 ++ s.tx.phase
  | .txHsize => s.tx.hsize
  | .txKeyOut => s.tx.keyOut
  | .txFsize => s.tx.fsize

/-- A host write of a register: an RW register stores its defined fields, an RO register ignores the write, a command
register starts a command (10_state.md R21, R24). -/
def State.writeReg (v : Word) (s : State) : Reg → State
  | .rxCmd => s.startCommand .rxu v
  | .txCmd => s.startCommand .txu v
  | .rxCfg => { s with rx := { s.rx with rsvAllow := v.extractLsb' 0 3, utfStrict := v.getLsbD 3 } }
  | .rxMaxLenLo => { s with rx := { s.rx with maxLenLo := v } }
  | .rxMaxLenHi => { s with rx := { s.rx with maxLenHi := v } }
  | .rxOff => { s with rx := { s.rx with off := v } }
  | .rxLen => { s with rx := { s.rx with len := v } }
  | .rxCoff => { s with rx := { s.rx with coff := v } }
  | .rxCcap => { s with rx := { s.rx with ccap := v } }
  | .txCfg => { s with tx := { s.tx with rsvAllow := v.extractLsb' 0 3 } }
  | .txCtl => { s with tx := { s.tx with ctl := TxCtl.ofWord v } }
  | .txSrc => { s with tx := { s.tx with src := v } }
  | .txDst => { s with tx := { s.tx with dst := v } }
  | .txLen => { s with tx := { s.tx with len := v } }
  | .txKey => { s with tx := { s.tx with key := v } }
  | .txPhase => { s with tx := { s.tx with phase := v.extractLsb' 0 2 } }
  | .rxStatus | .rxHdr | .rxHsize | .rxNeed | .rxPlenLo | .rxPlenHi | .rxPayOff | .rxFsizeLo | .rxFsizeHi
  | .rxConsumed | .rxProduced | .rxUtf | .txStatus | .txHsize | .txKeyOut | .txFsize => s

/-! ### Address map, shapes and hazards -/

/-- What a legal host access reaches (20_memory.md R52). -/
inductive Target where
  | reg (r : Reg)
  | rxbuf (index : Nat)
  | txbuf (index : Nat)
  | cbuf (index : Nat)
deriving DecidableEq, Repr

/-- The target of a host access of `width` bits at `addr`; none for an unmapped address, a wrong width or a misaligned
access (20_memory.md R52, R53). -/
def Params.resolve (p : Params) (width : Nat) (addr : Word) : Option Target :=
  let a := addr.toNat
  if a < 0x1000 then
    if width = 32 ∧ a % 4 = 0 then (Reg.ofOffset a).map .reg else none
  else if 0x10000000 ≤ a ∧ a - 0x10000000 < p.rxbufSize then
    if width = 8 then some (.rxbuf (a - 0x10000000)) else none
  else if 0x20000000 ≤ a ∧ a - 0x20000000 < p.txbufSize then
    if width = 8 then some (.txbuf (a - 0x20000000)) else none
  else if 0x30000000 ≤ a ∧ (a - 0x30000000) / 2 < p.cbufSize then
    if width = 16 ∧ a % 2 = 0 then some (.cbuf ((a - 0x30000000) / 2)) else none
  else none

/-- The unit a target belongs to: RXBUF and CBUF are RXU's, TXBUF is TXU's (70_reset_and_hazards.md R186). -/
def Target.unit : Target → UnitId
  | .reg r => r.unit
  | .rxbuf _ => .rxu
  | .txbuf _ => .txu
  | .cbuf _ => .rxu

/-- A read that R186 forbids while the target's unit is busy: of a register other than STATUS, or of a buffer. -/
def Target.readForbidden : Target → Bool
  | .reg r => !r.isStatus
  | .rxbuf _ => true
  | .txbuf _ => true
  | .cbuf _ => true

/-- The unit of a target is busy. -/
def State.targetBusy (s : State) (t : Target) : Bool := (s.status t.unit).busy

/-! ### The effect of one access -/

/-- The value at a target, zero-extended to a word (10_state.md R24, 20_memory.md R55). -/
def State.readTarget (s : State) : Target → Except Fault Word
  | .reg r => .ok (s.readReg r)
  | .rxbuf i =>
    match s.rxbuf.read i with
    | some b => .ok (b.setWidth 32)
    | none => .error (.uninitRead .rxbuf i)
  | .txbuf i =>
    match s.txbuf.read i with
    | some b => .ok (b.setWidth 32)
    | none => .error (.uninitRead .txbuf i)
  | .cbuf i =>
    match s.cbuf.read i with
    | some c => .ok (c.setWidth 32)
    | none => .error (.uninitRead .cbuf i)

/-- A write of a target (10_state.md R24, 20_memory.md R55). A buffer element takes the low bits of the data
(log 17). -/
def State.writeTarget (v : Word) (s : State) : Target → State
  | .reg r => s.writeReg v r
  | .rxbuf i => { s with rxbuf := s.rxbuf.write i (v.setWidth 8) }
  | .txbuf i => { s with txbuf := s.txbuf.write i (v.setWidth 8) }
  | .cbuf i => { s with cbuf := s.cbuf.write i (v.setWidth 16) }

/-- One host access: a bus error, a hazard, or its effect (20_memory.md R53, R55, R57, 70_reset_and_hazards.md R186;
log 9). While a unit is busy every write to one of its registers or buffers is a hazard, a read-only register among them
(92_eei_decisions.md D4; log 18). -/
def hostAccess (a : HostAccess) (s : State) : Result :=
  match a with
  | .read width addr =>
    match s.params.resolve width addr with
    | none => .fault (.hostBadAccess addr width)
    | some t =>
      if s.targetBusy t && t.readForbidden then .fault (.hostHazard t.unit addr)
      else
        match s.readTarget t with
        | .error r => .fault r
        | .ok v => .next { s with lastRead := some v }
  | .write width addr v =>
    match s.params.resolve width addr with
    | none => .fault (.hostBadAccess addr width)
    | some t =>
      if s.targetBusy t then .fault (.hostHazard t.unit addr)
      else .next (s.writeTarget v t)

end Sys2Proof.Machine
end

