-- ==== Sys2Proof/Machine/Schedule.lean ====
section
/-! DEFINITION. What happens at one event of the total order (spec/20_memory.md R58): a unit's completion step
(spec/10_state.md R21), a host access, a reset; and the running out of the inputs (log 3, log 4). -/

namespace Sys2Proof.Machine

/-- A unit's completion step: its pending word is decoded for the unit and run; an illegal word finishes
USE_ILLEGAL_CMD (10_state.md R21, 40_frame_codec.md R100). An idle unit has no completion step (log 4). -/
def completeUnit (u : UnitId) (s : State) : Result :=
  match (s.status u).pending with
  | none => .next s
  | some w =>
    match decodeCommand u w with
    | .ok i => exec i s
    | .error _ => illegalCommand u s

/-- With no input left, a busy unit completes, RXU before TXU, and an idle block stays as it is (70_reset_and_hazards.md
R189; log 3). -/
def runOut (s : State) : Result :=
  if s.rx.status.busy then completeUnit .rxu s
  else if s.tx.status.busy then completeUnit .txu s
  else .next s

/-- The next event of the total order, on a state without a recorded fault (20_memory.md R58). -/
def nextEvent (s : State) : Result :=
  match s.inputs with
  | [] => runOut s
  | .access a :: rest => hostAccess a { s with inputs := rest }
  | .complete u :: rest => completeUnit u { s with inputs := rest }
  | .reset :: rest => .next (s.resetEvent rest)

/-- A state with a recorded fault has no successor but a reset, which begins a new run (60_exceptions.md R166,
70_reset_and_hazards.md R180; log 5). -/
def afterFault (r : Fault) (s : State) : Result :=
  match s.inputs with
  | .reset :: rest => .next (s.resetEvent rest)
  | _ => .fault r

/-- The command word `w` is what unit `u` runs in the very next step. -/
def State.placeCommand (u : UnitId) (w : Word) (s : State) : State :=
  { s.startCommand u w with faultRecord := [], inputs := .complete u :: s.inputs }

/-- The unit a command word is placed at: the one that may run it, RXU for an illegal word. -/
def unitFor (w : Word) : UnitId :=
  match decodeCommandWord w with
  | .ok i => i.unit
  | .error _ => .rxu

/-- The bytes `bs` are the window that DEC_HDR decodes in the very next step: RXBUF from index 0, RX_OFF = 0, RX_LEN the
number of bytes, and DEC_HDR pending (log 12). -/
def State.placeWireBytes (bs : List Byte) (s : State) : State :=
  let s1 : State :=
    { s with rxbuf := s.rxbuf.writeRange 0 bs, rx := { s.rx with off := 0#32, len := BitVec.ofNat 32 bs.length } }
  s1.placeCommand .rxu 0x00000001#32

end Sys2Proof.Machine
end

