-- ==== Sys2Proof/Machine/Step.lean ====
section
/-! DEFINITION. One step of the block: the next event of the total order (spec/20_memory.md R58). The block fetches no
instructions (spec/10_state.md R48): what a step runs is the command word pending at a unit, and a wire header is what
DEC_HDR finds at RX_OFF. -/

namespace Sys2Proof.Machine

/-- One step (20_memory.md R58, 60_exceptions.md R166). -/
def step (s : State) : Host.Outcome State Fault Refusal :=
  match s.faultRecord with
  | [] => nextEvent s
  | r :: _ => afterFault r s

/-- The instruction of a table word placed where the next step runs it: a 32-bit row as the pending command word of its
unit, a shorter row as wire bytes in RXBUF with DEC_HDR pending (log 11, log 12). -/
def State.withFetchWord (s : State) (nbits w : Nat) : State :=
  if nbits = 32 then s.placeCommand (unitFor (BitVec.ofNat 32 w)) (BitVec.ofNat 32 w)
  else s.placeWireBytes (tableBytes nbits w)

end Sys2Proof.Machine
end

