-- ==== Sys2Proof/Safety.lean ====
section
/-! DEFINITION. What counts as a good state and a safe run of the block, in the terms statements use: the invariant of
the state (spec/10_state.md R22, R31 to R33, R41, R43, R49, spec/00_scope.md R6), and runs without a model fault
(spec/60_exceptions.md R166). -/

namespace Sys2Proof.Machine

/-- The bounds of the OPEN parameters (00_scope.md R6). -/
abbrev Params.Ok (p : Params) : Prop :=
  (14 ≤ p.rxbufSize ∧ p.rxbufSize ≤ 2 ^ 28) ∧ (14 ≤ p.txbufSize ∧ p.txbufSize ≤ 2 ^ 28) ∧
    (2 ≤ p.cbufSize ∧ p.cbufSize ≤ 2 ^ 27)

/-- The UTF-8 state invariant: the empty state, or a sequence in progress whose CP holds the payload bits so far
(10_state.md R43). -/
abbrev Utf8State.Inv (u : Utf8State) : Prop :=
  (u.rem = 0#2 ∧ u.cp = 0#21 ∧ u.seqLen = 0#3) ∨
    ((2 ≤ u.seqLen.toNat ∧ u.seqLen.toNat ≤ 4) ∧ (1 ≤ u.rem.toNat ∧ u.rem.toNat ≤ u.seqLen.toNat - 1) ∧
      u.cp.toNat < 2 ^ (7 - u.seqLen.toNat + 6 * (u.seqLen.toNat - 1 - u.rem.toNat)))

/-- BUSY and DONE are never 1 together (10_state.md R22). -/
abbrev UnitStatus.Inv (u : UnitStatus) : Prop := ¬ (u.busy = true ∧ u.done = true)

/-- RX_HSIZE, RX_NEED, RX_PLEN, RX_PAYOFF and RX_FSIZE are the results of a DEC_HDR that was not OK, or of one that was
(10_state.md R31 to R33). -/
abbrev RxUnit.HeaderResults (p : Params) (rx : RxUnit) : Prop :=
  (rx.need.toNat = 0 ∨ rx.need.toNat = 2 ∨ rx.need.toNat = 4 ∨ rx.need.toNat = 10) ∧
    ((rx.hsize = 0#32 ∧ rx.plen = 0#64 ∧ rx.payOff = 0#32 ∧ rx.fsize = 0#64) ∨
      ((rx.hsize.toNat = 2 ∨ rx.hsize.toNat = 4 ∨ rx.hsize.toNat = 10) ∧ rx.need = rx.hsize ∧ rx.plen.toNat < 2 ^ 63 ∧
        rx.fsize.toNat = rx.hsize.toNat + rx.plen.toNat ∧ rx.payOff.toNat ≤ p.rxbufSize))

/-- RX_HDR.CTRL is 1 exactly for a control opcode (10_state.md R30). -/
abbrev RxHdr.Inv (h : RxHdr) : Prop := h.ctrl = isControl h.opcode

/-- TX_HSIZE, TX_KEYOUT and TX_FSIZE are all 0, or describe a frame that fits TXBUF, with key 0 exactly for an empty
payload (10_state.md R40, R41). -/
abbrev TxUnit.FrameResults (p : Params) (tx : TxUnit) : Prop :=
  (tx.hsize = 0#32 ∧ tx.keyOut = 0#32 ∧ tx.fsize = 0#32) ∨
    (tx.hsize.toNat = clientHeaderSize (tx.fsize.toNat - tx.hsize.toNat) ∧ tx.hsize.toNat ≤ tx.fsize.toNat ∧
      tx.fsize.toNat ≤ p.txbufSize ∧ (tx.keyOut = 0#32 ↔ tx.fsize = tx.hsize))

/-- The invariant of the block. -/
structure State.Inv (s : State) : Prop where
  /-- The sizes are within their bounds (00_scope.md R6). -/
  params : s.params.Ok
  /-- RX_STATUS (10_state.md R22). -/
  rxStatus : s.rx.status.Inv
  /-- TX_STATUS (10_state.md R22). -/
  txStatus : s.tx.status.Inv
  /-- RX_HDR (10_state.md R30). -/
  rxHdr : s.rx.hdr.Inv
  /-- DEC_HDR's result registers (10_state.md R31 to R33). -/
  rxResults : s.rx.HeaderResults s.params
  /-- RX_UTF (10_state.md R43). -/
  rxUtf : s.rx.utf.Inv
  /-- ENC_FRAME's result registers (10_state.md R41). -/
  txResults : s.tx.FrameResults s.params
  /-- RXBUF has its canonical form and no element outside its size (20_memory.md R50). -/
  rxbuf : s.rxbuf.wf = true ∧ s.rxbuf.within s.params.rxbufSize = true
  /-- TXBUF has its canonical form and no element outside its size (20_memory.md R50). -/
  txbuf : s.txbuf.wf = true ∧ s.txbuf.within s.params.txbufSize = true
  /-- CBUF has its canonical form and no element outside its size (20_memory.md R50). -/
  cbuf : s.cbuf.wf = true ∧ s.cbuf.within s.params.cbufSize = true

/-- A run of `k` steps that meets no model fault and no refusal. -/
def SafeRun (k : Nat) (s : State) : Prop := ∃ t, Sys2Proof.core.run k s = .next t

/-- The state a run is left in by one step: the next state, or the state with the model fault recorded
(10_state.md R49, 60_exceptions.md R166). -/
def State.afterStep (s : State) : State :=
  match step s with
  | .next t => t
  | .fault r => s.raise r
  | .refused _ => s

end Sys2Proof.Machine
end

