-- ==== Sys2Proof/Certificates/Slice0/Obligations.lean ====
section
/-! DEFINITION. The statements about the block, for the provers. Each docstring names the rule of spec/ it formalises.
The few names defined before them are the spec's own tables and layouts, written out for the statements. -/

open Sys2Proof Sys2Proof.Machine

namespace Sys2Proof.Machine

/-- The six wire instructions: `i` is the FRAME_ instruction with opcode `opcode` and fields `f` (30_encoding.md R75). -/
def IsWireFrame (opcode : BitVec 4) (f : FrameFields) (i : Instr) : Prop :=
  (opcode = 0x0#4 ∧ i = .frameContinuation f) ∨ (opcode = 0x1#4 ∧ i = .frameText f) ∨
    (opcode = 0x2#4 ∧ i = .frameBinary f) ∨ (opcode = 0x8#4 ∧ i = .frameClose f) ∨
    (opcode = 0x9#4 ∧ i = .framePing f) ∨ (opcode = 0xA#4 ∧ i = .framePong f)

/-- The state a DEC_HDR leaves that did not accept a header: the code, RX_HDR and RX_NEED as given, the other result
registers 0, everything else as before (40_frame_codec.md R100, R101). -/
def headerReport (code : StatusCode) (hdr : RxHdr) (need : Nat) (s : State) : State :=
  { s with rx := { s.rx with
      status := UnitStatus.finished code, hdr := hdr, need := BitVec.ofNat 32 need,
      hsize := 0#32, plen := 0#64, payOff := 0#32, fsize := 0#64 } }

/-- The state a DEC_HDR leaves that accepted a header of `hs` bytes with payload length `plen`
(40_frame_codec.md R101). -/
def headerAccepted (hdr : RxHdr) (hs plen : Nat) (s : State) : State :=
  { s with rx := { s.rx with
      status := UnitStatus.finished .ok, hdr := hdr, need := BitVec.ofNat 32 hs,
      hsize := BitVec.ofNat 32 hs, plen := BitVec.ofNat 64 plen,
      payOff := BitVec.ofNat 32 (s.rx.off.toNat + hs), fsize := BitVec.ofNat 64 (hs + plen) } }

/-- Every register of RXU that no DEC_HDR and no wire header writes is as before. -/
def SameBesideHeader (s t : State) : Prop :=
  t.rx.rsvAllow = s.rx.rsvAllow ∧ t.rx.utfStrict = s.rx.utfStrict ∧ t.rx.maxLenLo = s.rx.maxLenLo ∧
    t.rx.maxLenHi = s.rx.maxLenHi ∧ t.rx.off = s.rx.off ∧ t.rx.len = s.rx.len ∧ t.rx.coff = s.rx.coff ∧
    t.rx.ccap = s.rx.ccap ∧ t.rx.consumed = s.rx.consumed ∧ t.rx.produced = s.rx.produced ∧ t.rx.utf = s.rx.utf

/-- Every register of RXU that no UTF-8 command writes is as before. -/
def SameBesideDecode (s t : State) : Prop :=
  t.rx.rsvAllow = s.rx.rsvAllow ∧ t.rx.utfStrict = s.rx.utfStrict ∧ t.rx.maxLenLo = s.rx.maxLenLo ∧
    t.rx.maxLenHi = s.rx.maxLenHi ∧ t.rx.off = s.rx.off ∧ t.rx.len = s.rx.len ∧ t.rx.coff = s.rx.coff ∧
    t.rx.ccap = s.rx.ccap ∧ t.rx.hdr = s.rx.hdr ∧ t.rx.hsize = s.rx.hsize ∧ t.rx.need = s.rx.need ∧
    t.rx.plen = s.rx.plen ∧ t.rx.payOff = s.rx.payOff ∧ t.rx.fsize = s.rx.fsize

/-- Every operand and configuration register of TXU is as before. -/
def SameTxOperands (s t : State) : Prop :=
  t.tx.rsvAllow = s.tx.rsvAllow ∧ t.tx.ctl = s.tx.ctl ∧ t.tx.src = s.tx.src ∧ t.tx.dst = s.tx.dst ∧
    t.tx.len = s.tx.len ∧ t.tx.key = s.tx.key ∧ t.tx.phase = s.tx.phase

/-- What no command touches: the sizes, the fault record, the inputs and the host port's last value. -/
def SameSurroundings (s t : State) : Prop :=
  t.params = s.params ∧ t.faultRecord = s.faultRecord ∧ t.inputs = s.inputs ∧ t.lastRead = s.lastRead

/-- The UTF-8 byte sequence of a codepoint, in the patterns of 41_utf8_validator.md R130 (general knowledge G4). -/
def utf8Bytes (c : Nat) : List Byte :=
  if c ≤ 0x7F then [BitVec.ofNat 8 c]
  else if c ≤ 0x7FF then [BitVec.ofNat 8 (0xC0 + c / 64), BitVec.ofNat 8 (0x80 + c % 64)]
  else if c ≤ 0xFFFF then
    [BitVec.ofNat 8 (0xE0 + c / 4096), BitVec.ofNat 8 (0x80 + c / 64 % 64), BitVec.ofNat 8 (0x80 + c % 64)]
  else
    [BitVec.ofNat 8 (0xF0 + c / 262144), BitVec.ofNat 8 (0x80 + c / 4096 % 64), BitVec.ofNat 8 (0x80 + c / 64 % 64),
      BitVec.ofNat 8 (0x80 + c % 64)]

/-- A continuation byte, `10xxxxxx` (41_utf8_validator.md R130). -/
def IsContinuation (b : Byte) : Prop := 0x80 ≤ b.toNat ∧ b.toNat ≤ 0xBF

/-- The byte string ends in UTF_BAD_CP at its byte `i` and emits nothing (41_utf8_validator.md R133). -/
def EndsInBadCodepoint (strict : Bool) (bs : List Byte) (i : Nat) : Prop :=
  utf8Fold strict bs 0 [] Utf8State.empty = { units := [], utf := Utf8State.empty, error := some (i, .utfBadCp) }

/-- The legal host accesses: the register offsets of 10_state.md R23 as aligned 32-bit words, RXBUF and TXBUF bytes,
CBUF units at even addresses (20_memory.md R52, R53). -/
def LegalAccess (p : Params) (width addr : Nat) : Prop :=
  (width = 32 ∧ addr % 4 = 0 ∧ (addr ≤ 0x04C ∨ (0x100 ≤ addr ∧ addr ≤ 0x12C))) ∨
    (width = 8 ∧ ∃ i < p.rxbufSize, addr = 0x10000000 + i) ∨
    (width = 8 ∧ ∃ i < p.txbufSize, addr = 0x20000000 + i) ∨
    (width = 16 ∧ ∃ i < p.cbufSize, addr = 0x30000000 + 2 * i)

/-- The register map of 10_state.md R23: offset, register, access kind and unit, row by row. -/
def registerMap : List (Nat × Reg × AccessKind × UnitId) :=
  [(0x000, .rxCmd, .wo, .rxu), (0x004, .rxStatus, .ro, .rxu), (0x008, .rxCfg, .rw, .rxu), (0x00C, .rxMaxLenLo, .rw, .rxu),
    (0x010, .rxMaxLenHi, .rw, .rxu), (0x014, .rxOff, .rw, .rxu), (0x018, .rxLen, .rw, .rxu), (0x01C, .rxCoff, .rw, .rxu)] ++
  [(0x020, .rxCcap, .rw, .rxu), (0x024, .rxHdr, .ro, .rxu), (0x028, .rxHsize, .ro, .rxu), (0x02C, .rxNeed, .ro, .rxu),
    (0x030, .rxPlenLo, .ro, .rxu), (0x034, .rxPlenHi, .ro, .rxu), (0x038, .rxPayOff, .ro, .rxu),
    (0x03C, .rxFsizeLo, .ro, .rxu)] ++
  [(0x040, .rxFsizeHi, .ro, .rxu), (0x044, .rxConsumed, .ro, .rxu), (0x048, .rxProduced, .ro, .rxu),
    (0x04C, .rxUtf, .ro, .rxu)] ++
  [(0x100, .txCmd, .wo, .txu), (0x104, .txStatus, .ro, .txu), (0x108, .txCfg, .rw, .txu), (0x10C, .txCtl, .rw, .txu),
    (0x110, .txSrc, .rw, .txu), (0x114, .txDst, .rw, .txu), (0x118, .txLen, .rw, .txu), (0x11C, .txKey, .rw, .txu)] ++
  [(0x120, .txPhase, .rw, .txu), (0x124, .txHsize, .ro, .txu), (0x128, .txKeyOut, .ro, .txu), (0x12C, .txFsize, .ro, .txu)]

/-- The codes each instruction may finish with (60_exceptions.md R160, column "raised by"). -/
def codesOf : Instr → List StatusCode
  | .encFrame => [.ok, .protoRsv, .protoOpcode, .protoCtrlFrag, .protoCtrlLen, .useRange]
  | .xorMask => [.ok, .useRange]
  | .utfReset => [.ok]
  | .utfDecode => [.ok, .utfBadLead, .utfBadCont, .utfBadCp, .useRange]
  | .utfDecodeE => [.ok, .outFull, .utfBadLead, .utfBadCont, .utfBadCp, .useRange]
  | .utfFinish => [.ok, .utfIncomplete]
  | .decHdr | .frameContinuation _ | .frameText _ | .frameBinary _ | .frameClose _ | .framePing _ | .framePong _ =>
    [.ok, .needMore, .protoRsv, .protoOpcode, .protoMasked, .protoLen64, .protoCtrlFrag, .protoCtrlLen, .resTooLarge,
      .useRange]

end Sys2Proof.Machine

/-! ### Encoding -/

/-- 30_encoding.md R86: the words a unit's command register takes are the seven of the table, each for its unit. -/
def Obligations.CommandWordsAreExactlyTheTable : Prop :=
  ∀ (u : UnitId) (w : Word) (i : Instr), decodeCommand u w = .ok i ↔
    (u = .rxu ∧ w = 0x00000001#32 ∧ i = .decHdr) ∨ (u = .txu ∧ w = 0x00000002#32 ∧ i = .encFrame) ∨
    (u = .txu ∧ w = 0x00000003#32 ∧ i = .xorMask) ∨ (u = .rxu ∧ w = 0x00000004#32 ∧ i = .utfReset) ∨
    (u = .rxu ∧ w = 0x00000005#32 ∧ i = .utfDecode) ∨ (u = .rxu ∧ w = 0x00000015#32 ∧ i = .utfDecodeE) ∨
    (u = .rxu ∧ w = 0x00000006#32 ∧ i = .utfFinish)

/-- Words and wire bytes written out from 95_test_vectors.md (W4, U46, DH1, DH7, DH8, DH18, E1, E3) decode to the
instructions they stand for, and the opcodes fall into the classes of 30_encoding.md R76. -/
def Obligations.WordsOfTheSpecDecode : Prop :=
  decodeCommand .rxu 0x00000015#32 = .ok .utfDecodeE ∧ decodeCommand .txu 0x00000003#32 = .ok .xorMask ∧
  decodeCommand .rxu 0x00000003#32 = .error .otherUnit ∧
  decodeFrame [0x81#8, 0x05#8, 0x48#8, 0x65#8] =
    .ok (.frameText { fin := true, rsv := 0#3, len := .len7 5#7, key := none }, [0x48#8, 0x65#8]) ∧
  decodeFrame [0x89#8, 0x7E#8, 0x00#8, 0x7D#8] =
    .ok (.framePing { fin := true, rsv := 0#3, len := .ext16 125#16, key := none }, []) ∧
  decodeFrame [0x88#8, 0x02#8, 0x03#8, 0xE8#8] =
    .ok (.frameClose { fin := true, rsv := 0#3, len := .len7 2#7, key := none }, [0x03#8, 0xE8#8]) ∧
  decodeFrame [0x82#8, 0x7E#8, 0x01#8, 0x00#8] =
    .ok (.frameBinary { fin := true, rsv := 0#3, len := .ext16 256#16, key := none }, []) ∧
  decodeFrame [0x8A#8, 0x80#8, 0x00#8, 0x00#8, 0x00#8, 0x00#8] =
    .ok (.framePong { fin := true, rsv := 0#3, len := .len7 0#7, key := some 0#32 }, []) ∧
  decodeFrame [0x80#8, 0x83#8, 0x37#8, 0xFA#8, 0x21#8, 0x3D#8] =
    .ok (.frameContinuation { fin := true, rsv := 0#3, len := .len7 3#7, key := some 0x37FA213D#32 }, []) ∧
  (∀ opcode : BitVec 4,
    (recognized opcode = true ↔ opcode ∈ [0x0#4, 0x1#4, 0x2#4, 0x8#4, 0x9#4, 0xA#4]) ∧
    (isControl opcode = true ↔ opcode ∈ [0x8#4, 0x9#4, 0xA#4]))

/-- Decoding the encoding of any well-formed instruction gives it back (30_encoding.md R70 to R73, R75, R79, R86). -/
def Obligations.DecodeEncodeRoundTrip : Prop :=
  ∀ i : Instr, i.wf = true → decode (encode i) = .ok i

/-- A decoded wire header is well formed and is encoded by exactly the bytes it was read from (30_encoding.md R79). -/
def Obligations.DecodedHeaderReencodes : Prop :=
  ∀ (bs rest : List Byte) (i : Instr), decodeFrame bs = .ok (i, rest) →
    i.wf = true ∧ ∃ hdr, encode i = .wire hdr ∧ bs = hdr ++ rest

/-- 30_encoding.md R81, the round-trip law of ParseHeader and EncodeHeader. -/
def Obligations.ParseHeaderReadsEncodeHeader : Prop :=
  ∀ (fin : Bool) (rsv : BitVec 3) (opcode : BitVec 4) (len : Nat) (key : Word) (rest : List Byte), len < 2 ^ 63 →
    parseHeader (encodeHeader fin rsv opcode len key ++ rest) =
      .header { fin := fin, rsv := rsv, opcode := opcode, mask := true, len7 := (shortestLen len).len7Bits, plen := len,
                key := key, hsize := 6 + (shortestLen len).extBytes.length }

/-- 30_encoding.md R74 and R80: EncodeHeader's bytes as values, with the three length tiers, and its length. -/
def Obligations.EncodeHeaderLayout : Prop :=
  ∀ (fin : Bool) (rsv : BitVec 3) (opcode : BitVec 4) (len : Nat) (key : Word), len < 2 ^ 63 →
    ∃ (b0 b1 : Byte) (ext mask : List Byte),
      encodeHeader fin rsv opcode len key = [b0, b1] ++ ext ++ mask ∧
      b0.toNat = fin.toNat * 128 + rsv.toNat * 16 + opcode.toNat ∧
      b1.toNat = 128 + (if len ≤ 125 then len else if len ≤ 65535 then 126 else 127) ∧
      ext.length = (if len ≤ 125 then 0 else if len ≤ 65535 then 2 else 8) ∧
      (125 < len → beValue ext = len) ∧
      mask.length = 4 ∧ beValue mask = key.toNat ∧
      ((encodeHeader fin rsv opcode len key).length = 6 ∨ (encodeHeader fin rsv opcode len key).length = 8 ∨
        (encodeHeader fin rsv opcode len key).length = 14)

/-- ParseHeader reads the header and no byte after it, and asks for bytes only while the header is incomplete
(30_encoding.md R77, R79). -/
def Obligations.ParseHeaderReadsOnlyTheHeader : Prop :=
  ∀ bs : List Byte,
    (∀ h, parseHeader bs = .header h →
      h.hsize = 2 + extSize h.len7 + (if h.mask then 4 else 0) ∧ h.hsize ≤ bs.length ∧ h.plen < 2 ^ 64 ∧
      ∀ more, parseHeader (bs.take h.hsize ++ more) = .header h) ∧
    (∀ n, parseHeader bs = .needMore n →
      bs.length < n ∧ (n = 2 ∨ n = 4 ∨ n = 10 ∨ n = 6 ∨ n = 8 ∨ n = 14))

/-! ### DEC_HDR and the wire headers -/

/-- 40_frame_codec.md R101, the whole rule: for the bytes DEC_HDR reads, the code of the first failing check, RX_HDR,
RX_NEED and the results; a header byte never written raises UNINIT_READ. -/
def Obligations.DecHdrFollowsItsPseudocode : Prop :=
  encode .decHdr = .command .rxu 0x00000001#32 ∧
  ∀ s : State,
    (s.params.rxbufSize < s.rx.off.toNat + s.rx.len.toNat →
      exec .decHdr s = .next (headerReport .useRange RxHdr.zero 0 s)) ∧
    (s.rx.off.toNat + s.rx.len.toNat ≤ s.params.rxbufSize → s.rx.len.toNat < 2 →
      exec .decHdr s = .next (headerReport .needMore RxHdr.zero 2 s)) ∧
    (s.rx.off.toNat + s.rx.len.toNat ≤ s.params.rxbufSize → 2 ≤ s.rx.len.toNat →
      (s.rxbuf.read s.rx.off.toNat = none → exec .decHdr s = .fault (.uninitRead .rxbuf s.rx.off.toNat)) ∧
      (∀ b0, s.rxbuf.read s.rx.off.toNat = some b0 → s.rxbuf.read (s.rx.off.toNat + 1) = none →
        exec .decHdr s = .fault (.uninitRead .rxbuf (s.rx.off.toNat + 1))) ∧
      (∀ b0 b1, s.rxbuf.read s.rx.off.toNat = some b0 → s.rxbuf.read (s.rx.off.toNat + 1) = some b1 →
        let hdr : RxHdr := { opcode := b0.extractLsb' 0 4, rsv := b0.extractLsb' 4 3, fin := b0.getLsbD 7,
                             len7 := b1.extractLsb' 0 7, mask := b1.getLsbD 7, ctrl := isControl (b0.extractLsb' 0 4) }
        let e := if hdr.len7.toNat ≤ 125 then 0 else if hdr.len7.toNat = 126 then 2 else 8
        let report := fun code => exec .decHdr s = .next (headerReport code hdr (2 + e) s)
        if hdr.rsv &&& ~~~s.rx.rsvAllow ≠ 0#3 then report .protoRsv
        else if recognized hdr.opcode = false then report .protoOpcode
        else if hdr.mask = true then report .protoMasked
        else if isControl hdr.opcode = true ∧ hdr.fin = false then report .protoCtrlFrag
        else if s.rx.len.toNat < 2 + e then report .needMore
        else
          (∀ j, s.rxbuf.readRange (s.rx.off.toNat + 2) e = .error j → exec .decHdr s = .fault (.uninitRead .rxbuf j)) ∧
          (∀ ext, s.rxbuf.readRange (s.rx.off.toNat + 2) e = .ok ext →
            let plen := if e = 0 then hdr.len7.toNat else beValue ext
            if e = 8 ∧ 2 ^ 63 ≤ plen then report .protoLen64
            else if isControl hdr.opcode = true ∧ 125 < plen then report .protoCtrlLen
            else if (s.rx.maxLenHi ++ s.rx.maxLenLo).toNat < plen then report .resTooLarge
            else exec .decHdr s = .next (headerAccepted hdr (2 + e) plen s))))

/-- DEC_HDR accepts what ParseHeader reads and 30_encoding.md R83 allows: the completion of DEC_HDR, for any number `k`
of the available bytes that holds the header (30_encoding.md R79, 40_frame_codec.md R101). -/
def Obligations.DecHdrAcceptsLegalHeader : Prop :=
  ∀ (s : State) (k : Nat) (bs : List Byte) (h : Header),
    s.rx.off.toNat + s.rx.len.toNat ≤ s.params.rxbufSize → k ≤ s.rx.len.toNat →
    s.rxbuf.readRange s.rx.off.toNat k = .ok bs → parseHeader bs = .header h →
    h.rsv &&& ~~~s.rx.rsvAllow = 0#3 → recognized h.opcode = true → h.mask = false →
    (isControl h.opcode = true → h.fin = true ∧ h.plen ≤ 125) → h.plen < 2 ^ 63 →
    h.plen ≤ (s.rx.maxLenHi ++ s.rx.maxLenLo).toNat →
    exec .decHdr s = .next (headerAccepted
      { opcode := h.opcode, rsv := h.rsv, fin := h.fin, len7 := h.len7, mask := false, ctrl := isControl h.opcode }
      h.hsize h.plen s)

/-- DEC_HDR on a window of RXBUF that holds a wire header is the meaning of that FRAME_ instruction: the model's reading
of the wire opcode rows (log 10). -/
def Obligations.DecHdrRunsTheWireFrame : Prop :=
  ∀ (i : Instr) (bs : List Byte) (s : State), i.wf = true → encode i = .wire bs →
    s.rxbuf.readRange s.rx.off.toNat bs.length = .ok bs → exec .decHdr s = exec i s

/-- A legal unmasked wire header of any of the six opcodes is accepted: the completion of FRAME_CONTINUATION, FRAME_TEXT,
FRAME_BINARY, FRAME_CLOSE, FRAME_PING and FRAME_PONG (30_encoding.md R82, R83, 40_frame_codec.md R101). -/
def Obligations.WireFrameAccepted : Prop :=
  ∀ (opcode : BitVec 4) (f : FrameFields) (i : Instr) (s : State), IsWireFrame opcode f i → f.wf = true →
    s.rx.off.toNat + s.rx.len.toNat ≤ s.params.rxbufSize → 2 + extSize f.len.len7Bits ≤ s.rx.len.toNat →
    f.rsv &&& ~~~s.rx.rsvAllow = 0#3 → f.key = none →
    (isControl opcode = true → f.fin = true ∧ f.len.value ≤ 125) → f.len.value < 2 ^ 63 →
    f.len.value ≤ (s.rx.maxLenHi ++ s.rx.maxLenLo).toNat →
    exec i s = .next (headerAccepted
      { opcode := opcode, rsv := f.rsv, fin := f.fin, len7 := f.len.len7Bits, mask := false, ctrl := isControl opcode }
      (2 + extSize f.len.len7Bits) f.len.value s)

/-- The outcomes of the six wire instructions that do not accept, each with the code of the first failing check of
60_exceptions.md R161: the window, the bytes available and the header checks of 30_encoding.md R82 (40_frame_codec.md
R101). That the wire opcode rows have this meaning is the model's reading, log 10 (DEDUCED). -/
def Obligations.WireFrameRefused : Prop :=
  ∀ (opcode : BitVec 4) (f : FrameFields) (i : Instr) (s : State), IsWireFrame opcode f i → f.wf = true →
    let report := fun code => exec i s = .next (headerReport code
      { opcode := opcode, rsv := f.rsv, fin := f.fin, len7 := f.len.len7Bits, mask := f.key.isSome,
        ctrl := isControl opcode } (2 + extSize f.len.len7Bits) s)
    if s.params.rxbufSize < s.rx.off.toNat + s.rx.len.toNat then
      exec i s = .next (headerReport .useRange RxHdr.zero 0 s)
    else if s.rx.len.toNat < 2 then exec i s = .next (headerReport .needMore RxHdr.zero 2 s)
    else if f.rsv &&& ~~~s.rx.rsvAllow ≠ 0#3 then report .protoRsv
    else if f.key.isSome = true then report .protoMasked
    else if isControl opcode = true ∧ f.fin = false then report .protoCtrlFrag
    else if s.rx.len.toNat < 2 + extSize f.len.len7Bits then report .needMore
    else if 2 ^ 63 ≤ f.len.value then report .protoLen64
    else if isControl opcode = true ∧ 125 < f.len.value then report .protoCtrlLen
    else (s.rx.maxLenHi ++ s.rx.maxLenLo).toNat < f.len.value → report .resTooLarge

/-- The NEED_MORE protocol (40_frame_codec.md R103): RX_NEED says more than RX_LEN, and a NEED_MORE that follows one whose
RX_NEED the host satisfied is the second and last, with RX_NEED first 2 and then 4 or 10. -/
def Obligations.NeedMoreAtMostTwice : Prop :=
  ∀ s t : State, exec .decHdr s = .next t → t.rx.status.code = .needMore →
    s.rx.len.toNat < t.rx.need.toNat ∧ (t.rx.need = 2#32 ∨ t.rx.need = 4#32 ∨ t.rx.need = 10#32) ∧
    ∀ s' t' : State, s'.rx.off = s.rx.off → s'.rx.rsvAllow = s.rx.rsvAllow →
      (∀ k < s.rx.len.toNat, s'.rxbuf.read (s.rx.off.toNat + k) = s.rxbuf.read (s.rx.off.toNat + k)) →
      t.rx.need.toNat ≤ s'.rx.len.toNat → exec .decHdr s' = .next t' → t'.rx.status.code = .needMore →
      t.rx.need = 2#32 ∧ (t'.rx.need = 4#32 ∨ t'.rx.need = 10#32)

/-- The frame of DEC_HDR and of the six wire headers: they write RX_STATUS and DEC_HDR's result registers only
(30_encoding.md R88, 40_frame_codec.md R101). The clauses about the wire headers rest on log 10 (DEDUCED), and the fields
beside the spec's own are the model's (log 1, log 2, log 3, log 14). -/
def Obligations.HeaderCommandsFrame : Prop :=
  ∀ (i : Instr) (s t : State), (i = .decHdr ∨ ∃ opcode f, IsWireFrame opcode f i) → exec i s = .next t →
    SameBesideHeader s t ∧ t.tx = s.tx ∧ SameSurroundings s t ∧ t.draws = s.draws ∧
    (∀ a, t.rxbuf.read a = s.rxbuf.read a) ∧ (∀ a, t.txbuf.read a = s.txbuf.read a) ∧
    (∀ a, t.cbuf.read a = s.cbuf.read a)

/-- The frame invariant of 30_encoding.md R83, of every frame DEC_HDR accepts and every frame ENC_FRAME writes. That it
also holds of what the six wire instructions accept rests on the model's reading of those rows, log 10 (DEDUCED). -/
def Obligations.AcceptedFramesAreLegal : Prop :=
  (∀ (i : Instr) (s t : State), (i = .decHdr ∨ ∃ opcode f, IsWireFrame opcode f i) → exec i s = .next t →
    t.rx.status.code = .ok →
    recognized t.rx.hdr.opcode = true ∧ t.rx.hdr.rsv &&& ~~~s.rx.rsvAllow = 0#3 ∧
    (isControl t.rx.hdr.opcode = true → t.rx.hdr.fin = true ∧ t.rx.plen.toNat ≤ 125) ∧
    t.rx.hdr.mask = false ∧ t.rx.plen.toNat < 2 ^ 63 ∧ t.rx.plen.toNat ≤ (s.rx.maxLenHi ++ s.rx.maxLenLo).toNat) ∧
  (∀ s t : State, exec .encFrame s = .next t → t.tx.status.code = .ok →
    ∃ (rest : List Byte) (h : Header), t.txbuf.readRange s.tx.dst.toNat (t.tx.hsize.toNat) = .ok rest ∧
      parseHeader rest = .header h ∧
      recognized h.opcode = true ∧ h.rsv &&& ~~~s.tx.rsvAllow = 0#3 ∧
      (isControl h.opcode = true → h.fin = true ∧ h.plen ≤ 125) ∧ h.mask = true)

/-! ### ENC_FRAME -/

/-- The completion and result of ENC_FRAME (40_frame_codec.md R106, 10_state.md R40, R41): the whole payload is read
first, then header and masked payload are written; the key is 0 for an empty payload and otherwise some non-zero draw.
The draw counter is the model's own (log 2). -/
def Obligations.EncFrameWritesMaskedFrame : Prop :=
  ∀ (s : State) (payload : List Byte),
    let len := s.tx.len.toNat
    let hs := if len ≤ 125 then 6 else if len ≤ 65535 then 8 else 14
    s.tx.src.toNat + len ≤ s.params.txbufSize → s.tx.dst.toNat + hs + len ≤ s.params.txbufSize →
    s.tx.ctl.rsv &&& ~~~s.tx.rsvAllow = 0#3 → recognized s.tx.ctl.opcode = true →
    (isControl s.tx.ctl.opcode = true → s.tx.ctl.fin = true ∧ len ≤ 125) →
    s.txbuf.readRange s.tx.src.toNat len = .ok payload →
    ∃ key : Word, (key = 0#32 ↔ len = 0) ∧
      exec .encFrame s = .next { s with
        txbuf := s.txbuf.writeRange s.tx.dst.toNat
          (encodeHeader s.tx.ctl.fin s.tx.ctl.rsv s.tx.ctl.opcode len key ++
            payload.mapIdx fun i b => b ^^^ keyByte key (i % 4))
        draws := s.draws + (if len = 0 then 0 else 1)
        tx := { s.tx with status := UnitStatus.finished .ok, hsize := BitVec.ofNat 32 hs, keyOut := key,
                          fsize := BitVec.ofNat 32 (hs + len) } }

/-- ENC_FRAME's refusals in the order of 60_exceptions.md R161, each leaving TXBUF, the key source and all but TX_STATUS
and the cleared results as they were; a payload byte never written raises UNINIT_READ (40_frame_codec.md R106). -/
def Obligations.EncFrameRefusesIllegalFrame : Prop :=
  ∀ s : State,
    let len := s.tx.len.toNat
    let hs := if len ≤ 125 then 6 else if len ≤ 65535 then 8 else 14
    let report := fun code => exec .encFrame s = .next { s with
      tx := { s.tx with status := UnitStatus.finished code, hsize := 0#32, keyOut := 0#32, fsize := 0#32 } }
    if s.params.txbufSize < s.tx.src.toNat + len ∨ s.params.txbufSize < s.tx.dst.toNat + hs + len then report .useRange
    else if s.tx.ctl.rsv &&& ~~~s.tx.rsvAllow ≠ 0#3 then report .protoRsv
    else if recognized s.tx.ctl.opcode = false then report .protoOpcode
    else if isControl s.tx.ctl.opcode = true ∧ s.tx.ctl.fin = false then report .protoCtrlFrag
    else if isControl s.tx.ctl.opcode = true ∧ 125 < len then report .protoCtrlLen
    else ∀ j, s.txbuf.readRange s.tx.src.toNat len = .error j → exec .encFrame s = .fault (.uninitRead .txbuf j)

/-- 40_frame_codec.md R107: ENC_FRAME writes a frame ParseHeader parses back, and unmasking its payload with the key
written gives the payload back. -/
def Obligations.EncFrameParsesBack : Prop :=
  ∀ s t : State, exec .encFrame s = .next t → t.tx.status.code = .ok →
    ∃ payload frame : List Byte,
      s.txbuf.readRange s.tx.src.toNat s.tx.len.toNat = .ok payload ∧
      t.txbuf.readRange s.tx.dst.toNat (clientHeaderSize s.tx.len.toNat + s.tx.len.toNat) = .ok frame ∧
      parseHeader frame = .header
        { fin := s.tx.ctl.fin, rsv := s.tx.ctl.rsv, opcode := s.tx.ctl.opcode, mask := true,
          len7 := (shortestLen s.tx.len.toNat).len7Bits, plen := s.tx.len.toNat, key := t.tx.keyOut,
          hsize := clientHeaderSize s.tx.len.toNat } ∧
      (frame.drop (clientHeaderSize s.tx.len.toNat)).mapIdx (fun i b => b ^^^ keyByte t.tx.keyOut (i % 4)) = payload

/-- The frame of ENC_FRAME: when it finishes OK, TXBUF changes only in the H + L bytes from TX_DST, and otherwise not at
all; it writes no register but TX_STATUS, TX_HSIZE, TX_KEYOUT and TX_FSIZE (30_encoding.md R88, 40_frame_codec.md R106). -/
def Obligations.EncFrameFrame : Prop :=
  ∀ s t : State, exec .encFrame s = .next t →
    t.rx = s.rx ∧ SameTxOperands s t ∧ SameSurroundings s t ∧
    (∀ a, t.rxbuf.read a = s.rxbuf.read a) ∧ (∀ a, t.cbuf.read a = s.cbuf.read a) ∧
    (t.tx.status.code = .ok →
      ∀ a, (a < s.tx.dst.toNat ∨ s.tx.dst.toNat + clientHeaderSize s.tx.len.toNat + s.tx.len.toNat ≤ a) →
        t.txbuf.read a = s.txbuf.read a) ∧
    (t.tx.status.code ≠ .ok → t.draws = s.draws ∧ ∀ a, t.txbuf.read a = s.txbuf.read a)

/-- 40_frame_codec.md R114: ENC_FRAME's payload bytes are those of copying the payload to TX_DST + H and running XOR_MASK
there with the key written, at phase 0. -/
def Obligations.EncFrameMasksLikeXorMask : Prop :=
  ∀ (s t : State) (payload : List Byte), s.params.Ok → exec .encFrame s = .next t → t.tx.status.code = .ok →
    s.txbuf.readRange s.tx.src.toNat s.tx.len.toNat = .ok payload →
    ∃ u : State,
      exec .xorMask { s with
        txbuf := s.txbuf.writeRange (s.tx.dst.toNat + clientHeaderSize s.tx.len.toNat) payload
        tx := { s.tx with dst := BitVec.ofNat 32 (s.tx.dst.toNat + clientHeaderSize s.tx.len.toNat),
                          key := t.tx.keyOut, phase := 0#2 } } = .next u ∧
      u.tx.status.code = .ok ∧
      ∀ i < s.tx.len.toNat, t.txbuf.read (s.tx.dst.toNat + clientHeaderSize s.tx.len.toNat + i) =
        u.txbuf.read (s.tx.dst.toNat + clientHeaderSize s.tx.len.toNat + i)

/-! ### XOR_MASK -/

/-- 40_frame_codec.md R111, the whole rule, and the completion of XOR_MASK: each byte is XORed with its key byte, every
other byte and register stays; a range that does not fit is refused with nothing written; a byte never written raises
UNINIT_READ. -/
def Obligations.XorMaskMasksEachByte : Prop :=
  encode .xorMask = .command .txu 0x00000003#32 ∧
  ∀ s : State,
    (s.params.txbufSize < s.tx.dst.toNat + s.tx.len.toNat →
      exec .xorMask s = .next { s with tx := { s.tx with status := UnitStatus.finished .useRange } }) ∧
    (s.tx.dst.toNat + s.tx.len.toNat ≤ s.params.txbufSize →
      (∀ j, s.txbuf.readRange s.tx.dst.toNat s.tx.len.toNat = .error j →
        exec .xorMask s = .fault (.uninitRead .txbuf j)) ∧
      ((∀ i < s.tx.len.toNat, (s.txbuf.read (s.tx.dst.toNat + i)).isSome = true) →
        ∃ m, exec .xorMask s = .next { s with txbuf := m, tx := { s.tx with status := UnitStatus.finished .ok } } ∧
          (∀ i < s.tx.len.toNat, ∀ b, s.txbuf.read (s.tx.dst.toNat + i) = some b →
            m.read (s.tx.dst.toNat + i) = some (b ^^^ keyByte s.tx.key ((s.tx.phase.toNat + i) % 4))) ∧
          (∀ a, (a < s.tx.dst.toNat ∨ s.tx.dst.toNat + s.tx.len.toNat ≤ a) → m.read a = s.txbuf.read a)))

/-- 40_frame_codec.md R112: a second XOR_MASK with the same operands and key, with no other write to those bytes between
them, leaves the bytes as they were before the first. -/
def Obligations.XorMaskIsInvolutive : Prop :=
  ∀ s t u : State, exec .xorMask s = .next t → u.params = s.params →
    u.tx.dst = s.tx.dst → u.tx.len = s.tx.len → u.tx.key = s.tx.key → u.tx.phase = s.tx.phase →
    (∀ i < s.tx.len.toNat, u.txbuf.read (s.tx.dst.toNat + i) = t.txbuf.read (s.tx.dst.toNat + i)) →
    ∃ v, exec .xorMask u = .next v ∧
      ∀ i < s.tx.len.toNat, v.txbuf.read (s.tx.dst.toNat + i) = s.txbuf.read (s.tx.dst.toNat + i)

/-- 40_frame_codec.md R113: masking in two pieces, the second at the phase where the first ended, equals masking once;
a byte of a 4-byte lane is XORed with the key byte of its place, and a lane at phase 0 with the key's bytes in order. -/
def Obligations.XorMaskChunksAndLanes : Prop :=
  (∀ (s t u v : State) (n m : Nat), s.tx.dst.toNat + (n + m) ≤ s.params.txbufSize → s.params.Ok →
    exec .xorMask { s with tx := { s.tx with len := BitVec.ofNat 32 n } } = .next t →
    exec .xorMask { t with tx := { t.tx with
      dst := BitVec.ofNat 32 (s.tx.dst.toNat + n), len := BitVec.ofNat 32 m,
      phase := BitVec.ofNat 2 ((s.tx.phase.toNat + n) % 4) } } = .next u →
    exec .xorMask { s with tx := { s.tx with len := BitVec.ofNat 32 (n + m) } } = .next v →
    ∀ a, u.txbuf.read a = v.txbuf.read a) ∧
  (∀ (key : Word) (ph : Nat) (bs : List Byte) (i j : Nat) (b : Byte), j < 4 → bs[i + j]? = some b →
    (maskBytes key ph bs)[i + j]? = some (b ^^^ keyByte key ((ph + i + j) % 4)) ∧
    ((ph + i) % 4 = 0 → ∃ k, (beBytes 4 key.toNat)[j]? = some k ∧ (maskBytes key ph bs)[i + j]? = some (b ^^^ k)))

/-- The frame of XOR_MASK: TXBUF changes only in the TX_LEN bytes from TX_DST, and only when it finishes OK; no register
but TX_STATUS is written (30_encoding.md R88, 40_frame_codec.md R111). -/
def Obligations.XorMaskFrame : Prop :=
  ∀ s t : State, exec .xorMask s = .next t →
    t.rx = s.rx ∧ SameTxOperands s t ∧ t.tx.hsize = s.tx.hsize ∧ t.tx.keyOut = s.tx.keyOut ∧ t.tx.fsize = s.tx.fsize ∧
    SameSurroundings s t ∧ t.draws = s.draws ∧
    (∀ a, t.rxbuf.read a = s.rxbuf.read a) ∧ (∀ a, t.cbuf.read a = s.cbuf.read a) ∧
    (∀ a, (t.tx.status.code ≠ .ok ∨ a < s.tx.dst.toNat ∨ s.tx.dst.toNat + s.tx.len.toNat ≤ a) →
      t.txbuf.read a = s.txbuf.read a)

/-! ### The UTF-8 validator -/

/-- 10_state.md R43: RX_UTF satisfies the state invariant after reset and after every step from a state that does, every
rule of the validator keeps it, CP stays below 2^15, and UTF_RESET, UTF_FINISH and every UTF_DECODE error leave the empty
state. -/
def Obligations.Utf8StateInvariantKept : Prop :=
  State.reset.rx.utf.Inv ∧
  (∀ s t : State, s.rx.utf.Inv → step s = .next t → t.rx.utf.Inv) ∧
  (∀ (u : Utf8State), u.Inv → u.cp.toNat < 2 ^ 15) ∧
  (∀ (u u' : Utf8State) (b : Byte) (strict : Bool), u.Inv → utf8Step u b strict = .pend u' → u'.Inv) ∧
  (∀ (u u' : Utf8State) (b : Byte) (strict : Bool) (us : List CodeUnit), utf8Step u b strict = .emit us u' →
    u' = Utf8State.empty) ∧
  (∀ (i : Instr) (s t : State), s.rx.utf.Inv → exec i s = .next t → t.rx.utf.Inv) ∧
  (∀ (i : Instr) (s t : State), exec i s = .next t →
    (i = .utfReset ∨ i = .utfFinish ∨
      ((i = .utfDecode ∨ i = .utfDecodeE) ∧ (t.rx.status.code = .utfBadLead ∨ t.rx.status.code = .utfBadCont ∨
        t.rx.status.code = .utfBadCp))) →
    t.rx.utf = Utf8State.empty)

/-- 41_utf8_validator.md R133: the classes of leading bytes. -/
def Obligations.LeadingByteClasses : Prop :=
  ∀ (b : Byte) (strict : Bool),
    (b.toNat ≤ 0x7F → utf8Step Utf8State.empty b strict = .emit [b.setWidth 16] Utf8State.empty) ∧
    (0x80 ≤ b.toNat → b.toNat ≤ 0xBF → utf8Step Utf8State.empty b strict = .err .utfBadLead) ∧
    (0xC0 ≤ b.toNat → b.toNat ≤ 0xDF → utf8Step Utf8State.empty b strict =
      .pend { cp := BitVec.ofNat 21 (b.toNat % 32), rem := 1#2, seqLen := 2#3 }) ∧
    (0xE0 ≤ b.toNat → b.toNat ≤ 0xEF → utf8Step Utf8State.empty b strict =
      .pend { cp := BitVec.ofNat 21 (b.toNat % 16), rem := 2#2, seqLen := 3#3 }) ∧
    (0xF0 ≤ b.toNat → b.toNat ≤ 0xF7 → utf8Step Utf8State.empty b strict =
      .pend { cp := BitVec.ofNat 21 (b.toNat % 8), rem := 3#2, seqLen := 4#3 }) ∧
    (0xF8 ≤ b.toNat → utf8Step Utf8State.empty b strict = .err .utfBadLead) ∧
    (∀ c1, IsContinuation c1 → 0xC0 ≤ b.toNat → b.toNat ≤ 0xC1 → EndsInBadCodepoint true [b, c1] 1) ∧
    (∀ c1 c2, IsContinuation c1 → IsContinuation c2 →
      ((b.toNat = 0xE0 ∧ c1.toNat ≤ 0x9F) ∨ (b.toNat = 0xED ∧ 0xA0 ≤ c1.toNat)) →
      EndsInBadCodepoint true [b, c1, c2] 2) ∧
    (∀ c1 c2 c3, IsContinuation c1 → IsContinuation c2 → IsContinuation c3 →
      (b.toNat = 0xF0 ∧ c1.toNat ≤ 0x8F → EndsInBadCodepoint true [b, c1, c2, c3] 3) ∧
      ((b.toNat = 0xF4 ∧ 0x90 ≤ c1.toNat) ∨ (0xF5 ≤ b.toNat ∧ b.toNat ≤ 0xF7) →
        EndsInBadCodepoint strict [b, c1, c2, c3] 3))

/-- The validator decodes the UTF-8 bytes of every codepoint but the surrogates to its code units, strict or not
(41_utf8_validator.md R130 to R132; the byte patterns are general knowledge G4). -/
def Obligations.EveryScalarValueDecodes : Prop :=
  ∀ (c : Nat) (strict : Bool), c ≤ 0x10FFFF → ¬ (0xD800 ≤ c ∧ c ≤ 0xDFFF) →
    utf8Fold strict (utf8Bytes c) 0 [] Utf8State.empty =
      { units := codeUnits c, utf := Utf8State.empty, error := none } ∧
    (if c ≤ 0xFFFF then (codeUnits c).map BitVec.toNat = [c]
     else (codeUnits c).map BitVec.toNat = [0xD800 + (c - 0x10000) / 1024, 0xDC00 + (c - 0x10000) % 1024])

/-- In strict mode a step emits one code unit outside the surrogate range, or a high and a low surrogate
(41_utf8_validator.md R131, R132). -/
def Obligations.StrictUnitsAreUtf16 : Prop :=
  ∀ (u u' : Utf8State) (b : Byte) (us : List CodeUnit), u.Inv → utf8Step u b true = .emit us u' →
    (∃ x, us = [x] ∧ (x.toNat < 0xD800 ∨ 0xDFFF < x.toNat)) ∨
    (∃ hi lo, us = [hi, lo] ∧ 0xD800 ≤ hi.toNat ∧ hi.toNat ≤ 0xDBFF ∧ 0xDC00 ≤ lo.toNat ∧ lo.toNat ≤ 0xDFFF)

/-- The completion and result of UTF_DECODE: it is Fold over the range with an early exit at the first error, with CBUF
untouched (41_utf8_validator.md R136, R137). The bytes after an error need not be written. -/
def Obligations.UtfDecodeIsTheFold : Prop :=
  ∀ (s : State) (k : Nat) (bs : List Byte), s.rx.off.toNat + s.rx.len.toNat ≤ s.params.rxbufSize →
    k ≤ s.rx.len.toNat → s.rxbuf.readRange s.rx.off.toNat k = .ok bs →
    let r := utf8Fold s.rx.utfStrict bs 0 [] s.rx.utf
    (r.error = none → k = s.rx.len.toNat →
      exec .utfDecode s = .next { s with rx := { s.rx with
        status := UnitStatus.finished .ok, consumed := s.rx.len, produced := BitVec.ofNat 32 r.units.length,
        utf := r.utf } }) ∧
    (∀ i code, r.error = some (i, code) →
      exec .utfDecode s = .next { s with rx := { s.rx with
        status := UnitStatus.finished code, consumed := BitVec.ofNat 32 i, produced := BitVec.ofNat 32 r.units.length,
        utf := Utf8State.empty } })

/-- The completion and result of UTF_DECODE.E while the code units fit RX_CCAP: as UTF_DECODE, and the units stand in
CBUF from RX_COFF (41_utf8_validator.md R136). -/
def Obligations.UtfDecodeEWritesTheFold : Prop :=
  ∀ (s : State) (k : Nat) (bs : List Byte), s.rx.off.toNat + s.rx.len.toNat ≤ s.params.rxbufSize →
    s.rx.coff.toNat + s.rx.ccap.toNat ≤ s.params.cbufSize →
    k ≤ s.rx.len.toNat → s.rxbuf.readRange s.rx.off.toNat k = .ok bs →
    let r := utf8Fold s.rx.utfStrict bs 0 [] s.rx.utf
    r.units.length ≤ s.rx.ccap.toNat →
    (r.error = none → k = s.rx.len.toNat →
      ∃ m, exec .utfDecodeE s = .next { s with cbuf := m, rx := { s.rx with
          status := UnitStatus.finished .ok, consumed := s.rx.len, produced := BitVec.ofNat 32 r.units.length,
          utf := r.utf } } ∧
        ∀ a, m.read a = (s.cbuf.writeRange s.rx.coff.toNat r.units).read a) ∧
    (∀ i code, r.error = some (i, code) →
      ∃ m, exec .utfDecodeE s = .next { s with cbuf := m, rx := { s.rx with
          status := UnitStatus.finished code, consumed := BitVec.ofNat 32 i, produced := BitVec.ofNat 32 r.units.length,
          utf := Utf8State.empty } } ∧
        ∀ a, m.read a = (s.cbuf.writeRange s.rx.coff.toNat r.units).read a)

/-- UTF_DECODE.E finishes OUT_FULL at the first byte whose code units do not fit: that byte is not consumed and RX_UTF is
kept (41_utf8_validator.md R136). -/
def Obligations.UtfDecodeEStopsWhenFull : Prop :=
  ∀ (s : State) (bs : List Byte) (b : Byte) (us : List CodeUnit) (u' : Utf8State),
    s.rx.off.toNat + s.rx.len.toNat ≤ s.params.rxbufSize → s.rx.coff.toNat + s.rx.ccap.toNat ≤ s.params.cbufSize →
    bs.length < s.rx.len.toNat → s.rxbuf.readRange s.rx.off.toNat (bs.length + 1) = .ok (bs ++ [b]) →
    let r := utf8Fold s.rx.utfStrict bs 0 [] s.rx.utf
    r.error = none → r.units.length ≤ s.rx.ccap.toNat → utf8Step r.utf b s.rx.utfStrict = .emit us u' →
    s.rx.ccap.toNat < r.units.length + us.length →
    ∃ m, exec .utfDecodeE s = .next { s with cbuf := m, rx := { s.rx with
        status := UnitStatus.finished .outFull, consumed := BitVec.ofNat 32 bs.length,
        produced := BitVec.ofNat 32 r.units.length, utf := r.utf } } ∧
      ∀ a, m.read a = (s.cbuf.writeRange s.rx.coff.toNat r.units).read a

/-- UTF_DECODE's range checks, source before destination and the destination only with EMIT = 1, and UNINIT_READ where
the decoding reaches a byte never written (41_utf8_validator.md R136, 20_memory.md R54, R55). -/
def Obligations.UtfDecodeRangeAndUninit : Prop :=
  ∀ s : State,
    (s.params.rxbufSize < s.rx.off.toNat + s.rx.len.toNat → ∀ i, (i = .utfDecode ∨ i = .utfDecodeE) →
      exec i s = .next { s with rx := { s.rx with
        status := UnitStatus.finished .useRange, consumed := 0#32, produced := 0#32 } }) ∧
    (s.params.cbufSize < s.rx.coff.toNat + s.rx.ccap.toNat →
      exec .utfDecodeE s = .next { s with rx := { s.rx with
        status := UnitStatus.finished .useRange, consumed := 0#32, produced := 0#32 } }) ∧
    (∀ bs, s.rx.off.toNat + s.rx.len.toNat ≤ s.params.rxbufSize → bs.length < s.rx.len.toNat →
      s.rxbuf.readRange s.rx.off.toNat bs.length = .ok bs → s.rxbuf.read (s.rx.off.toNat + bs.length) = none →
      (utf8Fold s.rx.utfStrict bs 0 [] s.rx.utf).error = none →
      exec .utfDecode s = .fault (.uninitRead .rxbuf (s.rx.off.toNat + bs.length)) ∧
      (s.rx.coff.toNat + s.rx.ccap.toNat ≤ s.params.cbufSize →
        (utf8Fold s.rx.utfStrict bs 0 [] s.rx.utf).units.length ≤ s.rx.ccap.toNat →
        exec .utfDecodeE s = .fault (.uninitRead .rxbuf (s.rx.off.toNat + bs.length))))

/-- 41_utf8_validator.md R137, split invariance: UTF_DECODE (either word) on A that finishes OK, then on B with RX_COFF
advanced, leaves the CBUF, RX_UTF and status of one UTF_DECODE on A ++ B, with counts that add up. -/
def Obligations.UtfDecodeSplitInvariance : Prop :=
  ∀ (i : Instr) (s t u v : State) (n m cap' : Nat), (i = .utfDecode ∨ i = .utfDecodeE) → s.params.Ok →
    s.rx.off.toNat + (n + m) ≤ s.params.rxbufSize → cap' < 2 ^ 32 →
    exec i { s with rx := { s.rx with len := BitVec.ofNat 32 n } } = .next t → t.rx.status.code = .ok →
    exec i { t with rx := { t.rx with
      off := BitVec.ofNat 32 (s.rx.off.toNat + n), len := BitVec.ofNat 32 m,
      coff := BitVec.ofNat 32 (s.rx.coff.toNat + t.rx.produced.toNat), ccap := BitVec.ofNat 32 cap' } } = .next u →
    u.rx.status.code ≠ .outFull → u.rx.status.code ≠ .useRange →
    exec i { s with rx := { s.rx with len := BitVec.ofNat 32 (n + m) } } = .next v →
    v.rx.status.code ≠ .outFull →
    v.cbuf = u.cbuf ∧ v.rx.utf = u.rx.utf ∧ v.rx.status.code = u.rx.status.code ∧
      v.rx.produced.toNat = t.rx.produced.toNat + u.rx.produced.toNat ∧
      v.rx.consumed.toNat = n + u.rx.consumed.toNat

/-- A UTF_DECODE.E that finished OUT_FULL is resumed exactly: continuing at RX_OFF + RX_CONSUMED and
RX_COFF + RX_PRODUCED with more capacity ends as one UTF_DECODE.E with that capacity from the start
(41_utf8_validator.md R136, 92_eei_decisions.md D27). -/
def Obligations.OutFullResumesExactly : Prop :=
  ∀ (s t v : State) (cap' : Nat), s.params.Ok → s.rx.ccap.toNat ≤ cap' → cap' < 2 ^ 32 →
    exec .utfDecodeE s = .next t → t.rx.status.code = .outFull →
    exec .utfDecodeE { s with rx := { s.rx with ccap := BitVec.ofNat 32 cap' } } = .next v →
    v.rx.status.code ≠ .useRange →
    ∃ u, exec .utfDecodeE { t with rx := { t.rx with
        off := BitVec.ofNat 32 (s.rx.off.toNat + t.rx.consumed.toNat),
        len := BitVec.ofNat 32 (s.rx.len.toNat - t.rx.consumed.toNat),
        coff := BitVec.ofNat 32 (s.rx.coff.toNat + t.rx.produced.toNat),
        ccap := BitVec.ofNat 32 (cap' - t.rx.produced.toNat) } } = .next u ∧
      u.cbuf = v.cbuf ∧ u.rx.utf = v.rx.utf ∧ u.rx.status.code = v.rx.status.code ∧
      t.rx.produced.toNat + u.rx.produced.toNat = v.rx.produced.toNat ∧
      t.rx.consumed.toNat + u.rx.consumed.toNat = v.rx.consumed.toNat

/-- 41_utf8_validator.md R140: validate-only equals decode with enough capacity, but for CBUF. -/
def Obligations.ValidateOnlyEqualsDecode : Prop :=
  ∀ s t u : State, exec .utfDecode s = .next t → exec .utfDecodeE s = .next u →
    s.rx.coff.toNat + s.rx.ccap.toNat ≤ s.params.cbufSize → u.rx.status.code ≠ .outFull →
    t.rx = u.rx ∧ t.cbuf = s.cbuf

/-- RX_PRODUCED is at most RX_CONSUMED + 1, and at most RX_CONSUMED when the command started in the empty state: the
bound that holds of R136's pseudocode, where R136's remark leaves out a carried sequence (log 19). -/
def Obligations.ProducedIsBounded : Prop :=
  ∀ (i : Instr) (s t : State), (i = .utfDecode ∨ i = .utfDecodeE) → exec i s = .next t →
    t.rx.produced.toNat ≤ t.rx.consumed.toNat + 1 ∧
    (s.rx.utf = Utf8State.empty → t.rx.produced.toNat ≤ t.rx.consumed.toNat) ∧ t.rx.consumed.toNat ≤ s.rx.len.toNat

/-- 41_utf8_validator.md R134: UTF_RESET empties RX_UTF, always finishes OK and leaves everything else. -/
def Obligations.UtfResetEmptiesTheState : Prop :=
  encode .utfReset = .command .rxu 0x00000004#32 ∧ ∀ s : State, exec .utfReset s = .next { s with rx := { s.rx with
    status := UnitStatus.finished .ok, utf := { cp := 0#21, rem := 0#2, seqLen := 0#3 } } }

/-- 41_utf8_validator.md R138: UTF_FINISH reports whether a sequence was in progress, empties RX_UTF and leaves
everything else. -/
def Obligations.UtfFinishChecksTheEnd : Prop :=
  encode .utfFinish = .command .rxu 0x00000006#32 ∧ ∀ s : State, exec .utfFinish s = .next { s with rx := { s.rx with
    status := UnitStatus.finished (if s.rx.utf.rem = 0#2 then .ok else .utfIncomplete),
    utf := { cp := 0#21, rem := 0#2, seqLen := 0#3 } } }

/-- The frame of the UTF-8 commands: UTF_DECODE, UTF_RESET and UTF_FINISH write no memory, UTF_DECODE.E writes CBUF only
from RX_COFF to RX_COFF + RX_PRODUCED; UTF_RESET and UTF_FINISH leave RX_CONSUMED and RX_PRODUCED (30_encoding.md R88,
10_state.md R34, 41_utf8_validator.md R136). -/
def Obligations.UtfCommandsFrame : Prop :=
  ∀ (i : Instr) (s t : State), (i = .utfReset ∨ i = .utfDecode ∨ i = .utfDecodeE ∨ i = .utfFinish) →
    exec i s = .next t →
    SameBesideDecode s t ∧ t.tx = s.tx ∧ SameSurroundings s t ∧ t.draws = s.draws ∧
    (i = .utfReset ∨ i = .utfFinish → t.rx.consumed = s.rx.consumed ∧ t.rx.produced = s.rx.produced) ∧
    (∀ a, t.rxbuf.read a = s.rxbuf.read a) ∧ (∀ a, t.txbuf.read a = s.txbuf.read a) ∧
    (∀ a, (i ≠ .utfDecodeE ∨ a < s.rx.coff.toNat ∨ s.rx.coff.toNat + t.rx.produced.toNat ≤ a) →
      t.cbuf.read a = s.cbuf.read a)

/-! ### Commands, status and steps -/

/-- A step at a unit's completion runs exactly the instruction its pending word decodes to, and an illegal word finishes
USE_ILLEGAL_CMD; with DEC_HDR pending and a wire header at RX_OFF, the step runs that header's instruction
(10_state.md R21, 40_frame_codec.md R100; the last clause is the model's reading, log 10). -/
def Obligations.StepRunsThePendingCommand : Prop :=
  ∀ (s : State) (u : UnitId) (w : Word) (rest : List Input), s.faultRecord = [] → s.inputs = .complete u :: rest →
    (s.status u).pending = some w →
    (∀ i, decodeCommand u w = .ok i → step s = exec i { s with inputs := rest }) ∧
    (∀ e, decodeCommand u w = .error e → step s = .next (State.finish u .useIllegalCmd { s with inputs := rest })) ∧
    (∀ i bs, u = .rxu → w = 0x00000001#32 → i.wf = true → encode i = .wire bs →
      s.rxbuf.readRange s.rx.off.toNat bs.length = .ok bs → step s = exec i { s with inputs := rest })

/-- 30_encoding.md R87: which words are illegal for a unit, and that the completion step of an illegal word changes
nothing but the status. -/
def Obligations.IllegalWordChangesNothing : Prop :=
  ∀ (s : State) (u : UnitId) (w : Word) (rest : List Input),
    (w.extractLsb' 5 27 ≠ 0#27 ∨ w.extractLsb' 0 4 = 0x0#4 ∨ 0x7#4 ≤ w.extractLsb' 0 4 ∨
      (u = .rxu ∧ (w.extractLsb' 0 4 = 0x2#4 ∨ w.extractLsb' 0 4 = 0x3#4)) ∨
      (u = .txu ∧ (w.extractLsb' 0 4 = 0x1#4 ∨ w.extractLsb' 0 4 = 0x4#4 ∨ w.extractLsb' 0 4 = 0x5#4 ∨
        w.extractLsb' 0 4 = 0x6#4)) ∨
      (w.getLsbD 4 = true ∧ w.extractLsb' 0 4 ≠ 0x5#4)) →
    (∀ i, decodeCommand u w ≠ .ok i) ∧
    (s.faultRecord = [] → s.inputs = .complete u :: rest → (s.status u).pending = some w →
      step s = .next (match u with
        | .rxu => { s with inputs := rest, rx := { s.rx with status := UnitStatus.finished .useIllegalCmd } }
        | .txu => { s with inputs := rest, tx := { s.tx with status := UnitStatus.finished .useIllegalCmd } }))

/-- A host write to RX_CMD or TX_CMD of an idle unit latches the word, sets BUSY, clears DONE and leaves CODE and
everything else (10_state.md R21, R25, R42). -/
def Obligations.CommandWriteStartsCommand : Prop :=
  ∀ (s : State) (w : Word) (rest : List Input), s.faultRecord = [] →
    (s.inputs = .access (.write 32 0x00000000#32 w) :: rest → s.rx.status.pending = none →
      step s = .next { s with inputs := rest, rx := { s.rx with
        status := { pending := some w, done := false, code := s.rx.status.code } } }) ∧
    (s.inputs = .access (.write 32 0x00000100#32 w) :: rest → s.tx.status.pending = none →
      step s = .next { s with inputs := rest, tx := { s.tx with
        status := { pending := some w, done := false, code := s.tx.status.code } } })

/-- A completion step leaves its unit idle with DONE = 1 and a code its command may raise, and the other unit's status
alone; the STATUS word shows BUSY in bit 0, DONE in bit 1 and CODE in bits 15:8, with the values of the table of codes
(10_state.md R22, 60_exceptions.md R160, R162). -/
def Obligations.CompletionReportsStatus : Prop :=
  (∀ (i : Instr) (s t : State), exec i s = .next t →
    ∃ code ∈ codesOf i, t.status i.unit = { pending := none, done := true, code := code } ∧
      ∀ u, u ≠ i.unit → t.status u = s.status u) ∧
  (∀ (st : UnitStatus), st.word.toNat =
    st.code.toByte.toNat * 256 + (if st.done then 2 else 0) + (if st.pending.isSome then 1 else 0)) ∧
  (∀ c : StatusCode, c.toByte = match c with
    | .ok => 0x00#8
    | .needMore => 0x01#8
    | .outFull => 0x02#8
    | .protoRsv => 0x10#8
    | .protoOpcode => 0x11#8
    | .protoMasked => 0x12#8
    | .protoLen64 => 0x13#8
    | .protoCtrlFrag => 0x14#8
    | .protoCtrlLen => 0x15#8
    | .utfBadLead => 0x18#8
    | .utfBadCont => 0x19#8
    | .utfBadCp => 0x1A#8
    | .utfIncomplete => 0x1B#8
    | .resTooLarge => 0x20#8
    | .useIllegalCmd => 0x30#8
    | .useRange => 0x31#8)

/-- What an error report leaves (60_exceptions.md R163): a command that does not finish OK leaves TXBUF and RXBUF as they
were and its result set cleared where its rule clears it; a UTF_DECODE that meets an error or a full CBUF has had every
effect of the bytes before the offending one and none of it or a later one. The clauses about the wire instructions rest on
log 10 (DEDUCED), the draw counter is the model's own (log 2). -/
def Obligations.ErrorReportsArePrecise : Prop :=
  ∀ (i : Instr) (s t : State), exec i s = .next t → (t.status i.unit).code ≠ .ok →
    (t.status i.unit).busy = false ∧ (t.status i.unit).done = true ∧
    (∀ a, t.txbuf.read a = s.txbuf.read a) ∧ (∀ a, t.rxbuf.read a = s.rxbuf.read a) ∧ t.draws = s.draws ∧
    (i ≠ .utfDecodeE → ∀ a, t.cbuf.read a = s.cbuf.read a) ∧
    (i.unit = .rxu → ((t.rx.status.code = .utfBadLead ∨ t.rx.status.code = .utfBadCont ∨ t.rx.status.code = .utfBadCp ∨
      t.rx.status.code = .utfIncomplete) → t.rx.utf = Utf8State.empty)) ∧
    (i = .encFrame → t.tx.hsize = 0#32 ∧ t.tx.keyOut = 0#32 ∧ t.tx.fsize = 0#32) ∧
    ((i = .decHdr ∨ ∃ opcode f, IsWireFrame opcode f i) →
      t.rx.hsize = 0#32 ∧ t.rx.plen = 0#64 ∧ t.rx.payOff = 0#32 ∧ t.rx.fsize = 0#64) ∧
    ((i = .utfDecode ∨ i = .utfDecodeE) →
      (t.rx.status.code = .useRange → t.rx.consumed = 0#32 ∧ t.rx.produced = 0#32 ∧ t.rx.utf = s.rx.utf ∧
        ∀ a, t.cbuf.read a = s.cbuf.read a) ∧
      (t.rx.status.code ≠ .useRange → ∃ bs, s.rxbuf.readRange s.rx.off.toNat t.rx.consumed.toNat = .ok bs ∧
        let r := utf8Fold s.rx.utfStrict bs 0 [] s.rx.utf
        r.error = none ∧ r.units.length = t.rx.produced.toNat ∧
        (t.rx.status.code = .outFull → t.rx.utf = r.utf) ∧
        (i = .utfDecodeE → ∀ a, t.cbuf.read a = (s.cbuf.writeRange s.rx.coff.toNat r.units).read a)))

/-- With no input left, a started command completes: two steps leave both units idle, and only UNINIT_READ can stop them;
no step is ever refused (10_state.md R21, 70_reset_and_hazards.md R189; the order of the two units is the model's,
log 3). -/
def Obligations.StartedCommandsComplete : Prop :=
  (∀ s t u : State, s.faultRecord = [] → s.inputs = [] → step s = .next t → step t = .next u →
    u.rx.status.busy = false ∧ u.tx.status.busy = false) ∧
  (∀ (s : State) (r : Fault), s.faultRecord = [] → s.inputs = [] → step s = .fault r → ∃ b i, r = .uninitRead b i) ∧
  (∀ (s : State) (r : Refusal), step s ≠ .refused r)

/-! ### Reset and the host port -/

/-- 10_state.md R46: the reset value of every piece of state the spec names. -/
def Obligations.ResetValues : Prop :=
  (∀ r : Reg, State.reset.readReg r = match r with
    | .rxCfg => 0x00000008#32
    | .rxMaxLenHi => 0x7FFFFFFF#32
    | .rxMaxLenLo => 0xFFFFFFFF#32
    | _ => 0x00000000#32) ∧
  State.reset.rx.rsvAllow = 0#3 ∧ State.reset.rx.utfStrict = true ∧ State.reset.rx.utf = Utf8State.empty ∧
  (∀ u, (State.reset.status u).pending = none ∧ (State.reset.status u).busy = false ∧
    (State.reset.status u).done = false ∧ (State.reset.status u).code = .ok) ∧
  (∀ i, State.reset.rxbuf.read i = none ∧ State.reset.txbuf.read i = none ∧ State.reset.cbuf.read i = none) ∧
  State.reset.faultRecord = []

/-- What asserting reset does (70_reset_and_hazards.md R180), from any state, a faulted one too. That it keeps the sizes and
the inputs still to come, fields of the model's own, is the model's choice, log 15 (DEDUCED). -/
def Obligations.ResetEventRestoresReset : Prop :=
  ∀ (s : State) (rest : List Input), s.inputs = .reset :: rest →
    ∃ t, step s = .next t ∧ t.rx = State.reset.rx ∧ t.tx = State.reset.tx ∧
      (∀ i, t.rxbuf.read i = none ∧ t.txbuf.read i = none ∧ t.cbuf.read i = none) ∧ t.faultRecord = [] ∧
      t.inputs = rest ∧ t.params = s.params

/-- An access that is not one of the legal shapes of 20_memory.md R53 raises HOST_BAD_ACCESS and has no effect, and a legal
one never raises it. That a malformed access made while a unit is busy is named HOST_BAD_ACCESS and not HOST_HAZARD is the
model's choice, log 9 (DESIGN CHOICE). -/
def Obligations.OnlyLegalAccessesAreServed : Prop :=
  ∀ (s : State) (width : Nat) (addr : Word) (rest : List Input), s.params.Ok → s.faultRecord = [] →
    (s.inputs = .access (.read width addr) :: rest ∨ ∃ v, s.inputs = .access (.write width addr v) :: rest) →
    (step s = .fault (.hostBadAccess addr width) ↔ ¬ LegalAccess s.params width addr.toNat) ∧
    (step s = .fault (.hostBadAccess addr width) →
      s.afterStep = { s with faultRecord := [.hostBadAccess addr width] })

/-- The accesses that raise HOST_HAZARD while a unit is busy (70_reset_and_hazards.md R186, 92_eei_decisions.md D4): every
write to its registers and buffers, and every read of them but of its STATUS; reads of STATUS and accesses to the other unit
never do. That a write to a read-only register is among them is log 18 (DEDUCED), and that HOST_HAZARD is named before
UNINIT_READ is log 9 (DESIGN CHOICE). -/
def Obligations.BusyUnitHazards : Prop :=
  ∀ (s : State) (width : Nat) (addr v : Word) (rest : List Input) (tg : Target), s.faultRecord = [] →
    s.params.resolve width addr = some tg →
    (s.inputs = .access (.write width addr v) :: rest →
      ∀ u a, step s = .fault (.hostHazard u a) ↔ (u = tg.unit ∧ a = addr ∧ (s.status tg.unit).busy = true)) ∧
    (s.inputs = .access (.read width addr) :: rest →
      ∀ u a, step s = .fault (.hostHazard u a) ↔ (u = tg.unit ∧ a = addr ∧
        (s.status tg.unit).busy = true ∧ tg ≠ .reg .rxStatus ∧ tg ≠ .reg .txStatus))

/-- Host reads and writes of registers (10_state.md R24, R26, R36 to R39): a read returns the register's value, of a STATUS
register while its unit is busy too; a write of an RW register of an idle unit stores its defined fields and reads back
with reserved bits 0, and a write of an RO register changes nothing; no register write touches a buffer (20_memory.md R57),
and only a write of a command register a unit's status. The read value's place, and the other fields of the model's own, are
log 14 and log 1 to log 3. -/
def Obligations.RegisterReadsAndWrites : Prop :=
  (∀ (s : State) (addr : Word) (rest : List Input) (r : Reg), s.faultRecord = [] →
    s.inputs = .access (.read 32 addr) :: rest → s.params.resolve 32 addr = some (.reg r) →
    ((s.status r.unit).busy = false ∨ r = .rxStatus ∨ r = .txStatus) →
    step s = .next { s with inputs := rest, lastRead := some (s.readReg r) }) ∧
  (∀ (s : State) (addr v : Word) (rest : List Input) (r : Reg), s.faultRecord = [] →
    s.inputs = .access (.write 32 addr v) :: rest → s.params.resolve 32 addr = some (.reg r) →
    (s.status r.unit).busy = false → step s = .next (State.writeReg v { s with inputs := rest } r)) ∧
  (∀ (s : State) (v : Word) (r : Reg), r.kind = .rw →
    (s.writeReg v r).readReg r = match r with
      | .rxCfg => v &&& 0x0000000F#32
      | .txCfg => v &&& 0x00000007#32
      | .txCtl => v &&& 0x000000FF#32
      | .txPhase => v &&& 0x00000003#32
      | _ => v) ∧
  (∀ (s : State) (v : Word) (r r' : Reg), r.kind = .rw → r' ≠ r → (s.writeReg v r).readReg r' = s.readReg r') ∧
  (∀ (s : State) (v : Word) (r : Reg), r.kind = .ro → s.writeReg v r = s) ∧
  (∀ (s : State) (r : Reg), r.kind = .wo → s.readReg r = 0#32) ∧
  (∀ (s : State) (v : Word) (r : Reg),
    (s.writeReg v r).rxbuf = s.rxbuf ∧ (s.writeReg v r).txbuf = s.txbuf ∧ (s.writeReg v r).cbuf = s.cbuf ∧
    SameSurroundings s (s.writeReg v r) ∧ (s.writeReg v r).draws = s.draws ∧
    ∀ u, (r.kind = .wo → u ≠ r.unit) → (s.writeReg v r).status u = s.status u)

/-- 10_state.md R23: an access reaches a register exactly when it is 32 bits wide and at the offset of a row of the register
map, and the register's access kind and unit are that row's. -/
def Obligations.RegisterMapIsTheTable : Prop :=
  ∀ (p : Params) (width : Nat) (addr : Word) (r : Reg), p.resolve width addr = some (.reg r) ↔
    width = 32 ∧ (addr.toNat, r, r.kind, r.unit) ∈ registerMap

/-- The word a host reads from each register, as a value of the fields it holds (10_state.md R22, R26 to R39, R41), and
RX_HDR after a DEC_HDR that read header bytes 0 and 1: bits 7:0 are byte 0, bits 15:8 byte 1 and bit 16 CTRL (R30). -/
def Obligations.RegisterWordsShowTheState : Prop :=
  (∀ (s : State) (r : Reg), (s.readReg r).toNat = match r with
    | .rxCmd => 0
    | .rxStatus => s.rx.status.pending.isSome.toNat + 2 * s.rx.status.done.toNat + 256 * s.rx.status.code.toByte.toNat
    | .rxCfg => s.rx.rsvAllow.toNat + 8 * s.rx.utfStrict.toNat
    | .rxMaxLenLo => s.rx.maxLenLo.toNat
    | .rxMaxLenHi => s.rx.maxLenHi.toNat
    | .rxOff => s.rx.off.toNat
    | .rxLen => s.rx.len.toNat
    | .rxCoff => s.rx.coff.toNat
    | .rxCcap => s.rx.ccap.toNat
    | .rxHdr => s.rx.hdr.opcode.toNat + 2 ^ 4 * s.rx.hdr.rsv.toNat + 2 ^ 7 * s.rx.hdr.fin.toNat +
        2 ^ 8 * s.rx.hdr.len7.toNat + 2 ^ 15 * s.rx.hdr.mask.toNat + 2 ^ 16 * s.rx.hdr.ctrl.toNat
    | .rxHsize => s.rx.hsize.toNat
    | .rxNeed => s.rx.need.toNat
    | .rxPlenLo => s.rx.plen.toNat % 2 ^ 32
    | .rxPlenHi => s.rx.plen.toNat / 2 ^ 32
    | .rxPayOff => s.rx.payOff.toNat
    | .rxFsizeLo => s.rx.fsize.toNat % 2 ^ 32
    | .rxFsizeHi => s.rx.fsize.toNat / 2 ^ 32
    | .rxConsumed => s.rx.consumed.toNat
    | .rxProduced => s.rx.produced.toNat
    | .rxUtf => s.rx.utf.cp.toNat + 2 ^ 21 * s.rx.utf.rem.toNat + 2 ^ 23 * s.rx.utf.seqLen.toNat
    | .txCmd => 0
    | .txStatus => s.tx.status.pending.isSome.toNat + 2 * s.tx.status.done.toNat + 256 * s.tx.status.code.toByte.toNat
    | .txCfg => s.tx.rsvAllow.toNat
    | .txCtl => s.tx.ctl.opcode.toNat + 2 ^ 4 * s.tx.ctl.rsv.toNat + 2 ^ 7 * s.tx.ctl.fin.toNat
    | .txSrc => s.tx.src.toNat
    | .txDst => s.tx.dst.toNat
    | .txLen => s.tx.len.toNat
    | .txKey => s.tx.key.toNat
    | .txPhase => s.tx.phase.toNat
    | .txHsize => s.tx.hsize.toNat
    | .txKeyOut => s.tx.keyOut.toNat
    | .txFsize => s.tx.fsize.toNat) ∧
  (∀ (s t : State) (b0 b1 : Byte), exec .decHdr s = .next t →
    s.rx.off.toNat + s.rx.len.toNat ≤ s.params.rxbufSize → 2 ≤ s.rx.len.toNat →
    s.rxbuf.read s.rx.off.toNat = some b0 → s.rxbuf.read (s.rx.off.toNat + 1) = some b1 →
    (t.readReg .rxHdr).extractLsb' 0 8 = b0 ∧ (t.readReg .rxHdr).extractLsb' 8 8 = b1 ∧
      (t.readReg .rxHdr).extractLsb' 16 16 = if isControl (b0.extractLsb' 0 4) = true then 1#16 else 0#16)

/-- Host writes of buffer elements through the address map: the element reads back, every other element of every buffer
and every register stay (20_memory.md R51, R52, R57). -/
def Obligations.HostBufferWrites : Prop :=
  ∀ (s : State) (v : Word) (rest : List Input) (i : Nat), s.params.Ok → s.faultRecord = [] →
    (i < s.params.rxbufSize → s.rx.status.pending = none →
      s.inputs = .access (.write 8 (BitVec.ofNat 32 (0x10000000 + i)) v) :: rest →
      ∃ m, step s = .next { s with inputs := rest, rxbuf := m } ∧ m.read i = some (v.setWidth 8) ∧
        ∀ j, j ≠ i → m.read j = s.rxbuf.read j) ∧
    (i < s.params.txbufSize → s.tx.status.pending = none →
      s.inputs = .access (.write 8 (BitVec.ofNat 32 (0x20000000 + i)) v) :: rest →
      ∃ m, step s = .next { s with inputs := rest, txbuf := m } ∧ m.read i = some (v.setWidth 8) ∧
        ∀ j, j ≠ i → m.read j = s.txbuf.read j) ∧
    (i < s.params.cbufSize → s.rx.status.pending = none →
      s.inputs = .access (.write 16 (BitVec.ofNat 32 (0x30000000 + 2 * i)) v) :: rest →
      ∃ m, step s = .next { s with inputs := rest, cbuf := m } ∧ m.read i = some (v.setWidth 16) ∧
        ∀ j, j ≠ i → m.read j = s.cbuf.read j)

/-- 20_memory.md R55: a read of an element never written since reset raises UNINIT_READ, by the host and by a command,
and yields no value; a written mark, once set, stays set until a reset. -/
def Obligations.UnwrittenElementsHaveNoValue : Prop :=
  (∀ (s : State) (width : Nat) (addr : Word) (rest : List Input) (tg : Target), s.faultRecord = [] →
    s.inputs = .access (.read width addr) :: rest → s.params.resolve width addr = some tg →
    (s.status tg.unit).busy = false →
    (∀ i, tg = .rxbuf i → s.rxbuf.read i = none → step s = .fault (.uninitRead .rxbuf i)) ∧
    (∀ i, tg = .txbuf i → s.txbuf.read i = none → step s = .fault (.uninitRead .txbuf i)) ∧
    (∀ i, tg = .cbuf i → s.cbuf.read i = none → step s = .fault (.uninitRead .cbuf i)) ∧
    (∀ i b, tg = .rxbuf i → s.rxbuf.read i = some b →
      step s = .next { s with inputs := rest, lastRead := some (b.setWidth 32) }) ∧
    (∀ i b, tg = .txbuf i → s.txbuf.read i = some b →
      step s = .next { s with inputs := rest, lastRead := some (b.setWidth 32) }) ∧
    (∀ i c, tg = .cbuf i → s.cbuf.read i = some c →
      step s = .next { s with inputs := rest, lastRead := some (c.setWidth 32) })) ∧
  (∀ (i : Instr) (s : State) (r : Fault), exec i s = .fault r →
    (∃ j, r = .uninitRead .rxbuf j ∧ s.rxbuf.read j = none) ∨ (∃ j, r = .uninitRead .txbuf j ∧ s.txbuf.read j = none)) ∧
  (∀ s t : State, (∀ rest, s.inputs ≠ .reset :: rest) → step s = .next t → ∀ i,
    ((s.rxbuf.read i).isSome = true → (t.rxbuf.read i).isSome = true) ∧
    ((s.txbuf.read i).isSome = true → (t.txbuf.read i).isSome = true) ∧
    ((s.cbuf.read i).isSome = true → (t.cbuf.read i).isSome = true))

/-- A model fault ends the run and stays in the fault record until a reset (60_exceptions.md R166, 10_state.md R49). -/
def Obligations.RecordedFaultEndsTheRun : Prop :=
  (∀ (s : State) (r : Fault), step s = .fault r → s.faultRecord = [] → s.afterStep.faultRecord = [r]) ∧
  (∀ s : State, s.faultRecord ≠ [] → (∀ rest, s.inputs ≠ .reset :: rest) → ∃ r ∈ s.faultRecord, step s = .fault r) ∧
  (∀ s t : State, step s = .next t → t.faultRecord = [])

/-! ### Ownership, independence and the invariant -/

/-- 10_state.md R45: RXU's commands read and write only the RX_ registers, RXBUF and CBUF, TXU's only the TX_ registers and
TXBUF. The premises on the sizes and the draw counter are the model's: the sizes stand for parameters
(log 1, DESIGN CHOICE) and the counter for the key source (log 2, DESIGN CHOICE). -/
def Obligations.UnitsOwnDisjointState : Prop :=
  (∀ (i : Instr) (s s' t : State), i.unit = .rxu → s'.rx = s.rx → s'.rxbuf = s.rxbuf → s'.cbuf = s.cbuf →
    s'.params = s.params → exec i s = .next t →
    t = { s with rx := t.rx, cbuf := t.cbuf } ∧ exec i s' = .next { s' with rx := t.rx, cbuf := t.cbuf }) ∧
  (∀ (i : Instr) (s s' t : State), i.unit = .txu → s'.tx = s.tx → s'.txbuf = s.txbuf → s'.draws = s.draws →
    s'.params = s.params → exec i s = .next t →
    t = { s with tx := t.tx, txbuf := t.txbuf, draws := t.draws } ∧
    exec i s' = .next { s' with tx := t.tx, txbuf := t.txbuf, draws := t.draws })

/-- The order of RXU's and TXU's completion steps does not matter, nor that of a completion step and a host access to the
other unit (20_memory.md R61). -/
def Obligations.CompletionStepsCommute : Prop :=
  (∀ (i j : Instr) (s t u : State), i.unit ≠ j.unit → exec i s = .next t → exec j t = .next u →
    ∃ t', exec j s = .next t' ∧ exec i t' = .next u) ∧
  (∀ (i : Instr) (a : HostAccess) (s t u : State) (tg : Target),
    (∃ width addr, s.params.resolve width addr = some tg ∧
      (a = .read width addr ∨ ∃ v, a = .write width addr v)) → tg.unit ≠ i.unit →
    exec i s = .next t → hostAccess a t = .next u → ∃ t', hostAccess a s = .next t' ∧ exec i t' = .next u)

/-- Every step keeps the invariant of the block: sizes, status, result registers, RX_UTF, and the canonical form and
bounds of the three memories (00_scope.md R6, 10_state.md R22, R30 to R33, R41, R43, 20_memory.md R50). -/
def Obligations.StepKeepsTheInvariant : Prop :=
  ∀ s t : State, s.Inv → step s = .next t → t.Inv

/-- The state after reset has the invariant (10_state.md R46). -/
def Obligations.ResetHasTheInvariant : Prop := State.reset.Inv
end

