-- ==== Sys2Proof/Laws/Encoding.lean ====
section
/-! SUPPORT. The laws of the encodings: big-endian lists, header bytes and their fields, length forms, command words. -/

namespace Sys2Proof

/-! ### Big-endian lists -/

@[simp] theorem beValue_nil : beValue [] = 0 := rfl

@[simp] theorem beValue_cons (b : Byte) (bs : List Byte) :
    beValue (b :: bs) = b.toNat * 256 ^ bs.length + beValue bs := rfl

@[simp] theorem beBytes_length (n v : Nat) : (beBytes n v).length = n := by
  induction n with
  | zero => rfl
  | succ n ih => simp [beBytes, ih]

theorem beValue_lt (bs : List Byte) : beValue bs < 256 ^ bs.length := by
  induction bs with
  | nil => simp
  | cons b bs ih =>
    have hb := b.isLt
    rw [beValue_cons, List.length_cons, Nat.pow_succ]
    have : b.toNat * 256 ^ bs.length ≤ 255 * 256 ^ bs.length := Nat.mul_le_mul_right _ (by omega)
    omega

theorem beValue_beBytes (n v : Nat) : beValue (beBytes n v) = v % 256 ^ n := by
  induction n with
  | zero => simp [beBytes, Nat.mod_one]
  | succ n ih =>
    rw [beBytes, beValue_cons, ih, beBytes_length, BitVec.toNat_ofNat, Nat.pow_succ 256, Nat.mod_mul (x := v),
      Nat.mul_comm (256 ^ n), Nat.add_comm, show (2 : Nat) ^ 8 = 256 from rfl]

theorem beValue_beBytes_of_lt {n v : Nat} (h : v < 256 ^ n) : beValue (beBytes n v) = v := by
  rw [beValue_beBytes, Nat.mod_eq_of_lt h]

theorem beBytes_mod (n v k : Nat) (h : n ≤ k) : beBytes n (v % 256 ^ k) = beBytes n v := by
  induction n with
  | zero => rfl
  | succ n ih =>
    rw [beBytes, beBytes, ih (by omega)]
    congr 1
    apply BitVec.eq_of_toNat_eq
    rw [BitVec.toNat_ofNat, BitVec.toNat_ofNat]
    obtain ⟨d, rfl⟩ : ∃ d, k = n + 1 + d := ⟨k - (n + 1), by omega⟩
    have h8 : (2 : Nat) ^ 8 = 256 := rfl
    rw [h8, show n + 1 + d = n + (d + 1) by omega, Nat.pow_add, Nat.mod_mul_right_div_self, Nat.pow_succ,
      Nat.mul_comm (256 ^ d), Nat.mod_mul_right_mod]

theorem beBytes_beValue (bs : List Byte) : beBytes bs.length (beValue bs) = bs := by
  induction bs with
  | nil => rfl
  | cons b bs ih =>
    have hlt := beValue_lt bs
    have hpos : 0 < 256 ^ bs.length := Nat.pow_pos (by decide)
    rw [List.length_cons, beBytes, beValue_cons]
    congr 1
    · apply BitVec.eq_of_toNat_eq
      rw [BitVec.toNat_ofNat, Nat.mul_comm, Nat.mul_add_div hpos, Nat.div_eq_of_lt hlt, Nat.add_zero]
      exact Nat.mod_eq_of_lt b.isLt
    · rw [← beBytes_mod _ _ bs.length (Nat.le_refl _), Nat.mul_comm, Nat.mul_add_mod, Nat.mod_eq_of_lt hlt, ih]

/-! ### Header bytes -/

@[simp] theorem finOf_headerByte0 (fin : Bool) (rsv : BitVec 3) (opcode : BitVec 4) :
    finOf (headerByte0 fin rsv opcode) = fin := by
  revert fin rsv opcode
  decide

@[simp] theorem rsvOf_headerByte0 (fin : Bool) (rsv : BitVec 3) (opcode : BitVec 4) :
    rsvOf (headerByte0 fin rsv opcode) = rsv := by
  revert fin rsv opcode
  decide

@[simp] theorem opcodeOf_headerByte0 (fin : Bool) (rsv : BitVec 3) (opcode : BitVec 4) :
    opcodeOf (headerByte0 fin rsv opcode) = opcode := by
  revert fin rsv opcode
  decide

@[simp] theorem maskOf_headerByte1 (mask : Bool) (len7 : BitVec 7) : maskOf (headerByte1 mask len7) = mask := by
  revert mask len7
  decide

@[simp] theorem len7Of_headerByte1 (mask : Bool) (len7 : BitVec 7) : len7Of (headerByte1 mask len7) = len7 := by
  revert mask len7
  decide

@[simp] theorem headerByte0_fields (b : Byte) : headerByte0 (finOf b) (rsvOf b) (opcodeOf b) = b := by
  revert b
  decide

@[simp] theorem headerByte1_fields (b : Byte) : headerByte1 (maskOf b) (len7Of b) = b := by
  revert b
  decide

/-- Byte 0 as a value (30_encoding.md R71). -/
theorem headerByte0_toNat (fin : Bool) (rsv : BitVec 3) (opcode : BitVec 4) :
    (headerByte0 fin rsv opcode).toNat = fin.toNat * 128 + rsv.toNat * 16 + opcode.toNat := by
  revert fin rsv opcode
  decide

/-- Byte 1 as a value (30_encoding.md R72). -/
theorem headerByte1_toNat (mask : Bool) (len7 : BitVec 7) :
    (headerByte1 mask len7).toNat = mask.toNat * 128 + len7.toNat := by
  revert mask len7
  decide

/-! ### Length forms -/

theorem extSize_cases (len7 : BitVec 7) : extSize len7 = 0 ∧ len7.toNat ≤ 125 ∨ extSize len7 = 2 ∧ len7.toNat = 126 ∨
    extSize len7 = 8 ∧ len7.toNat = 127 := by
  have := len7.isLt
  unfold extSize
  split
  · exact .inl ⟨rfl, ‹_›⟩
  · split
    · exact .inr (.inl ⟨rfl, ‹_›⟩)
    · exact .inr (.inr ⟨rfl, by omega⟩)

theorem extBytes_length (l : LenField) (h : l.wf = true) : l.extBytes.length = extSize l.len7Bits := by
  cases l with
  | len7 n =>
    have hn : n.toNat ≤ 125 := by simpa [LenField.wf] using h
    simp [LenField.extBytes, LenField.len7Bits, extSize, hn]
  | ext16 n => simp [LenField.extBytes, LenField.len7Bits, extSize]
  | ext64 n => simp [LenField.extBytes, LenField.len7Bits, extSize]

theorem lenFieldOf_self (l : LenField) (h : l.wf = true) : lenFieldOf l.len7Bits l.value = l := by
  cases l with
  | len7 n =>
    have hn : n.toNat ≤ 125 := by simpa [LenField.wf] using h
    simp [lenFieldOf, LenField.len7Bits, hn]
  | ext16 n => simp [lenFieldOf, LenField.len7Bits, LenField.value]
  | ext64 n => simp [lenFieldOf, LenField.len7Bits, LenField.value]

theorem value_of_extBytes (l : LenField) (h : l.wf = true) :
    (if extSize l.len7Bits = 0 then l.len7Bits.toNat else beValue l.extBytes) = l.value := by
  cases l with
  | len7 n =>
    have hn : n.toNat ≤ 125 := by simpa [LenField.wf] using h
    simp [LenField.len7Bits, LenField.value, extSize, hn]
  | ext16 n =>
    have := n.isLt
    simp [LenField.len7Bits, LenField.value, LenField.extBytes, extSize, beValue_beBytes]
    omega
  | ext64 n =>
    have := n.isLt
    simp [LenField.len7Bits, LenField.value, LenField.extBytes, extSize, beValue_beBytes]
    omega

theorem value_lt (l : LenField) : l.value < 2 ^ 64 := by
  cases l with
  | len7 n => exact Nat.lt_trans n.isLt (by decide)
  | ext16 n => exact Nat.lt_trans n.isLt (by decide)
  | ext64 n => exact n.isLt

@[simp] theorem shortestLen_wf (len : Nat) : (shortestLen len).wf = true := by
  unfold shortestLen
  split
  · simp [LenField.wf]
    omega
  · split <;> rfl

theorem shortestLen_value {len : Nat} (h : len < 2 ^ 64) : (shortestLen len).value = len := by
  unfold shortestLen
  split
  · simp [LenField.value]
    omega
  · split
    · simp [LenField.value]
      omega
    · simp [LenField.value]
      omega

theorem extBytes_shortestLen_length (len : Nat) :
    (shortestLen len).extBytes.length = if len ≤ 125 then 0 else if len ≤ 65535 then 2 else 8 := by
  unfold shortestLen
  split
  · rfl
  · split <;> simp [LenField.extBytes]

/-- A client header is the header bytes of a masked frame with the shortest length form. -/
theorem encodeHeader_eq_headerBytes (fin : Bool) (rsv : BitVec 3) (opcode : BitVec 4) (len : Nat) (key : Word) :
    encodeHeader fin rsv opcode len key =
      headerBytes opcode { fin := fin, rsv := rsv, len := shortestLen len, key := some key } := rfl

@[simp] theorem encodeHeader_length (fin : Bool) (rsv : BitVec 3) (opcode : BitVec 4) (len : Nat) (key : Word) :
    (encodeHeader fin rsv opcode len key).length = 6 + (if len ≤ 125 then 0 else if len ≤ 65535 then 2 else 8) := by
  simp only [encodeHeader, List.length_cons, List.length_append, beBytes_length, extBytes_shortestLen_length]
  omega

theorem headerBytes_length (opcode : BitVec 4) (f : FrameFields) (h : f.wf = true) :
    (headerBytes opcode f).length = 2 + extSize f.len.len7Bits + if f.key.isSome then 4 else 0 := by
  have h' : f.len.wf = true := h
  cases hk : f.key <;> simp [headerBytes, hk, extBytes_length _ h'] <;> omega

/-! ### ParseHeader on header bytes -/

/-- The record that ParseHeader reads from the header bytes of a well-formed frame. -/
def headerOf (opcode : BitVec 4) (f : FrameFields) : Header :=
  { fin := f.fin, rsv := f.rsv, opcode := opcode, mask := f.key.isSome, len7 := f.len.len7Bits, plen := f.len.value,
    key := f.key.getD 0#32, hsize := 2 + extSize f.len.len7Bits + if f.key.isSome then 4 else 0 }

theorem fields_headerOf (opcode : BitVec 4) (f : FrameFields) (h : f.wf = true) : (headerOf opcode f).fields = f := by
  have h' : f.len.wf = true := h
  obtain ⟨fin, rsv, len, key⟩ := f
  cases key <;> simp [headerOf, Header.fields, lenFieldOf_self _ h']

/-- The length bytes of a well-formed length field give its value, whatever follows them. -/
theorem plenOf_append (l : LenField) (h : l.wf = true) (b0 b1 : Byte) (tail : List Byte) :
    plenOf l.len7Bits (b0 :: b1 :: (l.extBytes ++ tail)) = l.value := by
  have hl := extBytes_length _ h
  rw [← value_of_extBytes _ h, plenOf]
  simp only [List.drop_succ_cons, List.drop_zero]
  rw [← hl, List.take_left]

/-- ParseHeader reads the header bytes of a well-formed frame, and nothing after them (30_encoding.md R79). -/
theorem parseHeader_headerBytes (opcode : BitVec 4) (f : FrameFields) (h : f.wf = true) (rest : List Byte) :
    parseHeader (headerBytes opcode f ++ rest) = .header (headerOf opcode f) := by
  have h' : f.len.wf = true := h
  have hl := extBytes_length _ h'
  obtain ⟨fin, rsv, len, key⟩ := f
  simp only at hl h'
  cases key with
  | none =>
    simp only [headerBytes, headerOf, List.cons_append, parseHeader, len7Of_headerByte1, finOf_headerByte0,
      rsvOf_headerByte0, opcodeOf_headerByte0, maskOf_headerByte1, Option.isSome_none, List.append_assoc]
    rw [if_neg (by simp only [List.length_cons, List.length_append, hl]; omega), plenOf_append _ h']
    rfl
  | some k =>
    simp only [headerBytes, headerOf, List.cons_append, parseHeader, len7Of_headerByte1, finOf_headerByte0,
      rsvOf_headerByte0, opcodeOf_headerByte0, maskOf_headerByte1, Option.isSome_some, List.append_assoc]
    have h1 : ¬ (headerByte0 fin rsv opcode :: headerByte1 true len.len7Bits ::
        (len.extBytes ++ (beBytes 4 k.toNat ++ rest))).length < 2 + extSize len.len7Bits := by
      simp only [List.length_cons, List.length_append, hl, beBytes_length]; omega
    have h2 : ¬ (headerByte0 fin rsv opcode :: headerByte1 true len.len7Bits ::
        (len.extBytes ++ (beBytes 4 k.toNat ++ rest))).length < 2 + extSize len.len7Bits + 4 := by
      simp only [List.length_cons, List.length_append, hl, beBytes_length]; omega
    have hk : BitVec.ofNat 32 (beValue (((headerByte0 fin rsv opcode :: headerByte1 true len.len7Bits ::
        (len.extBytes ++ (beBytes 4 k.toNat ++ rest))).drop (2 + extSize len.len7Bits)).take 4)) = k := by
      rw [show 2 + extSize len.len7Bits = len.extBytes.length + 1 + 1 by omega, List.drop_succ_cons, List.drop_succ_cons,
        List.drop_left, List.take_append_of_le_length (by simp), List.take_of_length_le (by simp),
        beValue_beBytes_of_lt (by exact k.isLt)]
      simp
    rw [if_neg h1, if_neg h2, plenOf_append _ h', hk]
    rfl

/-- Everything ParseHeader can answer: bytes are missing, or the list begins with the header bytes of a frame. -/
theorem parseHeader_cases (bs : List Byte) :
    (∃ n, parseHeader bs = .needMore n ∧ bs.length < n ∧ (n = 2 ∨ n = 4 ∨ n = 10 ∨ n = 6 ∨ n = 8 ∨ n = 14)) ∨
    (∃ opc f rest, f.wf = true ∧ bs = headerBytes opc f ++ rest ∧ parseHeader bs = .header (headerOf opc f)) := by
  match bs with
  | [] => exact .inl ⟨2, rfl, by simp, by simp⟩
  | [_] => exact .inl ⟨2, rfl, by simp, by simp⟩
  | b0 :: b1 :: tl =>
    by_cases h1 : tl.length < extSize (len7Of b1)
    · left
      refine ⟨2 + extSize (len7Of b1), ?_, ?_, ?_⟩
      · simp only [parseHeader]
        rw [if_pos (by simp; omega)]
      · simp; omega
      · rcases extSize_cases (len7Of b1) with ⟨e, -⟩ | ⟨e, -⟩ | ⟨e, -⟩ <;> rw [e] <;> simp
    · by_cases h2 : maskOf b1 = true ∧ tl.length < extSize (len7Of b1) + 4
      · left
        refine ⟨2 + extSize (len7Of b1) + 4, ?_, ?_, ?_⟩
        · simp only [parseHeader]
          rw [if_neg (by simp; omega), if_pos h2.1, if_pos (by simp; omega)]
        · simp; omega
        · rcases extSize_cases (len7Of b1) with ⟨e, -⟩ | ⟨e, -⟩ | ⟨e, -⟩ <;> rw [e] <;> simp
      · right
        have hlen : ∃ l : LenField, l.wf = true ∧ l.len7Bits = len7Of b1 ∧ l.extBytes = tl.take (extSize (len7Of b1)) := by
          rcases extSize_cases (len7Of b1) with ⟨e, h⟩ | ⟨e, h⟩ | ⟨e, h⟩
          · exact ⟨.len7 (len7Of b1), by simpa [LenField.wf] using h, rfl, by simp [e, LenField.extBytes]⟩
          · refine ⟨.ext16 (BitVec.ofNat 16 (beValue (tl.take 2))), rfl, by apply BitVec.eq_of_toNat_eq; simp [LenField.len7Bits, h], ?_⟩
            have hl2 : (tl.take 2).length = 2 := by simp; omega
            have := beValue_lt (tl.take 2)
            rw [hl2] at this
            simp only [LenField.extBytes, BitVec.toNat_ofNat, e]
            rw [Nat.mod_eq_of_lt (by omega)]
            have h3 := beBytes_beValue (tl.take 2)
            rwa [hl2] at h3
          · refine ⟨.ext64 (BitVec.ofNat 64 (beValue (tl.take 8))), rfl, by apply BitVec.eq_of_toNat_eq; simp [LenField.len7Bits, h], ?_⟩
            have hl2 : (tl.take 8).length = 8 := by simp; omega
            have := beValue_lt (tl.take 8)
            rw [hl2] at this
            simp only [LenField.extBytes, BitVec.toNat_ofNat, e]
            rw [Nat.mod_eq_of_lt (by omega)]
            have h3 := beBytes_beValue (tl.take 8)
            rwa [hl2] at h3
        obtain ⟨l, hwf, h7, hext⟩ := hlen
        have : ∃ opc f rest, f.wf = true ∧ b0 :: b1 :: tl = headerBytes opc f ++ rest := by
          by_cases hm : maskOf b1 = true
          · refine ⟨opcodeOf b0, { fin := finOf b0, rsv := rsvOf b0, len := l, key := some (BitVec.ofNat 32 (beValue ((tl.drop (extSize (len7Of b1))).take 4))) }, (tl.drop (extSize (len7Of b1))).drop 4, hwf, ?_⟩
            have hb : headerByte1 true (len7Of b1) = b1 := by rw [← hm]; exact headerByte1_fields b1
            simp only [headerBytes, headerByte0_fields, Option.isSome_some, h7, hb, hext, BitVec.toNat_ofNat, List.cons_append, List.append_assoc]
            have hl2 : ((tl.drop (extSize (len7Of b1))).take 4).length = 4 := by
              have h5 : ¬ tl.length < extSize (len7Of b1) + 4 := fun h => h2 ⟨hm, h⟩
              simp; omega
            have hlt := beValue_lt ((tl.drop (extSize (len7Of b1))).take 4)
            rw [hl2] at hlt
            rw [Nat.mod_eq_of_lt (by omega)]
            have h3 := beBytes_beValue ((tl.drop (extSize (len7Of b1))).take 4)
            rw [hl2] at h3
            rw [h3, List.take_append_drop, List.take_append_drop]
          · have hm : maskOf b1 = false := by simpa using hm
            refine ⟨opcodeOf b0, { fin := finOf b0, rsv := rsvOf b0, len := l, key := none }, (tl.drop (extSize (len7Of b1))), hwf, ?_⟩
            have hb : headerByte1 false (len7Of b1) = b1 := by rw [← hm]; exact headerByte1_fields b1
            simp only [headerBytes, headerByte0_fields, Option.isSome_none, h7, hb, hext, List.cons_append, List.append_assoc, List.nil_append]
            rw [List.take_append_drop]
        obtain ⟨opc, f, rest, hf, e⟩ := this
        exact ⟨opc, f, rest, hf, e, by rw [e]; exact parseHeader_headerBytes opc f hf rest⟩

/-! ### Opcodes -/

theorem frameOfOpcode_isSome (opcode : BitVec 4) (f : FrameFields) :
    (frameOfOpcode opcode f).isSome = recognized opcode := by
  unfold frameOfOpcode recognized
  repeat' split
  all_goals simp_all

theorem isControl_recognized (opcode : BitVec 4) (h : isControl opcode = true) : recognized opcode = true := by
  revert opcode
  decide

/-- For a recognized opcode, IsControl is opcode bit 3 (30_encoding.md R76). -/
theorem isControl_eq_bit3 (opcode : BitVec 4) (h : recognized opcode = true) : isControl opcode = opcode.getLsbD 3 := by
  revert opcode
  decide

/-! ### Command words -/

/-- Bits 31:5 of a command word are 0 exactly when its value is below 32 (30_encoding.md R85). -/
theorem upperBitsOf_eq_zero_iff (w : Word) : upperBitsOf w = 0#27 ↔ w.toNat < 32 := by
  have hw := w.isLt
  rw [← BitVec.toNat_inj, upperBitsOf, BitVec.extractLsb'_toNat, Nat.shiftRight_eq_div_pow, BitVec.toNat_ofNat]
  omega

theorem decodeCommandWord_of_ge {w : Word} (h : 32 ≤ w.toNat) : decodeCommandWord w = .error .reservedBitsSet := by
  rw [decodeCommandWord, if_pos]
  rw [ne_eq, upperBitsOf_eq_zero_iff]
  omega

/-- What the decoder answers for a unit, from what the word alone names. -/
theorem decodeCommand_eq_ok_iff (u : UnitId) (w : Word) (i : Instr) :
    decodeCommand u w = .ok i ↔ decodeCommandWord w = .ok i ∧ i.unit = u := by
  unfold decodeCommand
  cases decodeCommandWord w with
  | error e => simp
  | ok j =>
    by_cases h : j.unit = u
    · simp only [h, if_true, Except.ok.injEq]
      constructor
      · rintro rfl
        exact ⟨rfl, h⟩
      · exact fun e => e.1
    · simp only [h, if_false, Except.ok.injEq, reduceCtorEq, false_iff]
      rintro ⟨rfl, h'⟩
      exact h h'

end Sys2Proof
end

