-- ==== Sys2Proof/Laws/State.lean ====
section
/-! SUPPORT. One lemma per field for each named update of the state, true by rfl and tagged simp, so that no proof
unfolds a record update. -/

namespace Sys2Proof.Machine

/-! ### Unit status -/

@[simp] theorem UnitStatus.start_pending (w : Word) (u : UnitStatus) : (u.start w).pending = some w := rfl
@[simp] theorem UnitStatus.start_done (w : Word) (u : UnitStatus) : (u.start w).done = false := rfl
@[simp] theorem UnitStatus.start_code (w : Word) (u : UnitStatus) : (u.start w).code = u.code := rfl
@[simp] theorem UnitStatus.start_busy (w : Word) (u : UnitStatus) : (u.start w).busy = true := rfl
@[simp] theorem UnitStatus.finished_pending (c : StatusCode) : (UnitStatus.finished c).pending = none := rfl
@[simp] theorem UnitStatus.finished_done (c : StatusCode) : (UnitStatus.finished c).done = true := rfl
@[simp] theorem UnitStatus.finished_code (c : StatusCode) : (UnitStatus.finished c).code = c := rfl
@[simp] theorem UnitStatus.finished_busy (c : StatusCode) : (UnitStatus.finished c).busy = false := rfl

/-! ### status and finish of RXU -/

@[simp] theorem status_rxu (s : State) : s.status .rxu = s.rx.status := rfl
@[simp] theorem status_txu (s : State) : s.status .txu = s.tx.status := rfl

@[simp] theorem finish_rxu_rx (c : StatusCode) (s : State) :
    (s.finish .rxu c).rx = { s.rx with status := UnitStatus.finished c } := rfl
@[simp] theorem finish_rxu_tx (c : StatusCode) (s : State) : (s.finish .rxu c).tx = s.tx := rfl
@[simp] theorem finish_txu_rx (c : StatusCode) (s : State) : (s.finish .txu c).rx = s.rx := rfl
@[simp] theorem finish_txu_tx (c : StatusCode) (s : State) :
    (s.finish .txu c).tx = { s.tx with status := UnitStatus.finished c } := rfl
@[simp] theorem finish_rxbuf (u : UnitId) (c : StatusCode) (s : State) : (s.finish u c).rxbuf = s.rxbuf := by
  cases u <;> rfl
@[simp] theorem finish_txbuf (u : UnitId) (c : StatusCode) (s : State) : (s.finish u c).txbuf = s.txbuf := by
  cases u <;> rfl
@[simp] theorem finish_cbuf (u : UnitId) (c : StatusCode) (s : State) : (s.finish u c).cbuf = s.cbuf := by
  cases u <;> rfl
@[simp] theorem finish_params (u : UnitId) (c : StatusCode) (s : State) : (s.finish u c).params = s.params := by
  cases u <;> rfl
@[simp] theorem finish_draws (u : UnitId) (c : StatusCode) (s : State) : (s.finish u c).draws = s.draws := by
  cases u <;> rfl
@[simp] theorem finish_inputs (u : UnitId) (c : StatusCode) (s : State) : (s.finish u c).inputs = s.inputs := by
  cases u <;> rfl
@[simp] theorem finish_lastRead (u : UnitId) (c : StatusCode) (s : State) : (s.finish u c).lastRead = s.lastRead := by
  cases u <;> rfl
@[simp] theorem finish_faultRecord (u : UnitId) (c : StatusCode) (s : State) :
    (s.finish u c).faultRecord = s.faultRecord := by cases u <;> rfl
@[simp] theorem finish_status (u : UnitId) (c : StatusCode) (s : State) :
    (s.finish u c).status u = UnitStatus.finished c := by cases u <;> rfl

/-! ### Command start -/

@[simp] theorem startCommand_rxu_rx (w : Word) (s : State) :
    (s.startCommand .rxu w).rx = { s.rx with status := s.rx.status.start w } := rfl
@[simp] theorem startCommand_rxu_tx (w : Word) (s : State) : (s.startCommand .rxu w).tx = s.tx := rfl
@[simp] theorem startCommand_txu_rx (w : Word) (s : State) : (s.startCommand .txu w).rx = s.rx := rfl
@[simp] theorem startCommand_txu_tx (w : Word) (s : State) :
    (s.startCommand .txu w).tx = { s.tx with status := s.tx.status.start w } := rfl
@[simp] theorem startCommand_rxbuf (u : UnitId) (w : Word) (s : State) : (s.startCommand u w).rxbuf = s.rxbuf := by
  cases u <;> rfl
@[simp] theorem startCommand_txbuf (u : UnitId) (w : Word) (s : State) : (s.startCommand u w).txbuf = s.txbuf := by
  cases u <;> rfl
@[simp] theorem startCommand_cbuf (u : UnitId) (w : Word) (s : State) : (s.startCommand u w).cbuf = s.cbuf := by
  cases u <;> rfl
@[simp] theorem startCommand_params (u : UnitId) (w : Word) (s : State) : (s.startCommand u w).params = s.params := by
  cases u <;> rfl
@[simp] theorem startCommand_draws (u : UnitId) (w : Word) (s : State) : (s.startCommand u w).draws = s.draws := by
  cases u <;> rfl
@[simp] theorem startCommand_inputs (u : UnitId) (w : Word) (s : State) : (s.startCommand u w).inputs = s.inputs := by
  cases u <;> rfl
@[simp] theorem startCommand_lastRead (u : UnitId) (w : Word) (s : State) :
    (s.startCommand u w).lastRead = s.lastRead := by cases u <;> rfl
@[simp] theorem startCommand_faultRecord (u : UnitId) (w : Word) (s : State) :
    (s.startCommand u w).faultRecord = s.faultRecord := by cases u <;> rfl
@[simp] theorem startCommand_status (u : UnitId) (w : Word) (s : State) :
    (s.startCommand u w).status u = (s.status u).start w := by cases u <;> rfl

/-! ### Updates of RX_ registers by the commands -/

@[simp] theorem clearHeaderResults_rx (s : State) : s.clearHeaderResults.rx =
    { s.rx with hdr := RxHdr.zero, hsize := 0#32, need := 0#32, plen := 0#64, payOff := 0#32, fsize := 0#64 } := rfl
@[simp] theorem clearHeaderResults_tx (s : State) : s.clearHeaderResults.tx = s.tx := rfl
@[simp] theorem clearHeaderResults_rxbuf (s : State) : s.clearHeaderResults.rxbuf = s.rxbuf := rfl
@[simp] theorem clearHeaderResults_txbuf (s : State) : s.clearHeaderResults.txbuf = s.txbuf := rfl
@[simp] theorem clearHeaderResults_cbuf (s : State) : s.clearHeaderResults.cbuf = s.cbuf := rfl
@[simp] theorem clearHeaderResults_params (s : State) : s.clearHeaderResults.params = s.params := rfl
@[simp] theorem clearHeaderResults_draws (s : State) : s.clearHeaderResults.draws = s.draws := rfl
@[simp] theorem clearHeaderResults_inputs (s : State) : s.clearHeaderResults.inputs = s.inputs := rfl
@[simp] theorem clearHeaderResults_lastRead (s : State) : s.clearHeaderResults.lastRead = s.lastRead := rfl
@[simp] theorem clearHeaderResults_faultRecord (s : State) : s.clearHeaderResults.faultRecord = s.faultRecord := rfl

@[simp] theorem withNeed_rx (n : Nat) (s : State) : (s.withNeed n).rx = { s.rx with need := BitVec.ofNat 32 n } := rfl
@[simp] theorem withNeed_tx (n : Nat) (s : State) : (s.withNeed n).tx = s.tx := rfl
@[simp] theorem withNeed_rxbuf (n : Nat) (s : State) : (s.withNeed n).rxbuf = s.rxbuf := rfl
@[simp] theorem withNeed_txbuf (n : Nat) (s : State) : (s.withNeed n).txbuf = s.txbuf := rfl
@[simp] theorem withNeed_cbuf (n : Nat) (s : State) : (s.withNeed n).cbuf = s.cbuf := rfl
@[simp] theorem withNeed_params (n : Nat) (s : State) : (s.withNeed n).params = s.params := rfl
@[simp] theorem withNeed_draws (n : Nat) (s : State) : (s.withNeed n).draws = s.draws := rfl
@[simp] theorem withNeed_inputs (n : Nat) (s : State) : (s.withNeed n).inputs = s.inputs := rfl
@[simp] theorem withNeed_lastRead (n : Nat) (s : State) : (s.withNeed n).lastRead = s.lastRead := rfl
@[simp] theorem withNeed_faultRecord (n : Nat) (s : State) : (s.withNeed n).faultRecord = s.faultRecord := rfl

@[simp] theorem withHdr_rx (h : RxHdr) (s : State) : (s.withHdr h).rx = { s.rx with hdr := h } := rfl
@[simp] theorem withHdr_tx (h : RxHdr) (s : State) : (s.withHdr h).tx = s.tx := rfl
@[simp] theorem withHdr_rxbuf (h : RxHdr) (s : State) : (s.withHdr h).rxbuf = s.rxbuf := rfl
@[simp] theorem withHdr_txbuf (h : RxHdr) (s : State) : (s.withHdr h).txbuf = s.txbuf := rfl
@[simp] theorem withHdr_cbuf (h : RxHdr) (s : State) : (s.withHdr h).cbuf = s.cbuf := rfl
@[simp] theorem withHdr_params (h : RxHdr) (s : State) : (s.withHdr h).params = s.params := rfl
@[simp] theorem withHdr_draws (h : RxHdr) (s : State) : (s.withHdr h).draws = s.draws := rfl
@[simp] theorem withHdr_inputs (h : RxHdr) (s : State) : (s.withHdr h).inputs = s.inputs := rfl
@[simp] theorem withHdr_lastRead (h : RxHdr) (s : State) : (s.withHdr h).lastRead = s.lastRead := rfl
@[simp] theorem withHdr_faultRecord (h : RxHdr) (s : State) : (s.withHdr h).faultRecord = s.faultRecord := rfl

@[simp] theorem withAccepted_rx (hs n : Nat) (s : State) : (s.withAccepted hs n).rx =
    { s.rx with hsize := BitVec.ofNat 32 hs, plen := BitVec.ofNat 64 n,
                payOff := BitVec.ofNat 32 (s.rx.off.toNat + hs), fsize := BitVec.ofNat 64 (hs + n) } := rfl
@[simp] theorem withAccepted_tx (hs n : Nat) (s : State) : (s.withAccepted hs n).tx = s.tx := rfl
@[simp] theorem withAccepted_rxbuf (hs n : Nat) (s : State) : (s.withAccepted hs n).rxbuf = s.rxbuf := rfl
@[simp] theorem withAccepted_txbuf (hs n : Nat) (s : State) : (s.withAccepted hs n).txbuf = s.txbuf := rfl
@[simp] theorem withAccepted_cbuf (hs n : Nat) (s : State) : (s.withAccepted hs n).cbuf = s.cbuf := rfl
@[simp] theorem withAccepted_params (hs n : Nat) (s : State) : (s.withAccepted hs n).params = s.params := rfl
@[simp] theorem withAccepted_draws (hs n : Nat) (s : State) : (s.withAccepted hs n).draws = s.draws := rfl
@[simp] theorem withAccepted_inputs (hs n : Nat) (s : State) : (s.withAccepted hs n).inputs = s.inputs := rfl
@[simp] theorem withAccepted_lastRead (hs n : Nat) (s : State) : (s.withAccepted hs n).lastRead = s.lastRead := rfl
@[simp] theorem withAccepted_faultRecord (hs n : Nat) (s : State) :
    (s.withAccepted hs n).faultRecord = s.faultRecord := rfl

@[simp] theorem clearDecodeResults_rx (s : State) :
    s.clearDecodeResults.rx = { s.rx with consumed := 0#32, produced := 0#32 } := rfl
@[simp] theorem clearDecodeResults_tx (s : State) : s.clearDecodeResults.tx = s.tx := rfl
@[simp] theorem clearDecodeResults_rxbuf (s : State) : s.clearDecodeResults.rxbuf = s.rxbuf := rfl
@[simp] theorem clearDecodeResults_txbuf (s : State) : s.clearDecodeResults.txbuf = s.txbuf := rfl
@[simp] theorem clearDecodeResults_cbuf (s : State) : s.clearDecodeResults.cbuf = s.cbuf := rfl
@[simp] theorem clearDecodeResults_params (s : State) : s.clearDecodeResults.params = s.params := rfl
@[simp] theorem clearDecodeResults_draws (s : State) : s.clearDecodeResults.draws = s.draws := rfl
@[simp] theorem clearDecodeResults_inputs (s : State) : s.clearDecodeResults.inputs = s.inputs := rfl
@[simp] theorem clearDecodeResults_lastRead (s : State) : s.clearDecodeResults.lastRead = s.lastRead := rfl
@[simp] theorem clearDecodeResults_faultRecord (s : State) : s.clearDecodeResults.faultRecord = s.faultRecord := rfl

@[simp] theorem withDecodeRun_rx (r : DecodeRun) (s : State) : (s.withDecodeRun r).rx =
    { s.rx with consumed := BitVec.ofNat 32 r.consumed, produced := BitVec.ofNat 32 r.produced, utf := r.utf } := rfl
@[simp] theorem withDecodeRun_tx (r : DecodeRun) (s : State) : (s.withDecodeRun r).tx = s.tx := rfl
@[simp] theorem withDecodeRun_rxbuf (r : DecodeRun) (s : State) : (s.withDecodeRun r).rxbuf = s.rxbuf := rfl
@[simp] theorem withDecodeRun_txbuf (r : DecodeRun) (s : State) : (s.withDecodeRun r).txbuf = s.txbuf := rfl
@[simp] theorem withDecodeRun_cbuf (r : DecodeRun) (s : State) : (s.withDecodeRun r).cbuf = r.cbuf := rfl
@[simp] theorem withDecodeRun_params (r : DecodeRun) (s : State) : (s.withDecodeRun r).params = s.params := rfl
@[simp] theorem withDecodeRun_draws (r : DecodeRun) (s : State) : (s.withDecodeRun r).draws = s.draws := rfl
@[simp] theorem withDecodeRun_inputs (r : DecodeRun) (s : State) : (s.withDecodeRun r).inputs = s.inputs := rfl
@[simp] theorem withDecodeRun_lastRead (r : DecodeRun) (s : State) : (s.withDecodeRun r).lastRead = s.lastRead := rfl
@[simp] theorem withDecodeRun_faultRecord (r : DecodeRun) (s : State) :
    (s.withDecodeRun r).faultRecord = s.faultRecord := rfl

@[simp] theorem emptyUtf_rx (s : State) : s.emptyUtf.rx = { s.rx with utf := Utf8State.empty } := rfl
@[simp] theorem emptyUtf_tx (s : State) : s.emptyUtf.tx = s.tx := rfl
@[simp] theorem emptyUtf_rxbuf (s : State) : s.emptyUtf.rxbuf = s.rxbuf := rfl
@[simp] theorem emptyUtf_txbuf (s : State) : s.emptyUtf.txbuf = s.txbuf := rfl
@[simp] theorem emptyUtf_cbuf (s : State) : s.emptyUtf.cbuf = s.cbuf := rfl
@[simp] theorem emptyUtf_params (s : State) : s.emptyUtf.params = s.params := rfl
@[simp] theorem emptyUtf_draws (s : State) : s.emptyUtf.draws = s.draws := rfl
@[simp] theorem emptyUtf_inputs (s : State) : s.emptyUtf.inputs = s.inputs := rfl
@[simp] theorem emptyUtf_lastRead (s : State) : s.emptyUtf.lastRead = s.lastRead := rfl
@[simp] theorem emptyUtf_faultRecord (s : State) : s.emptyUtf.faultRecord = s.faultRecord := rfl

/-! ### Updates of TX_ registers by the commands -/

@[simp] theorem clearFrameResults_tx (s : State) :
    s.clearFrameResults.tx = { s.tx with hsize := 0#32, keyOut := 0#32, fsize := 0#32 } := rfl
@[simp] theorem clearFrameResults_rx (s : State) : s.clearFrameResults.rx = s.rx := rfl
@[simp] theorem clearFrameResults_rxbuf (s : State) : s.clearFrameResults.rxbuf = s.rxbuf := rfl
@[simp] theorem clearFrameResults_txbuf (s : State) : s.clearFrameResults.txbuf = s.txbuf := rfl
@[simp] theorem clearFrameResults_cbuf (s : State) : s.clearFrameResults.cbuf = s.cbuf := rfl
@[simp] theorem clearFrameResults_params (s : State) : s.clearFrameResults.params = s.params := rfl
@[simp] theorem clearFrameResults_draws (s : State) : s.clearFrameResults.draws = s.draws := rfl
@[simp] theorem clearFrameResults_inputs (s : State) : s.clearFrameResults.inputs = s.inputs := rfl
@[simp] theorem clearFrameResults_lastRead (s : State) : s.clearFrameResults.lastRead = s.lastRead := rfl
@[simp] theorem clearFrameResults_faultRecord (s : State) : s.clearFrameResults.faultRecord = s.faultRecord := rfl

@[simp] theorem withFrameResults_tx (key : Word) (s : State) : (s.withFrameResults key).tx =
    { s.tx with hsize := BitVec.ofNat 32 (clientHeaderSize s.tx.len.toNat), keyOut := key,
                fsize := BitVec.ofNat 32 (clientHeaderSize s.tx.len.toNat + s.tx.len.toNat) } := rfl
@[simp] theorem withFrameResults_rx (key : Word) (s : State) : (s.withFrameResults key).rx = s.rx := rfl
@[simp] theorem withFrameResults_rxbuf (key : Word) (s : State) : (s.withFrameResults key).rxbuf = s.rxbuf := rfl
@[simp] theorem withFrameResults_txbuf (key : Word) (s : State) : (s.withFrameResults key).txbuf = s.txbuf := rfl
@[simp] theorem withFrameResults_cbuf (key : Word) (s : State) : (s.withFrameResults key).cbuf = s.cbuf := rfl
@[simp] theorem withFrameResults_params (key : Word) (s : State) : (s.withFrameResults key).params = s.params := rfl
@[simp] theorem withFrameResults_draws (key : Word) (s : State) : (s.withFrameResults key).draws = s.draws := rfl
@[simp] theorem withFrameResults_inputs (key : Word) (s : State) : (s.withFrameResults key).inputs = s.inputs := rfl
@[simp] theorem withFrameResults_lastRead (key : Word) (s : State) :
    (s.withFrameResults key).lastRead = s.lastRead := rfl
@[simp] theorem withFrameResults_faultRecord (key : Word) (s : State) :
    (s.withFrameResults key).faultRecord = s.faultRecord := rfl

/-! ### Reset and fault record -/

@[simp] theorem resetEvent_rx (rest : List Input) (s : State) : (s.resetEvent rest).rx = RxUnit.reset := rfl
@[simp] theorem resetEvent_tx (rest : List Input) (s : State) : (s.resetEvent rest).tx = TxUnit.reset := rfl
@[simp] theorem resetEvent_rxbuf (rest : List Input) (s : State) : (s.resetEvent rest).rxbuf = [] := rfl
@[simp] theorem resetEvent_txbuf (rest : List Input) (s : State) : (s.resetEvent rest).txbuf = [] := rfl
@[simp] theorem resetEvent_cbuf (rest : List Input) (s : State) : (s.resetEvent rest).cbuf = [] := rfl
@[simp] theorem resetEvent_params (rest : List Input) (s : State) : (s.resetEvent rest).params = s.params := rfl
@[simp] theorem resetEvent_draws (rest : List Input) (s : State) : (s.resetEvent rest).draws = s.draws := rfl
@[simp] theorem resetEvent_inputs (rest : List Input) (s : State) : (s.resetEvent rest).inputs = rest := rfl
@[simp] theorem resetEvent_lastRead (rest : List Input) (s : State) : (s.resetEvent rest).lastRead = none := rfl
@[simp] theorem resetEvent_faultRecord (rest : List Input) (s : State) : (s.resetEvent rest).faultRecord = [] := rfl

@[simp] theorem raise_faultRecord (r : Fault) (s : State) : (s.raise r).faultRecord = s.faultRecord ++ [r] := rfl
@[simp] theorem raise_rx (r : Fault) (s : State) : (s.raise r).rx = s.rx := rfl
@[simp] theorem raise_tx (r : Fault) (s : State) : (s.raise r).tx = s.tx := rfl
@[simp] theorem raise_rxbuf (r : Fault) (s : State) : (s.raise r).rxbuf = s.rxbuf := rfl
@[simp] theorem raise_txbuf (r : Fault) (s : State) : (s.raise r).txbuf = s.txbuf := rfl
@[simp] theorem raise_cbuf (r : Fault) (s : State) : (s.raise r).cbuf = s.cbuf := rfl

/-! ### Placing an instruction for the next step -/

@[simp] theorem placeCommand_inputs (u : UnitId) (w : Word) (s : State) :
    (s.placeCommand u w).inputs = .complete u :: s.inputs := rfl
@[simp] theorem placeCommand_faultRecord (u : UnitId) (w : Word) (s : State) : (s.placeCommand u w).faultRecord = [] := rfl
@[simp] theorem placeCommand_status (u : UnitId) (w : Word) (s : State) :
    (s.placeCommand u w).status u = (s.status u).start w := by cases u <;> rfl

end Sys2Proof.Machine
end

