-- ==== Sys2Proof/Laws/Memory.lean ====
section
/-! SUPPORT. The laws of the buffers: read after write, canonical form, bounds, ranges. -/

namespace Sys2Proof.Machine

namespace Memory

variable {α : Type}

@[simp] theorem read_nil (i : Nat) : Memory.read ([] : Memory α) i = none := rfl

theorem read_cons (c : Nat × α) (m : Memory α) (i : Nat) :
    Memory.read (c :: m) i = if c.1 = i then some c.2 else Memory.read m i := rfl

@[simp] theorem read_write_same (m : Memory α) (i : Nat) (v : α) : (Memory.write m i v).read i = some v := by
  induction m with
  | nil => simp [Memory.write, read_cons]
  | cons c m ih =>
    simp only [Memory.write]
    split
    · simp [read_cons]
    · split
      · simp [read_cons]
      · simp only [read_cons, ih]
        rw [if_neg]
        omega

theorem read_write_ne (m : Memory α) {i j : Nat} (v : α) (h : j ≠ i) : (Memory.write m i v).read j = m.read j := by
  have h' : i ≠ j := fun e => h e.symm
  induction m with
  | nil => simp [Memory.write, read_cons, h']
  | cons c m ih =>
    simp only [Memory.write]
    split
    · simp [read_cons, h']
    · split
      · rename_i h2
        subst h2
        simp [read_cons, h']
      · simp only [read_cons, ih]

theorem read_write (m : Memory α) (i j : Nat) (v : α) :
    (Memory.write m i v).read j = if j = i then some v else m.read j := by
  split
  · rename_i h
    subst h
    exact read_write_same m j v
  · exact read_write_ne m v ‹_›

/-! ### Canonical form -/

theorem wf_iff (m : Memory α) : m.wf = true ↔ m.Pairwise fun a b => a.1 < b.1 := by simp [Memory.wf]

@[simp] theorem wf_nil : Memory.wf ([] : Memory α) = true := by simp [wf_iff]

theorem mem_write (m : Memory α) (i : Nat) (v : α) {c : Nat × α} (h : c ∈ Memory.write m i v) :
    c = (i, v) ∨ c ∈ m := by
  induction m with
  | nil => simpa [Memory.write] using h
  | cons d m ih =>
    simp only [Memory.write] at h
    split at h
    · simpa using h
    · split at h
      · rcases List.mem_cons.mp h with h | h
        · exact .inl h
        · exact .inr (List.mem_cons_of_mem _ h)
      · rcases List.mem_cons.mp h with h | h
        · exact .inr (h ▸ List.mem_cons_self)
        · rcases ih h with h | h
          · exact .inl h
          · exact .inr (List.mem_cons_of_mem _ h)

theorem wf_write (m : Memory α) (i : Nat) (v : α) (h : m.wf = true) : (Memory.write m i v).wf = true := by
  rw [wf_iff] at *
  induction m with
  | nil => simp [Memory.write]
  | cons c m ih =>
    rw [List.pairwise_cons] at h
    simp only [Memory.write]
    split
    · rename_i h1
      refine List.pairwise_cons.mpr ⟨fun d hd => ?_, List.pairwise_cons.mpr h⟩
      rcases List.mem_cons.mp hd with hd | hd
      · simpa [hd] using h1
      · exact Nat.lt_trans h1 (h.1 d hd)
    · split
      · rename_i h2
        exact List.pairwise_cons.mpr ⟨fun d hd => by simpa [h2] using h.1 d hd, h.2⟩
      · refine List.pairwise_cons.mpr ⟨fun d hd => ?_, ih h.2⟩
        rcases mem_write m i v hd with hd | hd
        · subst hd
          show c.1 < i
          omega
        · exact h.1 d hd

theorem within_iff (size : Nat) (m : Memory α) : m.within size = true ↔ ∀ c ∈ m, c.1 < size := by
  simp [Memory.within]

@[simp] theorem within_nil (size : Nat) : Memory.within size ([] : Memory α) = true := by simp [within_iff]

theorem within_write {size : Nat} (m : Memory α) {i : Nat} (v : α) (hi : i < size) (h : m.within size = true) :
    (Memory.write m i v).within size = true := by
  rw [within_iff] at *
  intro c hc
  rcases mem_write m i v hc with hc | hc
  · simpa [hc] using hi
  · exact h c hc

/-- A listed element reads as its value in a canonical memory. -/
theorem read_eq_some_iff (m : Memory α) (h : m.wf = true) (i : Nat) (v : α) : m.read i = some v ↔ (i, v) ∈ m := by
  rw [wf_iff] at h
  induction m with
  | nil => simp
  | cons c m ih =>
    rw [List.pairwise_cons] at h
    rw [read_cons, List.mem_cons]
    split
    · rename_i hc
      constructor
      · intro e
        exact .inl (by cases e; exact Prod.ext hc.symm rfl)
      · rintro (e | e)
        · simp [← e]
        · have := h.1 _ e
          simp at this
          omega
    · rename_i hc
      rw [ih h.2]
      constructor
      · exact .inr
      · rintro (e | e)
        · exact absurd (by simp [← e]) hc
        · exact e

/-- Two canonical memories that read the same are equal as data. -/
theorem ext_of_read (m m' : Memory α) (h : m.wf = true) (h' : m'.wf = true) (e : ∀ i, m.read i = m'.read i) :
    m = m' := by
  have mem : ∀ c, c ∈ m ↔ c ∈ m' := fun c => by
    rw [← read_eq_some_iff m h c.1 c.2, ← read_eq_some_iff m' h' c.1 c.2, e]
  rw [wf_iff] at h h'
  exact List.Perm.eq_of_pairwise (le := fun a b : Nat × α => a.1 < b.1)
    (fun a b _ _ hab hba => absurd hab (Nat.lt_asymm hba)) h h'
    ((List.perm_ext_iff_of_nodup (h.imp fun hab e => by subst e; exact Nat.lt_irrefl _ hab)
      (h'.imp fun hab e => by subst e; exact Nat.lt_irrefl _ hab)).mpr mem)

/-! ### Ranges -/

@[simp] theorem writeRange_nil (m : Memory α) (i : Nat) : m.writeRange i [] = m := rfl

@[simp] theorem writeRange_cons (m : Memory α) (i : Nat) (v : α) (vs : List α) :
    m.writeRange i (v :: vs) = (m.write i v).writeRange (i + 1) vs := rfl

theorem writeRange_append (m : Memory α) (i : Nat) (vs ws : List α) :
    m.writeRange i (vs ++ ws) = (m.writeRange i vs).writeRange (i + vs.length) ws := by
  induction vs generalizing m i with
  | nil => simp
  | cons v vs ih =>
    simp only [List.cons_append, writeRange_cons, ih, List.length_cons]
    congr 1
    omega

/-- A read after a range write: the written value inside the range, the old one outside. -/
theorem read_writeRange (m : Memory α) (i j : Nat) (vs : List α) :
    (m.writeRange i vs).read j = if i ≤ j ∧ j < i + vs.length then vs[j - i]? else m.read j := by
  induction vs generalizing m i with
  | nil =>
    rw [writeRange_nil, if_neg]
    simp only [List.length_nil]
    omega
  | cons v vs ih =>
    rw [writeRange_cons, ih, read_write]
    simp only [List.length_cons]
    by_cases h1 : i = j
    · subst h1
      rw [if_neg (by omega), if_pos rfl, if_pos (by omega)]
      simp
    · by_cases h2 : i + 1 ≤ j ∧ j < i + 1 + vs.length
      · rw [if_pos h2, if_pos (by omega), show j - i = (j - (i + 1)) + 1 by omega, List.getElem?_cons_succ]
      · rw [if_neg h2, if_neg (by omega), if_neg (by omega)]

theorem read_writeRange_out (m : Memory α) (i j : Nat) (vs : List α) (h : j < i ∨ i + vs.length ≤ j) :
    (m.writeRange i vs).read j = m.read j := by
  rw [read_writeRange, if_neg]
  omega

theorem read_writeRange_in (m : Memory α) (i k : Nat) (vs : List α) (h : k < vs.length) :
    (m.writeRange i vs).read (i + k) = vs[k]? := by
  rw [read_writeRange, if_pos (by omega)]
  congr 1
  omega

theorem wf_writeRange (m : Memory α) (i : Nat) (vs : List α) (h : m.wf = true) : (m.writeRange i vs).wf = true := by
  induction vs generalizing m i with
  | nil => exact h
  | cons v vs ih => exact ih _ _ (wf_write m i v h)

theorem within_writeRange {size : Nat} (m : Memory α) (i : Nat) (vs : List α) (hi : i + vs.length ≤ size)
    (h : m.within size = true) : (m.writeRange i vs).within size = true := by
  induction vs generalizing m i with
  | nil => exact h
  | cons v vs ih =>
    simp only [List.length_cons] at hi
    exact ih _ _ (by omega) (within_write m v (by omega) h)

@[simp] theorem readRange_zero (m : Memory α) (i : Nat) : m.readRange i 0 = .ok [] := rfl

theorem readRange_succ (m : Memory α) (i n : Nat) : m.readRange i (n + 1) =
    match m.read i with
    | none => .error i
    | some v =>
      match m.readRange (i + 1) n with
      | .error j => .error j
      | .ok vs => .ok (v :: vs) := rfl

/-- Everything a range read can answer with success: the elements, each written. -/
theorem readRange_eq_ok_iff (m : Memory α) (i n : Nat) (vs : List α) :
    m.readRange i n = .ok vs ↔ vs.length = n ∧ ∀ k < n, m.read (i + k) = vs[k]? := by
  induction n generalizing i vs with
  | zero =>
    simp only [readRange_zero, Except.ok.injEq]
    constructor
    · rintro rfl
      simp
    · rintro ⟨h, -⟩
      exact (List.length_eq_zero_iff.mp h).symm
  | succ n ih =>
    rw [readRange_succ]
    constructor
    · intro h
      cases hr : m.read i with
      | none => simp [hr] at h
      | some v =>
        cases hq : m.readRange (i + 1) n with
        | error j => simp [hr, hq] at h
        | ok ws =>
          simp only [hr, hq, Except.ok.injEq] at h
          subst h
          obtain ⟨hl, hk⟩ := (ih _ _).mp hq
          refine ⟨by simp [hl], fun k hkn => ?_⟩
          cases k with
          | zero => simpa using hr
          | succ k =>
            rw [show i + (k + 1) = i + 1 + k by omega, hk k (by omega)]
            simp
    · rintro ⟨hl, hk⟩
      cases vs with
      | nil => simp at hl
      | cons v ws =>
        have h0 := hk 0 (by omega)
        simp only [Nat.add_zero, List.getElem?_cons_zero] at h0
        have hq : m.readRange (i + 1) n = .ok ws := by
          refine (ih _ _).mpr ⟨by simpa using hl, fun k hkn => ?_⟩
          have := hk (k + 1) (by omega)
          rwa [List.getElem?_cons_succ, show i + (k + 1) = i + 1 + k by omega] at this
        simp [h0, hq]

/-- Everything a range read can answer with failure: the first index never written. -/
theorem readRange_eq_error_iff (m : Memory α) (i n j : Nat) :
    m.readRange i n = .error j ↔ (i ≤ j ∧ j < i + n) ∧ m.read j = none ∧ ∀ k, i ≤ k → k < j → (m.read k).isSome := by
  induction n generalizing i with
  | zero => simp only [readRange_zero]; constructor
            · intro h; cases h
            · rintro ⟨h, -⟩; omega
  | succ n ih =>
    rw [readRange_succ]
    cases hr : m.read i with
    | none =>
      simp only [Except.error.injEq]
      constructor
      · rintro rfl
        exact ⟨by omega, hr, fun k h1 h2 => by omega⟩
      · rintro ⟨hj, -, hk⟩
        by_contra hne
        have := hk i (Nat.le_refl _) (by omega)
        simp [hr] at this
    | some v =>
      have key : (match m.readRange (i + 1) n with
          | .error j => (.error j : Except Nat (List α))
          | .ok vs => .ok (v :: vs)) = .error j ↔ m.readRange (i + 1) n = .error j := by
        cases m.readRange (i + 1) n <;> simp
      show (match m.readRange (i + 1) n with
          | .error j => (.error j : Except Nat (List α))
          | .ok vs => .ok (v :: vs)) = .error j ↔ _
      rw [key, ih]
      constructor
      · rintro ⟨hj, hn, hk⟩
        refine ⟨by omega, hn, fun k h1 h2 => ?_⟩
        by_cases h : i = k
        · subst h
          simp [hr]
        · exact hk k (by omega) h2
      · rintro ⟨hj, hn, hk⟩
        refine ⟨⟨?_, by omega⟩, hn, fun k h1 h2 => hk k (by omega) h2⟩
        rcases Nat.lt_or_ge i j with h | h
        · exact h
        · have : i = j := by omega
          subst this
          simp [hr] at hn

theorem readRange_length (m : Memory α) (i n : Nat) (vs : List α) (h : m.readRange i n = .ok vs) : vs.length = n :=
  ((readRange_eq_ok_iff m i n vs).mp h).1

/-- A range inside a range that is read. -/
theorem readRange_sub {m : Memory α} {i n a b : Nat} {vs : List α} (h : m.readRange i n = .ok vs) (hab : a + b ≤ n) :
    m.readRange (i + a) b = .ok ((vs.drop a).take b) := by
  obtain ⟨hl, hk⟩ := (readRange_eq_ok_iff _ _ _ _).mp h
  refine (readRange_eq_ok_iff _ _ _ _).mpr ⟨by simp; omega, fun k hkb => ?_⟩
  rw [Nat.add_assoc, hk (a + k) (by omega), List.getElem?_take, if_pos hkb, List.getElem?_drop]

/-- A range write keeps every written mark. -/
theorem isSome_read_writeRange (m : Memory α) (i j : Nat) (vs : List α) (h : (m.read j).isSome = true) :
    ((m.writeRange i vs).read j).isSome = true := by
  rw [read_writeRange]
  split
  · rw [List.getElem?_eq_getElem (by omega)]
    rfl
  · exact h

/-- The written elements of a range are read whole. -/
theorem readRange_total (m : Memory α) (i n : Nat) (h : ∀ k < n, (m.read (i + k)).isSome) :
    ∃ vs, m.readRange i n = .ok vs := by
  cases hr : m.readRange i n with
  | ok vs => exact ⟨vs, rfl⟩
  | error j =>
    obtain ⟨hj, hn, -⟩ := (readRange_eq_error_iff m i n j).mp hr
    have := h (j - i) (by omega)
    rw [show i + (j - i) = j by omega, hn] at this
    simp at this

/-- A range just written reads back. -/
theorem readRange_writeRange (m : Memory α) (i : Nat) (vs : List α) :
    (m.writeRange i vs).readRange i vs.length = .ok vs :=
  (readRange_eq_ok_iff _ _ _ _).mpr ⟨rfl, fun k hk => read_writeRange_in m i k vs hk⟩

end Memory

end Sys2Proof.Machine
end

