-- ==== Sys2Proof/Laws/FrameCodec.lean ====
section
/-! SUPPORT. What the frame codec commands can do, said once: one equation for each way a command ends, and one inversion
lemma that lists them all. -/

namespace Sys2Proof.Machine

/-! ### Key bytes -/

@[simp] theorem maskBytes_nil (key : Word) (ph : Nat) : maskBytes key ph [] = [] := rfl

@[simp] theorem maskBytes_cons (key : Word) (ph : Nat) (b : Byte) (bs : List Byte) :
    maskBytes key ph (b :: bs) = (b ^^^ keyByte key (ph % 4)) :: maskBytes key (ph + 1) bs := rfl

@[simp] theorem maskBytes_length (key : Word) (ph : Nat) (bs : List Byte) : (maskBytes key ph bs).length = bs.length := by
  induction bs generalizing ph with
  | nil => rfl
  | cons b bs ih => simp [ih]

theorem maskBytes_getElem? (key : Word) (ph : Nat) (bs : List Byte) (i : Nat) :
    (maskBytes key ph bs)[i]? = bs[i]?.map fun b => b ^^^ keyByte key ((ph + i) % 4) := by
  induction bs generalizing ph i with
  | nil => simp
  | cons b bs ih =>
    cases i with
    | zero => simp
    | succ i =>
      rw [maskBytes_cons, List.getElem?_cons_succ, List.getElem?_cons_succ, ih, show ph + 1 + i = ph + (i + 1) by omega]

theorem maskBytes_append (key : Word) (ph : Nat) (as bs : List Byte) :
    maskBytes key ph (as ++ bs) = maskBytes key ph as ++ maskBytes key (ph + as.length) bs := by
  induction as generalizing ph with
  | nil => simp
  | cons a as ih =>
    rw [List.cons_append, maskBytes_cons, ih, maskBytes_cons, List.cons_append, List.length_cons,
      show ph + 1 + as.length = ph + (as.length + 1) by omega]

theorem maskBytes_phase_mod (key : Word) (ph ph' : Nat) (bs : List Byte) (h : ph % 4 = ph' % 4) :
    maskBytes key ph bs = maskBytes key ph' bs := by
  induction bs generalizing ph ph' with
  | nil => rfl
  | cons b bs ih => rw [maskBytes_cons, maskBytes_cons, h, ih (ph + 1) (ph' + 1) (by omega)]

/-- Masking twice gives the bytes back, since `(x ^ k) ^ k = x`. -/
theorem maskBytes_twice (key : Word) (ph : Nat) (bs : List Byte) : maskBytes key ph (maskBytes key ph bs) = bs := by
  induction bs generalizing ph with
  | nil => rfl
  | cons b bs ih =>
    rw [maskBytes_cons, maskBytes_cons, ih, BitVec.xor_assoc, BitVec.xor_self, BitVec.xor_zero]

theorem keyByte_zero (j : Nat) : keyByte 0#32 j = 0#8 := by simp [keyByte]

/-- The masked bytes, each by its index (40_frame_codec.md R111). -/
theorem maskBytes_eq_mapIdx (key : Word) (bs : List Byte) (ph : Nat) :
    maskBytes key ph bs = bs.mapIdx fun i b => b ^^^ keyByte key ((ph + i) % 4) := by
  apply List.ext_getElem?
  intro i
  rw [maskBytes_getElem?]
  simp [List.getElem?_mapIdx]

/-- The key bytes are the big-endian bytes of the key (30_encoding.md R78). -/
theorem beBytes_getElem?_keyByte (key : Word) (j : Nat) (h : j < 4) :
    (beBytes 4 key.toNat)[j]? = some (keyByte key j) := by
  have hj : j = 0 ∨ j = 1 ∨ j = 2 ∨ j = 3 := by omega
  rcases hj with rfl | rfl | rfl | rfl <;>
    simp only [beBytes, keyByte, List.getElem?_cons_zero, List.getElem?_cons_succ, Option.some.injEq] <;>
    apply BitVec.eq_of_toNat_eq <;> rw [BitVec.extractLsb'_toNat, Nat.shiftRight_eq_div_pow] <;> simp

/-! ### Fault-free reads -/

theorem rxByte_eq_ok_iff (s : State) (i : Nat) (b : Byte) : s.rxByte i = .ok b ↔ s.rxbuf.read i = some b := by
  unfold State.rxByte
  cases s.rxbuf.read i <;> simp

theorem rxByte_eq_error_iff (s : State) (i : Nat) (r : Fault) :
    s.rxByte i = .error r ↔ s.rxbuf.read i = none ∧ r = .uninitRead .rxbuf i := by
  unfold State.rxByte
  cases s.rxbuf.read i <;> simp [eq_comm]

theorem rxBytes_eq_ok_iff (s : State) (i n : Nat) (bs : List Byte) :
    s.rxBytes i n = .ok bs ↔ s.rxbuf.readRange i n = .ok bs := by
  unfold State.rxBytes
  cases s.rxbuf.readRange i n <;> simp

theorem rxBytes_eq_error_iff (s : State) (i n : Nat) (r : Fault) :
    s.rxBytes i n = .error r ↔ ∃ j, s.rxbuf.readRange i n = .error j ∧ r = .uninitRead .rxbuf j := by
  unfold State.rxBytes
  cases s.rxbuf.readRange i n <;> simp [eq_comm]

theorem txBytes_eq_ok_iff (s : State) (i n : Nat) (bs : List Byte) :
    s.txBytes i n = .ok bs ↔ s.txbuf.readRange i n = .ok bs := by
  unfold State.txBytes
  cases s.txbuf.readRange i n <;> simp

theorem txBytes_eq_error_iff (s : State) (i n : Nat) (r : Fault) :
    s.txBytes i n = .error r ↔ ∃ j, s.txbuf.readRange i n = .error j ∧ r = .uninitRead .txbuf j := by
  unfold State.txBytes
  cases s.txbuf.readRange i n <;> simp [eq_comm]

theorem rxWindowFits_iff (s : State) :
    s.rxWindowFits = true ↔ s.rx.off.toNat + s.rx.len.toNat ≤ s.params.rxbufSize := by simp [State.rxWindowFits]

theorem cbufWindowFits_iff (s : State) :
    s.cbufWindowFits = true ↔ s.rx.coff.toNat + s.rx.ccap.toNat ≤ s.params.cbufSize := by simp [State.cbufWindowFits]

theorem maskFits_iff (s : State) :
    s.maskFits = true ↔ s.tx.dst.toNat + s.tx.len.toNat ≤ s.params.txbufSize := by simp [State.maskFits]

theorem frameFits_iff (s : State) : s.frameFits = true ↔ s.tx.src.toNat + s.tx.len.toNat ≤ s.params.txbufSize ∧
    s.tx.dst.toNat + clientHeaderSize s.tx.len.toNat + s.tx.len.toNat ≤ s.params.txbufSize := by
  simp [State.frameFits]

/-! ### DEC_HDR -/

section ReceiveHeader

variable {hdr : Except Fault RxHdr} {plen : RxHdr → Except Fault Nat} {s t : State} {h : RxHdr}

/-- The state of DEC_HDR once bytes 0 and 1 are read: RX_HDR and RX_NEED are set, the rest of the result set is 0. -/
def State.headerRead (h : RxHdr) (s : State) : State := (s.clearHeaderResults.withHdr h).withNeed (2 + extSize h.len7)

theorem receiveHeader_useRange (hf : s.rxWindowFits = false) :
    receiveHeader hdr plen s = .next (s.clearHeaderResults.finish .rxu .useRange) := by
  simp [receiveHeader, hf]

theorem receiveHeader_short (hf : s.rxWindowFits = true) (hl : s.rx.len.toNat < 2) :
    receiveHeader hdr plen s = .next ((s.clearHeaderResults.withNeed 2).finish .rxu .needMore) := by
  simp [receiveHeader, hf, hl]

theorem receiveHeader_fault {r : Fault} (hf : s.rxWindowFits = true) (hl : 2 ≤ s.rx.len.toNat) (hh : hdr = .error r) :
    receiveHeader hdr plen s = .fault r := by
  simp [receiveHeader, hf, Nat.not_lt.mpr hl, hh]

theorem receiveHeader_firstBytes {code : StatusCode} (hf : s.rxWindowFits = true) (hl : 2 ≤ s.rx.len.toNat)
    (hh : hdr = .ok h) (he : firstBytesError s.rx.rsvAllow h = some code) :
    receiveHeader hdr plen s = .next ((s.headerRead h).finish .rxu code) := by
  simp [receiveHeader, hf, Nat.not_lt.mpr hl, hh, he, State.headerRead]

theorem receiveHeader_needMore (hf : s.rxWindowFits = true) (hl : 2 ≤ s.rx.len.toNat) (hh : hdr = .ok h)
    (he : firstBytesError s.rx.rsvAllow h = none) (hs : s.rx.len.toNat < 2 + extSize h.len7) :
    receiveHeader hdr plen s = .next ((s.headerRead h).finish .rxu .needMore) := by
  simp [receiveHeader, hf, Nat.not_lt.mpr hl, hh, he, hs, State.headerRead]

theorem receiveHeader_plenFault {r : Fault} (hf : s.rxWindowFits = true) (hl : 2 ≤ s.rx.len.toNat) (hh : hdr = .ok h)
    (he : firstBytesError s.rx.rsvAllow h = none) (hs : 2 + extSize h.len7 ≤ s.rx.len.toNat)
    (hp : plen h = .error r) : receiveHeader hdr plen s = .fault r := by
  simp [receiveHeader, hf, Nat.not_lt.mpr hl, hh, he, Nat.not_lt.mpr hs, hp]

theorem receiveHeader_length {code : StatusCode} {n : Nat} (hf : s.rxWindowFits = true) (hl : 2 ≤ s.rx.len.toNat)
    (hh : hdr = .ok h) (he : firstBytesError s.rx.rsvAllow h = none) (hs : 2 + extSize h.len7 ≤ s.rx.len.toNat)
    (hp : plen h = .ok n) (hc : lengthError s.rx.maxLen h n = some code) :
    receiveHeader hdr plen s = .next ((s.headerRead h).finish .rxu code) := by
  simp [receiveHeader, hf, Nat.not_lt.mpr hl, hh, he, Nat.not_lt.mpr hs, hp, hc, State.headerRead]

theorem receiveHeader_ok {n : Nat} (hf : s.rxWindowFits = true) (hl : 2 ≤ s.rx.len.toNat)
    (hh : hdr = .ok h) (he : firstBytesError s.rx.rsvAllow h = none) (hs : 2 + extSize h.len7 ≤ s.rx.len.toNat)
    (hp : plen h = .ok n) (hc : lengthError s.rx.maxLen h n = none) :
    receiveHeader hdr plen s = .next (((s.headerRead h).withAccepted (2 + extSize h.len7) n).finish .rxu .ok) := by
  simp [receiveHeader, hf, Nat.not_lt.mpr hl, hh, he, Nat.not_lt.mpr hs, hp, hc, State.headerRead]

/-- Every way DEC_HDR can answer a next state. -/
theorem receiveHeader_cases (hn : receiveHeader hdr plen s = .next t) :
    (s.rxWindowFits = false ∧ t = s.clearHeaderResults.finish .rxu .useRange) ∨
    (s.rxWindowFits = true ∧ s.rx.len.toNat < 2 ∧ t = (s.clearHeaderResults.withNeed 2).finish .rxu .needMore) ∨
    (s.rxWindowFits = true ∧ 2 ≤ s.rx.len.toNat ∧ ∃ h, hdr = .ok h ∧
      ((∃ code, firstBytesError s.rx.rsvAllow h = some code ∧ t = (s.headerRead h).finish .rxu code) ∨
       (firstBytesError s.rx.rsvAllow h = none ∧ s.rx.len.toNat < 2 + extSize h.len7 ∧
          t = (s.headerRead h).finish .rxu .needMore) ∨
       (firstBytesError s.rx.rsvAllow h = none ∧ 2 + extSize h.len7 ≤ s.rx.len.toNat ∧ ∃ n, plen h = .ok n ∧
          ((∃ code, lengthError s.rx.maxLen h n = some code ∧ t = (s.headerRead h).finish .rxu code) ∨
           (lengthError s.rx.maxLen h n = none ∧
              t = ((s.headerRead h).withAccepted (2 + extSize h.len7) n).finish .rxu .ok))))) := by
  by_cases hf : s.rxWindowFits = true
  · by_cases hl : s.rx.len.toNat < 2
    · rw [receiveHeader_short hf hl] at hn
      exact .inr (.inl ⟨hf, hl, (Host.Outcome.next.inj hn).symm⟩)
    · have hl : 2 ≤ s.rx.len.toNat := Nat.le_of_not_lt hl
      refine .inr (.inr ⟨hf, hl, ?_⟩)
      cases hh : hdr with
      | error r => rw [receiveHeader_fault hf hl hh] at hn; cases hn
      | ok h =>
        refine ⟨h, rfl, ?_⟩
        cases he : firstBytesError s.rx.rsvAllow h with
        | some code =>
          rw [receiveHeader_firstBytes hf hl hh he] at hn
          exact .inl ⟨code, rfl, (Host.Outcome.next.inj hn).symm⟩
        | none =>
          by_cases hs : s.rx.len.toNat < 2 + extSize h.len7
          · rw [receiveHeader_needMore hf hl hh he hs] at hn
            exact .inr (.inl ⟨rfl, hs, (Host.Outcome.next.inj hn).symm⟩)
          · have hs : 2 + extSize h.len7 ≤ s.rx.len.toNat := Nat.le_of_not_lt hs
            refine .inr (.inr ⟨rfl, hs, ?_⟩)
            cases hp : plen h with
            | error r => rw [receiveHeader_plenFault hf hl hh he hs hp] at hn; cases hn
            | ok n =>
              refine ⟨n, rfl, ?_⟩
              cases hc : lengthError s.rx.maxLen h n with
              | some code =>
                rw [receiveHeader_length hf hl hh he hs hp hc] at hn
                exact .inl ⟨code, rfl, (Host.Outcome.next.inj hn).symm⟩
              | none =>
                rw [receiveHeader_ok hf hl hh he hs hp hc] at hn
                exact .inr ⟨rfl, (Host.Outcome.next.inj hn).symm⟩
  · have hf : s.rxWindowFits = false := by simpa using hf
    rw [receiveHeader_useRange hf] at hn
    exact .inl ⟨hf, (Host.Outcome.next.inj hn).symm⟩

end ReceiveHeader

/-- The checks on bytes 0 and 1 all pass exactly for a header that R82 and R83 allow there. -/
theorem firstBytesError_none_iff (allow : BitVec 3) (h : RxHdr) : firstBytesError allow h = none ↔
    h.rsv &&& ~~~allow = 0#3 ∧ recognized h.opcode = true ∧ h.mask = false ∧
      (isControl h.opcode = true → h.fin = true) := by
  unfold firstBytesError
  split
  · simp_all
  · split
    · simp_all
    · split
      · simp_all
      · split <;> simp_all

/-- The checks on the payload length all pass exactly for a length that R82 and R83 allow. -/
theorem lengthError_none_iff (maxLen : Nat) (h : RxHdr) (n : Nat) : lengthError maxLen h n = none ↔
    (extSize h.len7 = 8 → n < 2 ^ 63) ∧ (isControl h.opcode = true → n ≤ 125) ∧ n ≤ maxLen := by
  unfold lengthError
  split
  · simp_all
  · split
    · simp_all
    · split
      · simp_all
      · simp_all

/-- What DEC_HDR reads of bytes 0 and 1. -/
theorem readHdr_eq_ok {s : State} {b0 b1 : Byte} (h0 : s.rxbuf.read s.rx.off.toNat = some b0)
    (h1 : s.rxbuf.read (s.rx.off.toNat + 1) = some b1) : s.readHdr = .ok (RxHdr.ofBytes b0 b1) := by
  simp [State.readHdr, (rxByte_eq_ok_iff _ _ _).mpr h0, (rxByte_eq_ok_iff _ _ _).mpr h1]

/-- Bytes 0 and 1 of the headers of a wire frame give its RX_HDR. -/
theorem ofBytes_headerBytes (opcode : BitVec 4) (f : FrameFields) :
    RxHdr.ofBytes (headerByte0 f.fin f.rsv opcode) (headerByte1 f.key.isSome f.len.len7Bits) =
      RxHdr.ofFields opcode f := by
  simp [RxHdr.ofBytes, RxHdr.ofFields]

/-- Every fault of DEC_HDR is a fault of one of its readings. -/
theorem receiveHeader_eq_fault {hdr : Except Fault RxHdr} {plen : RxHdr → Except Fault Nat} {s : State} {r : Fault}
    (h : receiveHeader hdr plen s = .fault r) : hdr = .error r ∨ ∃ x, hdr = .ok x ∧ plen x = .error r := by
  unfold receiveHeader at h
  simp only at h
  split at h
  · cases h
  split at h
  · cases h
  cases hdr with
  | error r' =>
    simp only [Host.Outcome.fault.injEq] at h
    exact .inl (by rw [h])
  | ok x =>
    simp only at h
    refine .inr ⟨x, rfl, ?_⟩
    split at h
    · cases h
    split at h
    · cases h
    split at h
    · rename_i hq
      cases h
      exact hq
    · split at h <;> cases h

/-- DEC_HDR depends on its readings only, and on the length reading only for the header read. -/
theorem receiveHeader_congr {hdr hdr' : Except Fault RxHdr} {plen plen' : RxHdr → Except Fault Nat} {s : State}
    (h : hdr = hdr') (hp : ∀ x, hdr = .ok x → plen x = plen' x) :
    receiveHeader hdr plen s = receiveHeader hdr' plen' s := by
  subst h
  unfold receiveHeader
  cases hdr with
  | error r => rfl
  | ok x => simp only [hp x rfl]

/-- What DEC_HDR reads of the payload length, when the length bytes are written. -/
theorem readPlen_eq_ok {s : State} {h : RxHdr} {ext : List Byte}
    (hr : s.rxbuf.readRange (s.rx.off.toNat + 2) (extSize h.len7) = .ok ext) :
    s.readPlen h = .ok (if extSize h.len7 = 0 then h.len7.toNat else beValue ext) := by
  unfold State.readPlen
  split
  · rfl
  · rw [(rxBytes_eq_ok_iff _ _ _ _).mpr hr]

/-- What DEC_HDR reads from a window of RXBUF that begins with the header bytes of a frame. -/
theorem readings_of_headerBytes {s : State} {opcode : BitVec 4} {f : FrameFields} (hf : f.wf = true) {k : Nat}
    {rest : List Byte} (h : s.rxbuf.readRange s.rx.off.toNat k = .ok (headerBytes opcode f ++ rest)) :
    s.readHdr = .ok (RxHdr.ofFields opcode f) ∧ s.readPlen (RxHdr.ofFields opcode f) = .ok f.len.value := by
  have hl := Memory.readRange_length _ _ _ _ h
  rw [List.length_append, headerBytes_length _ _ hf] at hl
  obtain ⟨-, hk⟩ := (Memory.readRange_eq_ok_iff _ _ _ _).mp h
  have h0 := hk 0 (by omega)
  have h1 := hk 1 (by omega)
  simp only [headerBytes, List.cons_append, List.getElem?_cons_zero, List.getElem?_cons_succ, Nat.add_zero] at h0 h1
  refine ⟨by rw [readHdr_eq_ok h0 h1, ofBytes_headerBytes], ?_⟩
  have h2 := Memory.readRange_sub h (a := 2) (b := extSize f.len.len7Bits) (by omega)
  have h3 : ((headerBytes opcode f ++ rest).drop 2).take (extSize f.len.len7Bits) = f.len.extBytes := by
    simp only [headerBytes, List.cons_append, List.drop_succ_cons, List.drop_zero, List.append_assoc]
    rw [← extBytes_length _ (show f.len.wf = true from hf), List.take_left]
  rw [h3] at h2
  rw [readPlen_eq_ok (h := RxHdr.ofFields opcode f) h2]
  congr 1
  exact value_of_extBytes _ (show f.len.wf = true from hf)

/-- A length that is not in the 64-bit form is small. -/
theorem readPlen_lt {s : State} {h : RxHdr} {n : Nat} (hp : s.readPlen h = .ok n) (h8 : extSize h.len7 ≠ 8) :
    n < 2 ^ 63 := by
  unfold State.readPlen at hp
  split at hp
  · cases hp
    have := h.len7.isLt
    omega
  · cases hr : s.rxBytes (s.rx.off.toNat + 2) (extSize h.len7) with
    | error r => rw [hr] at hp; cases hp
    | ok bs =>
      rw [hr] at hp
      cases hp
      rw [rxBytes_eq_ok_iff] at hr
      have hl := Memory.readRange_length _ _ _ _ hr
      have := beValue_lt bs
      rcases extSize_cases h.len7 with ⟨e, -⟩ | ⟨e, -⟩ | ⟨e, -⟩
      · contradiction
      · rw [hl, e] at this
        omega
      · contradiction

/-! ### ENC_FRAME -/

theorem clientHeaderSize_eq (len : Nat) :
    clientHeaderSize len = 6 + (if len ≤ 125 then 0 else if len ≤ 65535 then 2 else 8) := by
  unfold clientHeaderSize
  split
  · rfl
  · split <;> rfl

theorem clientHeaderSize_cases (len : Nat) :
    clientHeaderSize len = 6 ∨ clientHeaderSize len = 8 ∨ clientHeaderSize len = 14 := by
  unfold clientHeaderSize
  split
  · exact .inl rfl
  · split
    · exact .inr (.inl rfl)
    · exact .inr (.inr rfl)

@[simp] theorem clientFrame_length (c : TxCtl) (key : Word) (payload : List Byte) :
    (clientFrame c key payload).length = clientHeaderSize payload.length + payload.length := by
  rw [clientFrame, List.length_append, maskBytes_length, encodeHeader_length, clientHeaderSize_eq]

section EncodeFrame

variable {draw : Word} {s t : State}

/-- The key ENC_FRAME uses: 0 for an empty payload, the draw otherwise (10_state.md R40). -/
def frameKey (draw : Word) (len : Nat) : Word := if len = 0 then 0#32 else draw

/-- What ENC_FRAME leaves when it finishes OK. -/
def State.frameWritten (key : Word) (payload : List Byte) (s : State) : State :=
  (State.withFrameResults key { s.clearFrameResults with
    txbuf := s.txbuf.writeRange s.tx.dst.toNat (clientFrame s.tx.ctl key payload)
    draws := s.draws + drawsFor s.tx.len.toNat }).finish .txu .ok

theorem encodeFrame_useRange (hf : s.frameFits = false) :
    encodeFrame draw s = .next (s.clearFrameResults.finish .txu .useRange) := by
  simp [encodeFrame, hf]

theorem encodeFrame_error {code : StatusCode} (hf : s.frameFits = true)
    (he : encodeError s.tx.rsvAllow s.tx.ctl s.tx.len.toNat = some code) :
    encodeFrame draw s = .next (s.clearFrameResults.finish .txu code) := by
  simp [encodeFrame, hf, he]

theorem encodeFrame_fault {r : Fault} (hf : s.frameFits = true)
    (he : encodeError s.tx.rsvAllow s.tx.ctl s.tx.len.toNat = none)
    (hp : s.txBytes s.tx.src.toNat s.tx.len.toNat = .error r) : encodeFrame draw s = .fault r := by
  simp [encodeFrame, hf, he, hp]

theorem encodeFrame_ok {payload : List Byte} (hf : s.frameFits = true)
    (he : encodeError s.tx.rsvAllow s.tx.ctl s.tx.len.toNat = none)
    (hp : s.txBytes s.tx.src.toNat s.tx.len.toNat = .ok payload) :
    encodeFrame draw s = .next (s.frameWritten (frameKey draw s.tx.len.toNat) payload) := by
  simp [encodeFrame, hf, he, hp, State.frameWritten, frameKey]

/-- Every way ENC_FRAME can answer a next state. -/
theorem encodeFrame_cases (hn : encodeFrame draw s = .next t) :
    (s.frameFits = false ∧ t = s.clearFrameResults.finish .txu .useRange) ∨
    (s.frameFits = true ∧ ∃ code, encodeError s.tx.rsvAllow s.tx.ctl s.tx.len.toNat = some code ∧
      t = s.clearFrameResults.finish .txu code) ∨
    (s.frameFits = true ∧ encodeError s.tx.rsvAllow s.tx.ctl s.tx.len.toNat = none ∧
      ∃ payload, s.txBytes s.tx.src.toNat s.tx.len.toNat = .ok payload ∧
        t = s.frameWritten (frameKey draw s.tx.len.toNat) payload) := by
  by_cases hf : s.frameFits = true
  · refine .inr ?_
    cases he : encodeError s.tx.rsvAllow s.tx.ctl s.tx.len.toNat with
    | some code =>
      rw [encodeFrame_error hf he] at hn
      exact .inl ⟨hf, code, rfl, (Host.Outcome.next.inj hn).symm⟩
    | none =>
      cases hp : s.txBytes s.tx.src.toNat s.tx.len.toNat with
      | error r => rw [encodeFrame_fault hf he hp] at hn; cases hn
      | ok payload =>
        rw [encodeFrame_ok hf he hp] at hn
        exact .inr ⟨hf, rfl, payload, rfl, (Host.Outcome.next.inj hn).symm⟩
  · have hf : s.frameFits = false := by simpa using hf
    rw [encodeFrame_useRange hf] at hn
    exact .inl ⟨hf, (Host.Outcome.next.inj hn).symm⟩

end EncodeFrame

/-- The checks of ENC_FRAME all pass exactly for a frame that R82 and R83 allow. -/
theorem encodeError_none_iff (allow : BitVec 3) (c : TxCtl) (len : Nat) : encodeError allow c len = none ↔
    c.rsv &&& ~~~allow = 0#3 ∧ recognized c.opcode = true ∧
      (isControl c.opcode = true → c.fin = true ∧ len ≤ 125) := by
  unfold encodeError
  split
  · simp_all
  · split
    · simp_all
    · split
      · simp_all
      · split
        · simp_all
        · simp_all

/-- The checks of ENC_FRAME never answer OK. -/
theorem encodeError_ne_ok {allow : BitVec 3} {c : TxCtl} {len : Nat} {code : StatusCode}
    (h : encodeError allow c len = some code) : code ≠ .ok := by
  unfold encodeError at h
  split_ifs at h <;> cases h <;> decide

/-- The checks on bytes 0 and 1 never answer OK or NEED_MORE. -/
theorem firstBytesError_ne {allow : BitVec 3} {h : RxHdr} {code : StatusCode} (he : firstBytesError allow h = some code) :
    code = .protoRsv ∨ code = .protoOpcode ∨ code = .protoMasked ∨ code = .protoCtrlFrag := by
  unfold firstBytesError at he
  split_ifs at he <;> cases he <;> simp

/-- The checks on the length never answer OK or NEED_MORE. -/
theorem lengthError_ne {maxLen n : Nat} {h : RxHdr} {code : StatusCode} (he : lengthError maxLen h n = some code) :
    code = .protoLen64 ∨ code = .protoCtrlLen ∨ code = .resTooLarge := by
  unfold lengthError at he
  split_ifs at he <;> cases he <;> simp

/-- The key source never answers 0 (10_state.md R40). -/
theorem drawKey_ne_zero (n : Nat) : drawKey n ≠ 0#32 := by
  intro h
  have := congrArg BitVec.toNat h
  rw [drawKey, BitVec.toNat_ofNat] at this
  have hlt := Nat.mod_lt (Config.freeKey n) (show 2 ^ 32 - 1 > 0 by decide)
  rw [Nat.mod_eq_of_lt (by omega)] at this
  simp at this

/-- The key of a frame is 0 exactly for an empty payload (10_state.md R40). -/
theorem frameKey_drawKey_eq_zero_iff (n len : Nat) : frameKey (drawKey n) len = 0#32 ↔ len = 0 := by
  unfold frameKey
  split
  · simp [*]
  · simp [*, drawKey_ne_zero]

/-! ### XOR_MASK -/

/-- What XOR_MASK leaves when it finishes OK on the bytes `bs`. -/
def State.masked (bs : List Byte) (s : State) : State :=
  State.finish .txu .ok { s with
    txbuf := s.txbuf.writeRange s.tx.dst.toNat (maskBytes s.tx.key s.tx.phase.toNat bs) }

section XorMask

variable {s t : State}

theorem execXorMask_useRange (hf : s.maskFits = false) : execXorMask s = .next (s.finish .txu .useRange) := by
  simp [execXorMask, hf]

theorem execXorMask_fault {r : Fault} (hf : s.maskFits = true)
    (hp : s.txBytes s.tx.dst.toNat s.tx.len.toNat = .error r) : execXorMask s = .fault r := by
  simp [execXorMask, hf, hp]

theorem execXorMask_ok {bs : List Byte} (hf : s.maskFits = true)
    (hp : s.txBytes s.tx.dst.toNat s.tx.len.toNat = .ok bs) : execXorMask s = .next (s.masked bs) := by
  simp [execXorMask, hf, hp, State.masked]

/-- Every way XOR_MASK can answer a next state. -/
theorem execXorMask_cases (hn : execXorMask s = .next t) :
    (s.maskFits = false ∧ t = s.finish .txu .useRange) ∨
    (s.maskFits = true ∧ ∃ bs, s.txBytes s.tx.dst.toNat s.tx.len.toNat = .ok bs ∧ t = s.masked bs) := by
  by_cases hf : s.maskFits = true
  · cases hp : s.txBytes s.tx.dst.toNat s.tx.len.toNat with
    | error r => rw [execXorMask_fault hf hp] at hn; cases hn
    | ok bs =>
      rw [execXorMask_ok hf hp] at hn
      exact .inr ⟨hf, bs, rfl, (Host.Outcome.next.inj hn).symm⟩
  · have hf : s.maskFits = false := by simpa using hf
    rw [execXorMask_useRange hf] at hn
    exact .inl ⟨hf, (Host.Outcome.next.inj hn).symm⟩

end XorMask

@[simp] theorem headerRead_rx (h : RxHdr) (s : State) : (s.headerRead h).rx =
    { s.rx with hdr := h, hsize := 0#32, need := BitVec.ofNat 32 (2 + extSize h.len7), plen := 0#64, payOff := 0#32,
                fsize := 0#64 } := rfl
@[simp] theorem headerRead_tx (h : RxHdr) (s : State) : (s.headerRead h).tx = s.tx := rfl
@[simp] theorem headerRead_rxbuf (h : RxHdr) (s : State) : (s.headerRead h).rxbuf = s.rxbuf := rfl
@[simp] theorem headerRead_txbuf (h : RxHdr) (s : State) : (s.headerRead h).txbuf = s.txbuf := rfl
@[simp] theorem headerRead_cbuf (h : RxHdr) (s : State) : (s.headerRead h).cbuf = s.cbuf := rfl
@[simp] theorem headerRead_params (h : RxHdr) (s : State) : (s.headerRead h).params = s.params := rfl
@[simp] theorem headerRead_draws (h : RxHdr) (s : State) : (s.headerRead h).draws = s.draws := rfl
@[simp] theorem headerRead_inputs (h : RxHdr) (s : State) : (s.headerRead h).inputs = s.inputs := rfl
@[simp] theorem headerRead_lastRead (h : RxHdr) (s : State) : (s.headerRead h).lastRead = s.lastRead := rfl
@[simp] theorem headerRead_faultRecord (h : RxHdr) (s : State) : (s.headerRead h).faultRecord = s.faultRecord := rfl

@[simp] theorem frameWritten_tx (key : Word) (p : List Byte) (s : State) : (s.frameWritten key p).tx =
    { s.tx with status := UnitStatus.finished .ok, hsize := BitVec.ofNat 32 (clientHeaderSize s.tx.len.toNat),
                keyOut := key, fsize := BitVec.ofNat 32 (clientHeaderSize s.tx.len.toNat + s.tx.len.toNat) } := rfl
@[simp] theorem frameWritten_rx (key : Word) (p : List Byte) (s : State) : (s.frameWritten key p).rx = s.rx := rfl
@[simp] theorem frameWritten_rxbuf (key : Word) (p : List Byte) (s : State) : (s.frameWritten key p).rxbuf = s.rxbuf := rfl
@[simp] theorem frameWritten_cbuf (key : Word) (p : List Byte) (s : State) : (s.frameWritten key p).cbuf = s.cbuf := rfl
@[simp] theorem frameWritten_txbuf (key : Word) (p : List Byte) (s : State) : (s.frameWritten key p).txbuf =
    s.txbuf.writeRange s.tx.dst.toNat (clientFrame s.tx.ctl key p) := rfl
@[simp] theorem frameWritten_params (key : Word) (p : List Byte) (s : State) : (s.frameWritten key p).params = s.params := rfl
@[simp] theorem frameWritten_draws (key : Word) (p : List Byte) (s : State) :
    (s.frameWritten key p).draws = s.draws + drawsFor s.tx.len.toNat := rfl
@[simp] theorem frameWritten_inputs (key : Word) (p : List Byte) (s : State) : (s.frameWritten key p).inputs = s.inputs := rfl
@[simp] theorem frameWritten_lastRead (key : Word) (p : List Byte) (s : State) :
    (s.frameWritten key p).lastRead = s.lastRead := rfl
@[simp] theorem frameWritten_faultRecord (key : Word) (p : List Byte) (s : State) :
    (s.frameWritten key p).faultRecord = s.faultRecord := rfl

@[simp] theorem masked_tx (bs : List Byte) (s : State) :
    (s.masked bs).tx = { s.tx with status := UnitStatus.finished .ok } := rfl
@[simp] theorem masked_rx (bs : List Byte) (s : State) : (s.masked bs).rx = s.rx := rfl
@[simp] theorem masked_rxbuf (bs : List Byte) (s : State) : (s.masked bs).rxbuf = s.rxbuf := rfl
@[simp] theorem masked_cbuf (bs : List Byte) (s : State) : (s.masked bs).cbuf = s.cbuf := rfl
@[simp] theorem masked_txbuf (bs : List Byte) (s : State) : (s.masked bs).txbuf =
    s.txbuf.writeRange s.tx.dst.toNat (maskBytes s.tx.key s.tx.phase.toNat bs) := rfl
@[simp] theorem masked_params (bs : List Byte) (s : State) : (s.masked bs).params = s.params := rfl
@[simp] theorem masked_draws (bs : List Byte) (s : State) : (s.masked bs).draws = s.draws := rfl
@[simp] theorem masked_inputs (bs : List Byte) (s : State) : (s.masked bs).inputs = s.inputs := rfl
@[simp] theorem masked_lastRead (bs : List Byte) (s : State) : (s.masked bs).lastRead = s.lastRead := rfl
@[simp] theorem masked_faultRecord (bs : List Byte) (s : State) : (s.masked bs).faultRecord = s.faultRecord := rfl

end Sys2Proof.Machine
end

