-- ==== Sys2Proof/Laws/PerInstr.lean ====
section
/-! SUPPORT. A law stated per instruction: the sizes of encodings. -/

namespace Sys2Proof.Laws

/-- The size of a well-formed instruction's encoding: a command word has 4 bytes (30_encoding.md R89), a wire header has
HS = 2 + ext(LEN7) + 4·MASK bytes (R77). -/
def EncodedSize.Statement (i : Instr) : Prop :=
  i.wf = true → (encode i).size = 4 ∨ (encode i).size = 2 ∨ (encode i).size = 10 ∨ (encode i).size = 6 ∨
    (encode i).size = 8 ∨ (encode i).size = 14

/-- HS is one of its six values (30_encoding.md R77). -/
theorem headerBytes_length_cases (opcode : BitVec 4) (f : FrameFields) (h : f.wf = true) :
    (headerBytes opcode f).length = 4 ∨ (headerBytes opcode f).length = 2 ∨ (headerBytes opcode f).length = 10 ∨
      (headerBytes opcode f).length = 6 ∨ (headerBytes opcode f).length = 8 ∨ (headerBytes opcode f).length = 14 := by
  rw [headerBytes_length _ _ h]
  rcases extSize_cases f.len.len7Bits with ⟨e, -⟩ | ⟨e, -⟩ | ⟨e, -⟩ <;> rw [e] <;> split <;> simp

theorem EncodedSize.decHdr : EncodedSize.Statement .decHdr := fun _ => .inl rfl
theorem EncodedSize.encFrame : EncodedSize.Statement .encFrame := fun _ => .inl rfl
theorem EncodedSize.xorMask : EncodedSize.Statement .xorMask := fun _ => .inl rfl
theorem EncodedSize.utfReset : EncodedSize.Statement .utfReset := fun _ => .inl rfl
theorem EncodedSize.utfDecode : EncodedSize.Statement .utfDecode := fun _ => .inl rfl
theorem EncodedSize.utfDecodeE : EncodedSize.Statement .utfDecodeE := fun _ => .inl rfl
theorem EncodedSize.utfFinish : EncodedSize.Statement .utfFinish := fun _ => .inl rfl
theorem EncodedSize.frameContinuation (f : FrameFields) : EncodedSize.Statement (.frameContinuation f) :=
  fun h => headerBytes_length_cases 0x0#4 f h
theorem EncodedSize.frameText (f : FrameFields) : EncodedSize.Statement (.frameText f) :=
  fun h => headerBytes_length_cases 0x1#4 f h
theorem EncodedSize.frameBinary (f : FrameFields) : EncodedSize.Statement (.frameBinary f) :=
  fun h => headerBytes_length_cases 0x2#4 f h
theorem EncodedSize.frameClose (f : FrameFields) : EncodedSize.Statement (.frameClose f) :=
  fun h => headerBytes_length_cases 0x8#4 f h
theorem EncodedSize.framePing (f : FrameFields) : EncodedSize.Statement (.framePing f) :=
  fun h => headerBytes_length_cases 0x9#4 f h
theorem EncodedSize.framePong (f : FrameFields) : EncodedSize.Statement (.framePong f) :=
  fun h => headerBytes_length_cases 0xA#4 f h

end Sys2Proof.Laws
end

