-- ==== Sys2Proof/Laws/Registers.lean ====
section
/-! SUPPORT. The words of registers as values of their fields (spec/10_state.md R22, R26, R30, R32, R33, R35 to R37, R39),
and what a write of a register leaves (R24, spec/20_memory.md R57). -/

namespace Sys2Proof.Machine

/-! ### Register words -/

/-- A concatenation as a value. -/
theorem toNat_append_mul {n k : Nat} (x : BitVec n) (y : BitVec k) : (x ++ y).toNat = x.toNat * 2 ^ k + y.toNat := by
  rw [BitVec.toNat_append, ← Nat.shiftLeft_add_eq_or_of_lt y.isLt, Nat.shiftLeft_eq]

/-- The STATUS word (10_state.md R22). -/
theorem UnitStatus.word_toNat (u : UnitStatus) :
    u.word.toNat = u.pending.isSome.toNat + 2 * u.done.toNat + 256 * u.code.toByte.toNat := by
  simp only [UnitStatus.word, UnitStatus.busy, toNat_append_mul, BitVec.toNat_ofBool, BitVec.toNat_ofNat]
  omega

/-- RX_HDR (10_state.md R30). -/
theorem RxHdr.word_toNat (h : RxHdr) : h.word.toNat = h.opcode.toNat + 2 ^ 4 * h.rsv.toNat + 2 ^ 7 * h.fin.toNat +
    2 ^ 8 * h.len7.toNat + 2 ^ 15 * h.mask.toNat + 2 ^ 16 * h.ctrl.toNat := by
  simp only [RxHdr.word, toNat_append_mul, BitVec.toNat_ofBool, BitVec.toNat_ofNat]
  omega

/-- RX_UTF (10_state.md R35). -/
theorem Utf8State.word_toNat (u : Utf8State) :
    u.word.toNat = u.cp.toNat + 2 ^ 21 * u.rem.toNat + 2 ^ 23 * u.seqLen.toNat := by
  simp only [Utf8State.word, toNat_append_mul, BitVec.toNat_ofNat]
  omega

/-- TX_CTL (10_state.md R37). -/
theorem TxCtl.word_toNat (c : TxCtl) : c.word.toNat = c.opcode.toNat + 2 ^ 4 * c.rsv.toNat + 2 ^ 7 * c.fin.toNat := by
  simp only [TxCtl.word, toNat_append_mul, BitVec.toNat_ofBool, BitVec.toNat_ofNat]
  omega

/-- RX_CFG (10_state.md R26). -/
theorem readReg_rxCfg_toNat (s : State) :
    (s.readReg .rxCfg).toNat = s.rx.rsvAllow.toNat + 8 * s.rx.utfStrict.toNat := by
  simp only [State.readReg, toNat_append_mul, BitVec.toNat_ofBool, BitVec.toNat_ofNat]
  omega

/-- TX_CFG (10_state.md R36). -/
theorem readReg_txCfg_toNat (s : State) : (s.readReg .txCfg).toNat = s.tx.rsvAllow.toNat := by
  simp only [State.readReg, toNat_append_mul, BitVec.toNat_ofNat]
  omega

/-- TX_PHASE (10_state.md R39). -/
theorem readReg_txPhase_toNat (s : State) : (s.readReg .txPhase).toNat = s.tx.phase.toNat := by
  simp only [State.readReg, toNat_append_mul, BitVec.toNat_ofNat]
  omega

/-- The low register of a 64-bit pair (10_state.md R32, R33). -/
theorem low_toNat (v : DWord) : (v.extractLsb' 0 32).toNat = v.toNat % 2 ^ 32 := by simp

/-- The high register of a 64-bit pair (10_state.md R32, R33). -/
theorem high_toNat (v : DWord) : (v.extractLsb' 32 32).toNat = v.toNat / 2 ^ 32 := by
  have := v.isLt
  rw [BitVec.extractLsb'_toNat, Nat.shiftRight_eq_div_pow]
  omega

/-- RX_HDR of header bytes 0 and 1 is those bytes, and CTRL above them (10_state.md R30). -/
theorem RxHdr.word_ofBytes (b0 b1 : Byte) :
    (RxHdr.ofBytes b0 b1).word = BitVec.setWidth 16 (BitVec.ofBool (isControl (b0.extractLsb' 0 4))) ++ b1 ++ b0 := by
  have e0 : b0.toNat = (b0.extractLsb' 0 4).toNat + 2 ^ 4 * (b0.extractLsb' 4 3).toNat + 2 ^ 7 * (b0.getLsbD 7).toNat := by
    revert b0
    decide
  have e1 : b1.toNat = (b1.extractLsb' 0 7).toNat + 2 ^ 7 * (b1.getLsbD 7).toNat := by
    revert b1
    decide
  apply BitVec.eq_of_toNat_eq
  rw [RxHdr.word_toNat]
  simp only [toNat_append_mul, BitVec.toNat_setWidth, BitVec.toNat_ofBool]
  have hc : (isControl (b0.extractLsb' 0 4)).toNat ≤ 1 := Bool.toNat_le _
  simp only [RxHdr.ofBytes, opcodeOf, rsvOf, finOf, len7Of, maskOf]
  omega

/-! ### Register writes -/

/-- What every register write leaves: the buffers, the model's own fields, and the status of a unit whose command register
it is not (10_state.md R24, 20_memory.md R57). -/
theorem writeReg_leaves (s : State) (v : Word) (r : Reg) :
    (s.writeReg v r).rxbuf = s.rxbuf ∧ (s.writeReg v r).txbuf = s.txbuf ∧ (s.writeReg v r).cbuf = s.cbuf ∧
      (s.writeReg v r).params = s.params ∧ (s.writeReg v r).faultRecord = s.faultRecord ∧
      (s.writeReg v r).inputs = s.inputs ∧ (s.writeReg v r).lastRead = s.lastRead ∧
      (s.writeReg v r).draws = s.draws ∧
      ∀ u, (r.kind = .wo → u ≠ r.unit) → (s.writeReg v r).status u = s.status u := by
  cases r <;> refine ⟨rfl, rfl, rfl, rfl, rfl, rfl, rfl, rfl, fun u hu => ?_⟩ <;> cases u <;>
    first | rfl | exact absurd rfl (hu rfl)

/-- A write of a read-only register is ignored (10_state.md R24). -/
theorem writeReg_ro (s : State) (v : Word) {r : Reg} (h : r.kind = .ro) : s.writeReg v r = s := by
  cases r <;> first | rfl | cases h

end Sys2Proof.Machine
end

