-- ==== Sys2Proof/Laws/Utf8.lean ====
section
/-! SUPPORT. What the UTF-8 commands can do, said once: the outcomes of the byte step, how its state invariant is kept,
how the loop of UTF_DECODE composes, and the ways a command ends. -/

namespace Sys2Proof.Machine

/-! ### The byte step -/

theorem Utf8State.empty_inv : Utf8State.empty.Inv := .inl ⟨rfl, rfl, rfl⟩

/-- A state of the invariant with REM = 0 is the empty state (10_state.md R43). -/
theorem Utf8State.eq_empty {u : Utf8State} (h : u.Inv) (hr : u.rem = 0#2) : u = Utf8State.empty := by
  rcases h with ⟨h1, h2, h3⟩ | ⟨-, ⟨h1, -⟩, -⟩
  · cases u
    simp_all [Utf8State.empty]
  · rw [hr] at h1
    simp at h1

/-- Every outcome of the step on a leading byte (41_utf8_validator.md R130). -/
theorem utf8Lead_cases (b : Byte) :
    (b ≤ 0x7F#8 ∧ utf8Lead b = .emit [b.setWidth 16] Utf8State.empty) ∨
    (b &&& 0xE0#8 = 0xC0#8 ∧ utf8Lead b = .pend { cp := (b &&& 0x1F#8).setWidth 21, rem := 1#2, seqLen := 2#3 }) ∨
    (b &&& 0xF0#8 = 0xE0#8 ∧ utf8Lead b = .pend { cp := (b &&& 0x0F#8).setWidth 21, rem := 2#2, seqLen := 3#3 }) ∨
    (b &&& 0xF8#8 = 0xF0#8 ∧ utf8Lead b = .pend { cp := (b &&& 0x07#8).setWidth 21, rem := 3#2, seqLen := 4#3 }) ∨
    utf8Lead b = .err .utfBadLead := by
  unfold utf8Lead
  split
  · exact .inl ⟨‹_›, rfl⟩
  · split
    · exact .inr (.inl ⟨‹_›, rfl⟩)
    · split
      · exact .inr (.inr (.inl ⟨‹_›, rfl⟩))
      · split
        · exact .inr (.inr (.inr (.inl ⟨‹_›, rfl⟩)))
        · exact .inr (.inr (.inr (.inr rfl)))

/-- Every outcome of the step on a continuation byte (41_utf8_validator.md R130). -/
theorem utf8Continue_cases (u : Utf8State) (b : Byte) (strict : Bool) :
    (b &&& 0xC0#8 ≠ 0x80#8 ∧ utf8Continue u b strict = .err .utfBadCont) ∨
    (1#2 < u.rem ∧ utf8Continue u b strict =
      .pend { cp := BitVec.ofNat 21 (extendCodepoint u.cp b), rem := u.rem - 1#2, seqLen := u.seqLen }) ∨
    (¬ 1#2 < u.rem ∧ validCodepoint (extendCodepoint u.cp b) u.seqLen.toNat strict = false ∧
      utf8Continue u b strict = .err .utfBadCp) ∨
    (¬ 1#2 < u.rem ∧ validCodepoint (extendCodepoint u.cp b) u.seqLen.toNat strict = true ∧
      utf8Continue u b strict = .emit (codeUnits (extendCodepoint u.cp b)) Utf8State.empty) := by
  unfold utf8Continue
  split
  · exact .inl ⟨‹_›, rfl⟩
  · refine .inr ?_
    split
    · exact .inl ⟨‹_›, rfl⟩
    · split
      · exact .inr (.inl ⟨‹_›, by simp_all, rfl⟩)
      · exact .inr (.inr ⟨‹_›, by simp_all, rfl⟩)

/-- `cp·64 + (b & 0x3F)`: the new bits do not overlap the old ones. -/
theorem extendCodepoint_eq (cp : BitVec 21) (b : Byte) :
    extendCodepoint cp b = cp.toNat * 64 + (b &&& 0x3F#8).toNat ∧ (b &&& 0x3F#8).toNat < 64 := by
  have h : (b &&& 0x3F#8).toNat < 2 ^ 6 := by
    rw [BitVec.toNat_and]
    exact Nat.lt_of_le_of_lt Nat.and_le_right (by decide)
  refine ⟨?_, h⟩
  rw [extendCodepoint, Nat.shiftLeft_eq, Nat.mul_comm, ← Nat.two_pow_add_eq_or_of_lt h, Nat.mul_comm]

/-- The step's errors are the three UTF-8 protocol errors (60_exceptions.md R160). -/
theorem utf8Step_err {u : Utf8State} {b : Byte} {strict : Bool} {code : StatusCode}
    (h : utf8Step u b strict = .err code) : code = .utfBadLead ∨ code = .utfBadCont ∨ code = .utfBadCp := by
  unfold utf8Step at h
  split at h
  · rcases utf8Lead_cases b with ⟨-, e⟩ | ⟨-, e⟩ | ⟨-, e⟩ | ⟨-, e⟩ | e <;> rw [e] at h <;> cases h
    exact .inl rfl
  · rcases utf8Continue_cases u b strict with ⟨-, e⟩ | ⟨-, e⟩ | ⟨-, -, e⟩ | ⟨-, -, e⟩ <;> rw [e] at h <;> cases h
    · exact .inr (.inl rfl)
    · exact .inr (.inr rfl)

/-- An emitting step leaves the empty state. -/
theorem utf8Step_emit {u u' : Utf8State} {b : Byte} {strict : Bool} {us : List CodeUnit}
    (h : utf8Step u b strict = .emit us u') : u' = Utf8State.empty := by
  unfold utf8Step at h
  split at h
  · rcases utf8Lead_cases b with ⟨-, e⟩ | ⟨-, e⟩ | ⟨-, e⟩ | ⟨-, e⟩ | e <;> rw [e] at h <;> cases h
    rfl
  · rcases utf8Continue_cases u b strict with ⟨-, e⟩ | ⟨-, e⟩ | ⟨-, -, e⟩ | ⟨-, -, e⟩ <;> rw [e] at h <;> cases h
    rfl

/-- The step on a leading byte, by the value of the byte (41_utf8_validator.md R130). -/
theorem utf8Lead_table : ∀ b : Byte, utf8Lead b =
    if b.toNat ≤ 0x7F then .emit [b.setWidth 16] Utf8State.empty
    else if b.toNat ≤ 0xBF then .err .utfBadLead
    else if b.toNat ≤ 0xDF then .pend { cp := BitVec.ofNat 21 (b.toNat % 32), rem := 1#2, seqLen := 2#3 }
    else if b.toNat ≤ 0xEF then .pend { cp := BitVec.ofNat 21 (b.toNat % 16), rem := 2#2, seqLen := 3#3 }
    else if b.toNat ≤ 0xF7 then .pend { cp := BitVec.ofNat 21 (b.toNat % 8), rem := 3#2, seqLen := 4#3 }
    else .err .utfBadLead := by decide

theorem isContinuation_iff : ∀ b : Byte, b &&& 0xC0#8 ≠ 0x80#8 ↔ ¬ (0x80 ≤ b.toNat ∧ b.toNat ≤ 0xBF) := by decide

theorem lowSixBits : ∀ b : Byte, (b &&& 0x3F#8).toNat = b.toNat % 64 := by decide

/-- The step on a continuation byte, by the values of its operands (41_utf8_validator.md R130). -/
theorem utf8Step_continuation (cp : BitVec 21) (rem : BitVec 2) (seqLen : BitVec 3) (b : Byte) (strict : Bool)
    (hb : 0x80 ≤ b.toNat ∧ b.toNat ≤ 0xBF) (hr : rem ≠ 0#2) : utf8Step { cp := cp, rem := rem, seqLen := seqLen } b strict =
      if 1#2 < rem then
        .pend { cp := BitVec.ofNat 21 (cp.toNat * 64 + (b.toNat - 128)), rem := rem - 1#2, seqLen := seqLen }
      else if !validCodepoint (cp.toNat * 64 + (b.toNat - 128)) seqLen.toNat strict then .err .utfBadCp
      else .emit (codeUnits (cp.toNat * 64 + (b.toNat - 128))) Utf8State.empty := by
  unfold utf8Step utf8Continue
  have e := (extendCodepoint_eq cp b).1
  rw [lowSixBits, show b.toNat % 64 = b.toNat - 128 by omega] at e
  rw [if_neg hr]
  simp only [e]
  rw [if_neg]
  rw [isContinuation_iff]
  exact not_not.mpr hb

/-- CP of a state of the invariant is below 2^15 (10_state.md R43). -/
theorem Utf8State.cp_lt {u : Utf8State} (h : u.Inv) : u.cp.toNat < 2 ^ 15 := by
  rcases h with ⟨-, h, -⟩ | ⟨⟨h1, h2⟩, ⟨h3, h4⟩, h5⟩
  · rw [h]
    decide
  · refine Nat.lt_of_lt_of_le h5 (Nat.pow_le_pow_right (by decide) ?_)
    omega

theorem toNat_and_lt (b m : Byte) (k : Nat) (h : m.toNat < 2 ^ k) : (b &&& m).toNat < 2 ^ k := by
  rw [BitVec.toNat_and]
  exact Nat.lt_of_le_of_lt Nat.and_le_right h

/-- A step that leaves a sequence in progress keeps the state invariant (10_state.md R43). -/
theorem utf8Step_pend_inv {u u' : Utf8State} {b : Byte} {strict : Bool} (hu : u.Inv)
    (h : utf8Step u b strict = .pend u') : u'.Inv := by
  unfold utf8Step at h
  split at h
  · rcases utf8Lead_cases b with ⟨-, e⟩ | ⟨-, e⟩ | ⟨-, e⟩ | ⟨-, e⟩ | e <;> rw [e] at h <;> cases h <;> right <;>
      simp only [BitVec.toNat_setWidth]
    · have := toNat_and_lt b 0x1F#8 5 (by decide)
      refine ⟨by decide, by decide, ?_⟩
      rw [Nat.mod_eq_of_lt (by omega)]
      simpa using this
    · have := toNat_and_lt b 0x0F#8 4 (by decide)
      refine ⟨by decide, by decide, ?_⟩
      rw [Nat.mod_eq_of_lt (by omega)]
      simpa using this
    · have := toNat_and_lt b 0x07#8 3 (by decide)
      refine ⟨by decide, by decide, ?_⟩
      rw [Nat.mod_eq_of_lt (by omega)]
      simpa using this
  · rename_i hr
    have h15 := Utf8State.cp_lt hu
    rcases utf8Continue_cases u b strict with ⟨-, e⟩ | ⟨h1, e⟩ | ⟨-, -, e⟩ | ⟨-, -, e⟩ <;> rw [e] at h <;> cases h
    rcases hu with ⟨h, -⟩ | ⟨⟨a1, a2⟩, ⟨a3, a4⟩, a5⟩
    · exact absurd h hr
    right
    have h1 : 1 < u.rem.toNat := h1
    have hrem : (u.rem - 1#2).toNat = u.rem.toNat - 1 := by
      have := u.rem.isLt
      rw [BitVec.toNat_sub]
      simp
      omega
    refine ⟨⟨a1, a2⟩, ⟨by rw [hrem]; omega, by rw [hrem]; show u.rem.toNat - 1 ≤ u.seqLen.toNat - 1; omega⟩, ?_⟩
    obtain ⟨e1, e2⟩ := extendCodepoint_eq u.cp b
    simp only [BitVec.toNat_ofNat, hrem]
    rw [Nat.mod_eq_of_lt (by rw [e1]; omega), e1]
    have : 7 - u.seqLen.toNat + 6 * (u.seqLen.toNat - 1 - (u.rem.toNat - 1)) =
        (7 - u.seqLen.toNat + 6 * (u.seqLen.toNat - 1 - u.rem.toNat)) + 6 := by omega
    rw [this, Nat.pow_add]
    omega

/-- A step leaves a sequence in progress with REM not 0. -/
theorem utf8Step_pend_rem {u u' : Utf8State} {b : Byte} {strict : Bool} (h : utf8Step u b strict = .pend u') :
    u'.rem ≠ 0#2 := by
  unfold utf8Step at h
  split at h
  · rcases utf8Lead_cases b with ⟨-, e⟩ | ⟨-, e⟩ | ⟨-, e⟩ | ⟨-, e⟩ | e <;> rw [e] at h <;> cases h <;> simp
  · rcases utf8Continue_cases u b strict with ⟨-, e⟩ | ⟨h1, e⟩ | ⟨-, -, e⟩ | ⟨-, -, e⟩ <;> rw [e] at h <;> cases h
    have : ∀ x : BitVec 2, 1#2 < x → x - 1#2 ≠ 0#2 := by decide
    exact this _ h1

/-- A step emits one code unit on a leading byte and at most two on a continuation byte. -/
theorem utf8Step_emit_length {u u' : Utf8State} {b : Byte} {strict : Bool} {us : List CodeUnit}
    (h : utf8Step u b strict = .emit us u') : us.length ≤ if u.rem = 0#2 then 1 else 2 := by
  unfold utf8Step at h
  split at h
  · rcases utf8Lead_cases b with ⟨-, e⟩ | ⟨-, e⟩ | ⟨-, e⟩ | ⟨-, e⟩ | e <;> rw [e] at h <;> cases h
    simp [*]
  · rename_i hr
    rcases utf8Continue_cases u b strict with ⟨-, e⟩ | ⟨h1, e⟩ | ⟨-, -, e⟩ | ⟨-, -, e⟩ <;> rw [e] at h <;> cases h
    rw [if_neg hr]
    unfold codeUnits
    split <;> simp

/-! ### Ways a UTF_DECODE ends -/

/-- What UTF_DECODE's loop reads of the state. -/
def State.decodeParams (emit : Bool) (s : State) : DecodeParams :=
  { strict := s.rx.utfStrict, emit := emit, coff := s.rx.coff.toNat, cap := s.rx.ccap.toNat }

/-- The whole loop of a UTF_DECODE. -/
def State.decodeRun (emit : Bool) (s : State) : Except Fault DecodeRun :=
  utf8Loop (s.decodeParams emit) s.rxbuf s.rx.len.toNat s.rx.off.toNat 0 0 s.rx.utf s.cbuf

/-- What UTF_DECODE leaves when its loop ended as `r`. -/
def State.decoded (r : DecodeRun) (s : State) : State := (s.clearDecodeResults.withDecodeRun r).finish .rxu r.code

@[simp] theorem decoded_rx (r : DecodeRun) (s : State) : (s.decoded r).rx =
    { s.rx with status := UnitStatus.finished r.code, consumed := BitVec.ofNat 32 r.consumed,
                produced := BitVec.ofNat 32 r.produced, utf := r.utf } := rfl
@[simp] theorem decoded_tx (r : DecodeRun) (s : State) : (s.decoded r).tx = s.tx := rfl
@[simp] theorem decoded_rxbuf (r : DecodeRun) (s : State) : (s.decoded r).rxbuf = s.rxbuf := rfl
@[simp] theorem decoded_txbuf (r : DecodeRun) (s : State) : (s.decoded r).txbuf = s.txbuf := rfl
@[simp] theorem decoded_cbuf (r : DecodeRun) (s : State) : (s.decoded r).cbuf = r.cbuf := rfl
@[simp] theorem decoded_params (r : DecodeRun) (s : State) : (s.decoded r).params = s.params := rfl
@[simp] theorem decoded_draws (r : DecodeRun) (s : State) : (s.decoded r).draws = s.draws := rfl
@[simp] theorem decoded_inputs (r : DecodeRun) (s : State) : (s.decoded r).inputs = s.inputs := rfl
@[simp] theorem decoded_lastRead (r : DecodeRun) (s : State) : (s.decoded r).lastRead = s.lastRead := rfl
@[simp] theorem decoded_faultRecord (r : DecodeRun) (s : State) : (s.decoded r).faultRecord = s.faultRecord := rfl

section DecodeRange

variable {emit : Bool} {s t : State}

theorem utf8DecodeRange_useRange (hf : s.rxWindowFits = false ∨ (emit = true ∧ s.cbufWindowFits = false)) :
    utf8DecodeRange emit s = .next (s.clearDecodeResults.finish .rxu .useRange) := by
  rcases hf with hf | ⟨he, hf⟩
  · simp [utf8DecodeRange, hf]
  · simp [utf8DecodeRange, hf, he]

theorem utf8DecodeRange_fault {r : Fault} (hf : s.rxWindowFits = true)
    (hc : emit = true → s.cbufWindowFits = true) (hr : s.decodeRun emit = .error r) :
    utf8DecodeRange emit s = .fault r := by
  have hc' : (emit && !s.cbufWindowFits) = false := by cases emit <;> simp_all
  unfold State.decodeRun State.decodeParams at hr
  simp [utf8DecodeRange, hf, hc', hr]

theorem utf8DecodeRange_run {r : DecodeRun} (hf : s.rxWindowFits = true)
    (hc : emit = true → s.cbufWindowFits = true) (hr : s.decodeRun emit = .ok r) :
    utf8DecodeRange emit s = .next (s.decoded r) := by
  have hc' : (emit && !s.cbufWindowFits) = false := by cases emit <;> simp_all
  unfold State.decodeRun State.decodeParams at hr
  simp [utf8DecodeRange, hf, hc', hr, State.decoded]

/-- Every way a UTF_DECODE can answer a next state. -/
theorem utf8DecodeRange_cases (hn : utf8DecodeRange emit s = .next t) :
    ((s.rxWindowFits = false ∨ (emit = true ∧ s.cbufWindowFits = false)) ∧
      t = s.clearDecodeResults.finish .rxu .useRange) ∨
    (s.rxWindowFits = true ∧ (emit = true → s.cbufWindowFits = true) ∧
      ∃ r, s.decodeRun emit = .ok r ∧ t = s.decoded r) := by
  by_cases hf : s.rxWindowFits = false ∨ (emit = true ∧ s.cbufWindowFits = false)
  · rw [utf8DecodeRange_useRange hf] at hn
    exact .inl ⟨hf, (Host.Outcome.next.inj hn).symm⟩
  · have h1 : s.rxWindowFits = true := by
      by_contra h
      exact hf (.inl (by simpa using h))
    have h2 : emit = true → s.cbufWindowFits = true := fun he => by
      by_contra h
      exact hf (.inr ⟨he, by simpa using h⟩)
    cases hr : s.decodeRun emit with
    | error r => rw [utf8DecodeRange_fault h1 h2 hr] at hn; cases hn
    | ok r =>
      rw [utf8DecodeRange_run h1 h2 hr] at hn
      exact .inr ⟨h1, h2, r, rfl, (Host.Outcome.next.inj hn).symm⟩

end DecodeRange

/-! ### The loop -/

section Loop

variable (d : DecodeParams) (m : Memory Byte)

@[simp] theorem utf8Loop_zero (pos i p : Nat) (u : Utf8State) (c : Memory CodeUnit) :
    utf8Loop d m 0 pos i p u c = .ok { code := .ok, consumed := i, produced := p, utf := u, cbuf := c } := rfl

theorem utf8Loop_succ (n pos i p : Nat) (u : Utf8State) (c : Memory CodeUnit) : utf8Loop d m (n + 1) pos i p u c =
    match m.read pos with
    | none => .error (.uninitRead .rxbuf pos)
    | some b =>
      match utf8Step u b d.strict with
      | .err code => .ok { code := code, consumed := i, produced := p, utf := Utf8State.empty, cbuf := c }
      | .pend u' => utf8Loop d m n (pos + 1) (i + 1) p u' c
      | .emit us u' =>
        if d.emit ∧ d.cap < p + us.length then
          .ok { code := .outFull, consumed := i, produced := p, utf := u, cbuf := c }
        else
          utf8Loop d m n (pos + 1) (i + 1) (p + us.length) u'
            (if d.emit then c.writeRange (d.coff + p) us else c) := rfl

/-- A loop over `a + b` bytes is the loop over `a` bytes, continued by the loop over `b` more where it ended OK. -/
theorem utf8Loop_add (a b pos i p : Nat) (u : Utf8State) (c : Memory CodeUnit) :
    utf8Loop d m (a + b) pos i p u c =
      match utf8Loop d m a pos i p u c with
      | .error r => .error r
      | .ok r => if r.code = .ok then utf8Loop d m b (pos + a) r.consumed r.produced r.utf r.cbuf else .ok r := by
  induction a generalizing pos i p u c with
  | zero => simp
  | succ a ih =>
    rw [show a + 1 + b = a + b + 1 by omega, utf8Loop_succ, utf8Loop_succ]
    cases hr : m.read pos with
    | none => rfl
    | some v =>
      cases hs : utf8Step u v d.strict with
      | err code =>
        rcases utf8Step_err hs with h | h | h <;> simp [hs, h]
      | pend u' => simpa [hs, show pos + 1 + a = pos + (a + 1) by omega] using ih (pos + 1) (i + 1) p u' c
      | emit us u' =>
        by_cases hc : d.emit ∧ d.cap < p + us.length
        · simp only [hs, if_pos hc]
          simp
        · simp only [hs, if_neg hc]
          rw [ih]
          simp only [show pos + 1 + a = pos + (a + 1) by omega]

/-- Where the loop's counters start shifts its answer by as much, with the destination shifted the other way. -/
theorem utf8Loop_shift (n pos i p i0 p0 : Nat) (u : Utf8State) (c : Memory CodeUnit) (hp : p0 ≤ d.cap ∨ d.emit = false) :
    utf8Loop d m n pos (i0 + i) (p0 + p) u c =
      match utf8Loop { d with coff := d.coff + p0, cap := d.cap - p0 } m n pos i p u c with
      | .error r => .error r
      | .ok r => .ok { r with consumed := i0 + r.consumed, produced := p0 + r.produced } := by
  induction n generalizing pos i p u c with
  | zero => rfl
  | succ n ih =>
    rw [utf8Loop_succ, utf8Loop_succ]
    cases hr : m.read pos with
    | none => rfl
    | some v =>
      cases hs : utf8Step u v d.strict with
      | err code => simp [hs]
      | pend u' => simpa [hs, show i0 + i + 1 = i0 + (i + 1) by omega] using ih (pos + 1) (i + 1) p u' c
      | emit us u' =>
        have hiff : (d.emit ∧ d.cap < p0 + p + us.length) ↔ (d.emit ∧ d.cap - p0 < p + us.length) := by
          rcases hp with hp | hp
          · constructor <;> rintro ⟨h1, h2⟩ <;> exact ⟨h1, by omega⟩
          · simp [hp]
        by_cases hc : d.emit ∧ d.cap - p0 < p + us.length
        · simp only [hs, if_pos hc, if_pos (hiff.mpr hc)]
        · have := ih (pos + 1) (i + 1) (p + us.length) u' (if d.emit then c.writeRange (d.coff + p0 + p) us else c)
          simp only [hs, if_neg hc, if_neg (mt hiff.mp hc)]
          rw [← this]
          congr 1
          · omega
          · rw [show d.coff + (p0 + p) = d.coff + p0 + p by omega]

end Loop

/-! ### What the loop of UTF_DECODE answers -/

section LoopAnswers

variable {d : DecodeParams} {m : Memory Byte}

/-- One round of the loop, taken apart once: what holds of the answers of every way a round goes on or ends, holds of the
loop's answer. -/
theorem utf8Loop_induct (P : Nat → Nat → Nat → Nat → Utf8State → Memory CodeUnit → DecodeRun → Prop)
    (hzero : ∀ pos i p u c, P 0 pos i p u c { code := .ok, consumed := i, produced := p, utf := u, cbuf := c })
    (herr : ∀ n pos i p u c b code, utf8Step u b d.strict = .err code →
      P (n + 1) pos i p u c { code := code, consumed := i, produced := p, utf := Utf8State.empty, cbuf := c })
    (hpend : ∀ n pos i p u c b u' r, utf8Step u b d.strict = .pend u' → P n (pos + 1) (i + 1) p u' c r →
      P (n + 1) pos i p u c r)
    (hfull : ∀ n pos i p u c b us u', utf8Step u b d.strict = .emit us u' → d.emit = true → d.cap < p + us.length →
      P (n + 1) pos i p u c { code := .outFull, consumed := i, produced := p, utf := u, cbuf := c })
    (hemit : ∀ n pos i p u c b us u' r, utf8Step u b d.strict = .emit us u' → ¬ (d.emit = true ∧ d.cap < p + us.length) →
      P n (pos + 1) (i + 1) (p + us.length) u' (if d.emit then c.writeRange (d.coff + p) us else c) r →
      P (n + 1) pos i p u c r)
    {n pos i p : Nat} {u : Utf8State} {c : Memory CodeUnit} {r : DecodeRun}
    (h : utf8Loop d m n pos i p u c = .ok r) : P n pos i p u c r := by
  induction n generalizing pos i p u c with
  | zero =>
    rw [utf8Loop_zero] at h
    cases h
    exact hzero _ _ _ _ _
  | succ n ih =>
    rw [utf8Loop_succ] at h
    cases hr : m.read pos with
    | none => simp [hr] at h
    | some b =>
      simp only [hr] at h
      cases hs : utf8Step u b d.strict with
      | err code =>
        simp only [hs] at h
        cases h
        exact herr _ _ _ _ _ _ _ _ hs
      | pend u' =>
        simp only [hs] at h
        exact hpend _ _ _ _ _ _ _ _ _ hs (ih h)
      | emit us u' =>
        simp only [hs] at h
        split at h
        · rename_i hc
          cases h
          exact hfull _ _ _ _ _ _ _ _ _ hs hc.1 hc.2
        · exact hemit _ _ _ _ _ _ _ _ _ _ hs ‹_› (ih h)

variable {n pos i p : Nat} {u : Utf8State} {c : Memory CodeUnit} {r : DecodeRun}

/-- A fault of the loop names an element never written. -/
theorem utf8Loop_eq_error {r : Fault} (h : utf8Loop d m n pos i p u c = .error r) :
    ∃ j, r = .uninitRead .rxbuf j ∧ m.read j = none := by
  induction n generalizing pos i p u c with
  | zero => simp at h
  | succ n ih =>
    rw [utf8Loop_succ] at h
    cases hr : m.read pos with
    | none =>
      simp only [hr, Except.error.injEq] at h
      exact ⟨pos, h.symm, hr⟩
    | some b =>
      simp only [hr] at h
      cases hs : utf8Step u b d.strict with
      | err code => simp only [hs] at h; cases h
      | pend u' => simp only [hs] at h; exact ih h
      | emit us u' =>
        simp only [hs] at h
        split at h
        · cases h
        · exact ih h

/-- The codes the loop ends with (60_exceptions.md R160). -/
theorem utf8Loop_code (h : utf8Loop d m n pos i p u c = .ok r) : r.code = .ok ∨ (d.emit = true ∧ r.code = .outFull) ∨
    r.code = .utfBadLead ∨ r.code = .utfBadCont ∨ r.code = .utfBadCp := by
  refine utf8Loop_induct (fun _ _ _ _ _ _ r => r.code = .ok ∨ (d.emit = true ∧ r.code = .outFull) ∨
    r.code = .utfBadLead ∨ r.code = .utfBadCont ∨ r.code = .utfBadCp) ?_ ?_ ?_ ?_ ?_ h
  · intros
    exact .inl rfl
  · intro _ _ _ _ _ _ _ _ hs
    exact .inr (.inr (utf8Step_err hs))
  · intro _ _ _ _ _ _ _ _ _ _ ih
    exact ih
  · intro _ _ _ _ _ _ _ _ _ _ he _
    exact .inr (.inl ⟨he, rfl⟩)
  · intro _ _ _ _ _ _ _ _ _ _ _ _ ih
    exact ih

/-- RX_CONSUMED counts bytes of the range, all of it when the loop ends OK. -/
theorem utf8Loop_consumed (h : utf8Loop d m n pos i p u c = .ok r) :
    i ≤ r.consumed ∧ r.consumed ≤ i + n ∧ (r.code = .ok → r.consumed = i + n) := by
  refine utf8Loop_induct (fun n _ i _ _ _ r => i ≤ r.consumed ∧ r.consumed ≤ i + n ∧ (r.code = .ok → r.consumed = i + n))
    ?_ ?_ ?_ ?_ ?_ h
  · intros
    simp
  · intro _ _ _ _ _ _ _ code hs
    rcases utf8Step_err hs with h | h | h <;> simp [h]
  · intro _ _ _ _ _ _ _ _ _ _ ⟨h1, h2, h3⟩
    exact ⟨by omega, by omega, fun e => by rw [h3 e]; omega⟩
  · intros
    simp
  · intro _ _ _ _ _ _ _ _ _ _ _ _ ⟨h1, h2, h3⟩
    exact ⟨by omega, by omega, fun e => by rw [h3 e]; omega⟩

/-- RX_PRODUCED stays within RX_CCAP when code units are written. -/
theorem utf8Loop_produced_le (h : utf8Loop d m n pos i p u c = .ok r) :
    p ≤ r.produced ∧ (d.emit = true → p ≤ d.cap → r.produced ≤ d.cap) := by
  refine utf8Loop_induct (fun _ _ _ p _ _ r => p ≤ r.produced ∧ (d.emit = true → p ≤ d.cap → r.produced ≤ d.cap))
    ?_ ?_ ?_ ?_ ?_ h
  · intro _ _ _ _ _
    exact ⟨Nat.le_refl _, fun _ h => h⟩
  · intro _ _ _ _ _ _ _ _ _
    exact ⟨Nat.le_refl _, fun _ h => h⟩
  · intro _ _ _ _ _ _ _ _ _ _ ih
    exact ih
  · intro _ _ _ _ _ _ _ _ _ _ _ _
    exact ⟨Nat.le_refl _, fun _ h => h⟩
  · intro _ _ _ p _ _ _ us _ _ _ hc ⟨h1, h2⟩
    exact ⟨by omega, fun he hp => h2 he (by by_contra hx; exact hc ⟨he, by omega⟩)⟩

/-- The loop writes CBUF only where it emits, and not at all with EMIT = 0. -/
theorem utf8Loop_cbuf (h : utf8Loop d m n pos i p u c = .ok r) : (d.emit = false → r.cbuf = c) ∧
    (∀ a, (a < d.coff + p ∨ d.coff + r.produced ≤ a) → r.cbuf.read a = c.read a) ∧
    (∀ a, (c.read a).isSome = true → (r.cbuf.read a).isSome = true) := by
  refine (utf8Loop_induct (fun _ _ _ p _ c r => p ≤ r.produced ∧ (d.emit = false → r.cbuf = c) ∧
    (∀ a, (a < d.coff + p ∨ d.coff + r.produced ≤ a) → r.cbuf.read a = c.read a) ∧
    (∀ a, (c.read a).isSome = true → (r.cbuf.read a).isSome = true)) ?_ ?_ ?_ ?_ ?_ h).2
  · intros
    simp
  · intros
    simp
  · intro _ _ _ _ _ _ _ _ _ _ ih
    exact ih
  · intros
    simp
  · intro _ _ _ p _ c _ us _ r _ _ ⟨h0, h1, h2, h3⟩
    refine ⟨by omega, fun he => by simp only [he] at h1; exact h1 trivial, fun a ha => ?_, fun a ha => h3 a ?_⟩
    · rw [h2 a (by omega)]
      split
      · exact Memory.read_writeRange_out _ _ _ _ (by omega)
      · rfl
    · split
      · exact Memory.isSome_read_writeRange _ _ _ _ ha
      · exact ha

/-- The loop keeps CBUF's canonical form and bounds while its destination lies in CBUF. -/
theorem utf8Loop_cbuf_wf {size : Nat} (h : utf8Loop d m n pos i p u c = .ok r) (hs : d.emit = true → d.coff + d.cap ≤ size)
    (hc : c.wf = true ∧ c.within size = true) : r.cbuf.wf = true ∧ r.cbuf.within size = true := by
  refine utf8Loop_induct (fun _ _ _ _ _ c r => c.wf = true ∧ c.within size = true →
    r.cbuf.wf = true ∧ r.cbuf.within size = true) ?_ ?_ ?_ ?_ ?_ h hc
  · intro _ _ _ _ _ h
    exact h
  · intro _ _ _ _ _ _ _ _ _ h
    exact h
  · intro _ _ _ _ _ _ _ _ _ _ ih h
    exact ih h
  · intro _ _ _ _ _ _ _ _ _ _ _ _ h
    exact h
  · intro _ _ _ p _ _ _ us _ _ _ hcap ih hc
    refine ih ?_
    split
    · rename_i he
      have := hs he
      have : p + us.length ≤ d.cap := by
        by_contra hx
        exact hcap ⟨he, by omega⟩
      exact ⟨Memory.wf_writeRange _ _ _ hc.1, Memory.within_writeRange _ _ _ (by omega) hc.2⟩
    · exact hc

/-- The loop keeps the state invariant, and leaves the empty state at a UTF-8 error (10_state.md R43). -/
theorem utf8Loop_utf (h : utf8Loop d m n pos i p u c = .ok r) : (u.Inv → r.utf.Inv) ∧
    (r.code = .utfBadLead ∨ r.code = .utfBadCont ∨ r.code = .utfBadCp → r.utf = Utf8State.empty) := by
  refine utf8Loop_induct (fun _ _ _ _ u _ r => (u.Inv → r.utf.Inv) ∧
    (r.code = .utfBadLead ∨ r.code = .utfBadCont ∨ r.code = .utfBadCp → r.utf = Utf8State.empty)) ?_ ?_ ?_ ?_ ?_ h
  · intros
    simp
  · intros
    exact ⟨fun _ => Utf8State.empty_inv, fun _ => rfl⟩
  · intro _ _ _ _ _ _ _ _ _ hs ⟨h1, h2⟩
    exact ⟨fun hu => h1 (utf8Step_pend_inv hu hs), h2⟩
  · intros
    simp
  · intro _ _ _ _ _ _ _ _ _ _ hs _ ⟨h1, h2⟩
    exact ⟨fun _ => h1 (by rw [utf8Step_emit hs]; exact Utf8State.empty_inv), h2⟩

/-- A loop that did not run out of room answers the same with more room. -/
theorem utf8Loop_more_room {cap' : Nat} (hle : d.cap ≤ cap') (h : utf8Loop d m n pos i p u c = .ok r)
    (hc : r.code ≠ .outFull) : utf8Loop { d with cap := cap' } m n pos i p u c = .ok r := by
  induction n generalizing pos i p u c with
  | zero =>
    rw [utf8Loop_zero] at h ⊢
    exact h
  | succ n ih =>
    rw [utf8Loop_succ] at h ⊢
    cases hr : m.read pos with
    | none => simp [hr] at h
    | some b =>
      simp only [hr] at h ⊢
      cases hs : utf8Step u b d.strict with
      | err code => simp only [hs] at h ⊢; exact h
      | pend u' => simp only [hs] at h ⊢; exact ih h
      | emit us u' =>
        simp only [hs] at h ⊢
        split at h
        · cases h
          simp at hc
        · rename_i hx
          rw [if_neg (by rintro ⟨h1, h2⟩; exact hx ⟨h1, by omega⟩)]
          exact ih h

end LoopAnswers

/-! ### The fold -/

@[simp] theorem utf8Fold_nil (strict : Bool) (i : Nat) (acc : List CodeUnit) (u : Utf8State) :
    utf8Fold strict [] i acc u = { units := acc, utf := u, error := none } := rfl

theorem utf8Fold_cons (strict : Bool) (b : Byte) (bs : List Byte) (i : Nat) (acc : List CodeUnit) (u : Utf8State) :
    utf8Fold strict (b :: bs) i acc u =
      match utf8Step u b strict with
      | .err code => { units := acc, utf := Utf8State.empty, error := some (i, code) }
      | .pend u' => utf8Fold strict bs (i + 1) acc u'
      | .emit us u' => utf8Fold strict bs (i + 1) (acc ++ us) u' := rfl

/-- The fold keeps what was emitted before it. -/
theorem utf8Fold_units_append (strict : Bool) (bs : List Byte) (i : Nat) (acc : List CodeUnit) (u : Utf8State) :
    ∃ us, (utf8Fold strict bs i acc u).units = acc ++ us := by
  induction bs generalizing i acc u with
  | nil => exact ⟨[], by simp⟩
  | cons b bs ih =>
    rw [utf8Fold_cons]
    cases utf8Step u b strict with
    | err code => exact ⟨[], by simp⟩
    | pend u' => exact ih _ _ _
    | emit us u' =>
      obtain ⟨vs, h⟩ := ih (i + 1) (acc ++ us) u'
      exact ⟨us ++ vs, by simp [h]⟩

/-- The loop over bytes that are written follows the fold over them, while the code units fit. -/
theorem utf8Loop_eq_fold (d : DecodeParams) (m : Memory Byte) (bs : List Byte) (more pos i : Nat) (acc : List CodeUnit)
    (u : Utf8State) (c : Memory CodeUnit) (hr : m.readRange pos bs.length = .ok bs)
    (hcap : d.emit = true → (utf8Fold d.strict bs i acc u).units.length ≤ d.cap) :
    utf8Loop d m (bs.length + more) pos i acc.length u (if d.emit then c.writeRange d.coff acc else c) =
      match (utf8Fold d.strict bs i acc u).error with
      | some (j, code) =>
        .ok { code := code, consumed := j, produced := (utf8Fold d.strict bs i acc u).units.length, utf := Utf8State.empty,
              cbuf := if d.emit then c.writeRange d.coff (utf8Fold d.strict bs i acc u).units else c }
      | none =>
        utf8Loop d m more (pos + bs.length) (i + bs.length) (utf8Fold d.strict bs i acc u).units.length
          (utf8Fold d.strict bs i acc u).utf
          (if d.emit then c.writeRange d.coff (utf8Fold d.strict bs i acc u).units else c) := by
  induction bs generalizing pos acc i u with
  | nil => simp
  | cons b bs ih =>
    have h1 : m.read pos = some b := by
      simpa using ((Memory.readRange_eq_ok_iff _ _ _ _).mp hr).2 0 (by simp)
    have h2 : m.readRange (pos + 1) bs.length = .ok bs := by
      have := Memory.readRange_sub hr (a := 1) (b := bs.length) (by simp; omega)
      simpa using this
    rw [show (b :: bs).length + more = bs.length + more + 1 by simp; omega, utf8Loop_succ, h1]
    simp only [utf8Fold_cons] at hcap ⊢
    cases hs : utf8Step u b d.strict with
    | err code => simp
    | pend u' =>
      simp only [hs] at hcap ⊢
      rw [ih (pos + 1) (i + 1) acc u' h2 hcap]
      simp only [List.length_cons, show pos + 1 + bs.length = pos + (bs.length + 1) by omega,
        show i + 1 + bs.length = i + (bs.length + 1) by omega]
    | emit us u' =>
      simp only [hs] at hcap ⊢
      have hle : d.emit = true → acc.length + us.length ≤ d.cap := by
        intro he
        obtain ⟨vs, hvs⟩ := utf8Fold_units_append d.strict bs (i + 1) (acc ++ us) u'
        have := hcap he
        rw [hvs] at this
        simp at this
        omega
      rw [if_neg (by rintro ⟨he, hlt⟩; have := hle he; omega)]
      have hw : (if d.emit = true then
            (if d.emit = true then c.writeRange d.coff acc else c).writeRange (d.coff + acc.length) us
          else (if d.emit = true then c.writeRange d.coff acc else c)) =
          (if d.emit = true then c.writeRange d.coff (acc ++ us) else c) := by
        split
        · rw [Memory.writeRange_append]
        · rfl
      rw [hw, ← List.length_append, ih (pos + 1) (i + 1) (acc ++ us) u' h2 hcap]
      simp only [List.length_cons, show pos + 1 + bs.length = pos + (bs.length + 1) by omega,
        show i + 1 + bs.length = i + (bs.length + 1) by omega]

/-- However the loop ends, what it did is the fold over the bytes it consumed, which meets no error: those bytes were
written, RX_PRODUCED counts their code units, CBUF holds them, and RX_UTF is the folded state unless a UTF-8 error emptied
it (60_exceptions.md R163, 41_utf8_validator.md R136). -/
theorem utf8Loop_prefix {d : DecodeParams} {m : Memory Byte} {n pos i : Nat} {acc : List CodeUnit} {u : Utf8State}
    {c : Memory CodeUnit} {r : DecodeRun} (k : Nat)
    (h : utf8Loop d m n pos i acc.length u (if d.emit then c.writeRange d.coff acc else c) = .ok r) :
    ∃ bs, m.readRange pos (r.consumed - i) = .ok bs ∧ (utf8Fold d.strict bs k acc u).error = none ∧
      (utf8Fold d.strict bs k acc u).units.length = r.produced ∧
      (r.code = .ok ∨ r.code = .outFull → r.utf = (utf8Fold d.strict bs k acc u).utf) ∧
      r.cbuf = if d.emit then c.writeRange d.coff (utf8Fold d.strict bs k acc u).units else c := by
  induction n generalizing pos i acc u k with
  | zero =>
    rw [utf8Loop_zero] at h
    cases h
    exact ⟨[], by simp⟩
  | succ n ih =>
    rw [utf8Loop_succ] at h
    cases hr : m.read pos with
    | none => simp [hr] at h
    | some b =>
      have step {j : Nat} {bs : List Byte} (hj : i + 1 ≤ j) (hb : m.readRange (pos + 1) (j - (i + 1)) = .ok bs) :
          m.readRange pos (j - i) = .ok (b :: bs) := by
        rw [show j - i = j - (i + 1) + 1 by omega, Memory.readRange_succ, hr, hb]
      simp only [hr] at h
      cases hs : utf8Step u b d.strict with
      | err code =>
        simp only [hs] at h
        cases h
        refine ⟨[], by simp, rfl, rfl, ?_, rfl⟩
        rcases utf8Step_err hs with rfl | rfl | rfl <;> simp
      | pend u' =>
        simp only [hs] at h
        obtain ⟨bs, hb, hf⟩ := ih (k + 1) h
        refine ⟨b :: bs, step (utf8Loop_consumed h).1 hb, ?_⟩
        rw [utf8Fold_cons, hs]
        exact hf
      | emit us u' =>
        simp only [hs] at h
        split at h
        · cases h
          exact ⟨[], by simp⟩
        · have e : (if d.emit then (if d.emit then c.writeRange d.coff acc else c).writeRange (d.coff + acc.length) us
              else (if d.emit then c.writeRange d.coff acc else c)) =
              if d.emit then c.writeRange d.coff (acc ++ us) else c := by
            split <;> simp [Memory.writeRange_append]
          rw [e, ← List.length_append] at h
          obtain ⟨bs, hb, hf⟩ := ih (k + 1) h
          refine ⟨b :: bs, step (utf8Loop_consumed h).1 hb, ?_⟩
          rw [utf8Fold_cons, hs]
          exact hf

end Sys2Proof.Machine
end

