-- ==== Sys2Proof/Laws/Step.lean ====
section
/-! SUPPORT. What a step can do, said once: the cases of a completion step, of a host access and of a step, and the
induction over runs packaged once. -/

namespace Sys2Proof.Machine

/-! ### Completion steps -/

theorem completeUnit_idle {u : UnitId} {s : State} (h : (s.status u).pending = none) : completeUnit u s = .next s := by
  simp [completeUnit, h]

theorem completeUnit_exec {u : UnitId} {s : State} {w : Word} {i : Instr} (h : (s.status u).pending = some w)
    (hd : decodeCommand u w = .ok i) : completeUnit u s = exec i s := by
  simp [completeUnit, h, hd]

theorem completeUnit_illegal {u : UnitId} {s : State} {w : Word} {e : DecodeError} (h : (s.status u).pending = some w)
    (hd : decodeCommand u w = .error e) : completeUnit u s = .next (s.finish u .useIllegalCmd) := by
  simp [completeUnit, h, hd, illegalCommand]

/-- Every way a completion step can answer a next state. -/
theorem completeUnit_cases {u : UnitId} {s t : State} (h : completeUnit u s = .next t) :
    ((s.status u).pending = none ∧ t = s) ∨
    (∃ w e, (s.status u).pending = some w ∧ decodeCommand u w = .error e ∧ t = s.finish u .useIllegalCmd) ∨
    (∃ w i, (s.status u).pending = some w ∧ decodeCommand u w = .ok i ∧ i.unit = u ∧ exec i s = .next t) := by
  cases hp : (s.status u).pending with
  | none =>
    rw [completeUnit_idle hp] at h
    exact .inl ⟨rfl, (Host.Outcome.next.inj h).symm⟩
  | some w =>
    cases hd : decodeCommand u w with
    | error e =>
      rw [completeUnit_illegal hp hd] at h
      exact .inr (.inl ⟨w, e, rfl, hd, (Host.Outcome.next.inj h).symm⟩)
    | ok i =>
      rw [completeUnit_exec hp hd] at h
      exact .inr (.inr ⟨w, i, rfl, hd, ((decodeCommand_eq_ok_iff u w i).mp hd).2, h⟩)

/-- Every fault of an instruction is a read of a buffer element never written (20_memory.md R55). -/
theorem exec_eq_fault {i : Instr} {s : State} {r : Fault} (h : exec i s = .fault r) :
    (∃ j, r = .uninitRead .rxbuf j ∧ s.rxbuf.read j = none) ∨
      (∃ j, r = .uninitRead .txbuf j ∧ s.txbuf.read j = none) := by
  have hrange : ∀ (m : Memory Byte) i n j, m.readRange i n = .error j → m.read j = none := fun m i n j h =>
    ((Memory.readRange_eq_error_iff m i n j).mp h).2.1
  have hdecode : ∀ e, utf8DecodeRange e s = .fault r → ∃ j, r = .uninitRead .rxbuf j ∧ s.rxbuf.read j = none := by
    intro e h
    unfold utf8DecodeRange at h
    simp only at h
    split at h
    · cases h
    split at h
    · cases h
    split at h
    · rename_i hq
      cases h
      exact utf8Loop_eq_error hq
    · cases h
  have hframe : ∀ opcode f, receiveFrame opcode f s = .fault r → False := by
    intro opcode f h
    rcases receiveHeader_eq_fault h with h | ⟨x, -, h⟩ <;> cases h
  cases i with
  | decHdr =>
    left
    rcases receiveHeader_eq_fault h with h | ⟨x, -, h⟩
    · unfold State.readHdr at h
      split at h
      · rename_i hq
        cases h
        exact ⟨_, ((rxByte_eq_error_iff _ _ _).mp hq).2, ((rxByte_eq_error_iff _ _ _).mp hq).1⟩
      · split at h
        · rename_i hq
          cases h
          exact ⟨_, ((rxByte_eq_error_iff _ _ _).mp hq).2, ((rxByte_eq_error_iff _ _ _).mp hq).1⟩
        · cases h
    · unfold State.readPlen at h
      split at h
      · cases h
      · split at h
        · rename_i hq
          cases h
          obtain ⟨j, hj, e⟩ := (rxBytes_eq_error_iff _ _ _ _).mp hq
          exact ⟨j, e, hrange _ _ _ _ hj⟩
        · cases h
  | encFrame =>
    right
    simp only [exec, execEncFrame, encodeFrame] at h
    split at h
    · cases h
    split at h
    · cases h
    split at h
    · rename_i hq
      cases h
      obtain ⟨j, hj, e⟩ := (txBytes_eq_error_iff _ _ _ _).mp hq
      exact ⟨j, e, hrange _ _ _ _ hj⟩
    · cases h
  | xorMask =>
    right
    simp only [exec, execXorMask] at h
    split at h
    · cases h
    split at h
    · rename_i hq
      cases h
      obtain ⟨j, hj, e⟩ := (txBytes_eq_error_iff _ _ _ _).mp hq
      exact ⟨j, e, hrange _ _ _ _ hj⟩
    · cases h
  | utfReset => cases h
  | utfDecode => exact .inl (hdecode _ h)
  | utfDecodeE => exact .inl (hdecode _ h)
  | utfFinish => simp only [exec, execUtfFinish] at h; split at h <;> cases h
  | frameContinuation f => exact (hframe _ _ h).elim
  | frameText f => exact (hframe _ _ h).elim
  | frameBinary f => exact (hframe _ _ h).elim
  | frameClose f => exact (hframe _ _ h).elim
  | framePing f => exact (hframe _ _ h).elim
  | framePong f => exact (hframe _ _ h).elim

/-! ### Host accesses -/

/-- Every way a host access can answer a next state. -/
theorem hostAccess_cases {a : HostAccess} {s t : State} (h : hostAccess a s = .next t) :
    (∃ width addr tg v, a = .read width addr ∧ s.params.resolve width addr = some tg ∧
      ¬ (s.targetBusy tg = true ∧ tg.readForbidden = true) ∧ s.readTarget tg = .ok v ∧
      t = { s with lastRead := some v }) ∨
    (∃ width addr v tg, a = .write width addr v ∧ s.params.resolve width addr = some tg ∧
      s.targetBusy tg = false ∧ t = s.writeTarget v tg) := by
  cases a with
  | read width addr =>
    simp only [hostAccess] at h
    cases hr : s.params.resolve width addr with
    | none => simp [hr] at h
    | some tg =>
      rw [hr] at h
      by_cases hb : (s.targetBusy tg && tg.readForbidden) = true
      · simp [hb] at h
      · simp only [hb] at h
        cases hv : s.readTarget tg with
        | error r => simp [hv] at h
        | ok v =>
          simp only [hv] at h
          exact .inl ⟨width, addr, tg, v, rfl, hr, by simpa using hb, hv, by simpa using h.symm⟩
  | write width addr v =>
    simp only [hostAccess] at h
    cases hr : s.params.resolve width addr with
    | none => simp [hr] at h
    | some tg =>
      rw [hr] at h
      by_cases hb : s.targetBusy tg = true
      · simp [hb] at h
      · simp only [hb] at h
        exact .inr ⟨width, addr, v, tg, rfl, hr, by simpa using hb, by simpa using h.symm⟩

/-- The shape of an access decides its target; what a resolved buffer target says of its index. -/
theorem resolve_index {p : Params} {width : Nat} {addr : Word} {tg : Target} (h : p.resolve width addr = some tg) :
    match tg with
    | .reg _ => True
    | .rxbuf i => i < p.rxbufSize
    | .txbuf i => i < p.txbufSize
    | .cbuf i => i < p.cbufSize := by
  simp only [Params.resolve] at h
  split at h
  · split at h
    · cases hr : Reg.ofOffset addr.toNat with
      | none => simp [hr] at h
      | some r =>
        simp only [hr, Option.map_some, Option.some.injEq] at h
        subst h
        trivial
    · cases h
  · split at h
    · split at h
      · cases h
        rename_i h1 h2
        exact h1.2
      · cases h
    · split at h
      · split at h
        · cases h
          rename_i h1 h2
          exact h1.2
        · cases h
      · split at h
        · split at h
          · cases h
            rename_i h1 h2
            exact h1.2
          · cases h
        · cases h

/-- A write of a TXU target touches the TX_ registers and TXBUF only, and depends on nothing else. -/
theorem writeTarget_txu {s s' : State} (v : Word) {tg : Target} (h : tg.unit = .txu) (h1 : s'.tx = s.tx)
    (h2 : s'.txbuf = s.txbuf) :
    s'.writeTarget v tg = { s' with tx := (s.writeTarget v tg).tx, txbuf := (s.writeTarget v tg).txbuf } := by
  obtain ⟨rx', tx', rxb', txb', cb', fr', pa', dr', in', lr'⟩ := s'
  obtain ⟨rx, tx, rxb, txb, cb, fr, pa, dr, inn, lr⟩ := s
  simp only at h1 h2
  subst h1 h2
  cases tg with
  | reg r => cases r <;> first | rfl | cases h
  | txbuf k => rfl
  | rxbuf k => cases h
  | cbuf k => cases h

/-- A write of an RXU target touches the RX_ registers, RXBUF and CBUF only, and depends on nothing else. -/
theorem writeTarget_rxu {s s' : State} (v : Word) {tg : Target} (h : tg.unit = .rxu) (h1 : s'.rx = s.rx)
    (h2 : s'.rxbuf = s.rxbuf) (h3 : s'.cbuf = s.cbuf) :
    s'.writeTarget v tg = { s' with rx := (s.writeTarget v tg).rx, rxbuf := (s.writeTarget v tg).rxbuf,
                                    cbuf := (s.writeTarget v tg).cbuf } := by
  obtain ⟨rx', tx', rxb', txb', cb', fr', pa', dr', in', lr'⟩ := s'
  obtain ⟨rx, tx, rxb, txb, cb, fr, pa, dr, inn, lr⟩ := s
  simp only at h1 h2 h3
  subst h1 h2 h3
  cases tg with
  | reg r => cases r <;> first | rfl | cases h
  | txbuf k => cases h
  | rxbuf k => rfl
  | cbuf k => rfl

/-! ### Steps -/

/-- The step at a busy unit's completion. -/
theorem step_complete {s : State} {u : UnitId} {rest : List Input} (hf : s.faultRecord = [])
    (hi : s.inputs = .complete u :: rest) : step s = completeUnit u { s with inputs := rest } := by
  simp only [step, hf, nextEvent, hi]

/-- The step at a host access. -/
theorem step_access {s : State} {a : HostAccess} {rest : List Input} (hf : s.faultRecord = [])
    (hi : s.inputs = .access a :: rest) : step s = hostAccess a { s with inputs := rest } := by
  simp only [step, hf, nextEvent, hi]

/-- The step with no input left. -/
theorem step_runOut {s : State} (hf : s.faultRecord = []) (hi : s.inputs = []) : step s = runOut s := by
  simp only [step, hf, nextEvent, hi]

/-- Every way a step can answer a next state. -/
theorem step_cases {s t : State} (h : step s = .next t) :
    (∃ rest, s.inputs = .reset :: rest ∧ t = s.resetEvent rest) ∨
    (s.faultRecord = [] ∧
      ((∃ a rest, s.inputs = .access a :: rest ∧ hostAccess a { s with inputs := rest } = .next t) ∨
       (∃ u rest, s.inputs = .complete u :: rest ∧ completeUnit u { s with inputs := rest } = .next t) ∨
       (s.inputs = [] ∧ ((∃ u, completeUnit u s = .next t) ∨ t = s)))) := by
  obtain hf | ⟨r, rs, hf⟩ : s.faultRecord = [] ∨ ∃ r rs, s.faultRecord = r :: rs := by
    cases s.faultRecord <;> simp
  · simp only [step, hf, nextEvent] at h
    split at h
    · refine .inr ⟨hf, .inr (.inr ⟨‹_›, ?_⟩)⟩
      simp only [runOut] at h
      split at h
      · exact .inl ⟨.rxu, h⟩
      · split at h
        · exact .inl ⟨.txu, h⟩
        · exact .inr (Host.Outcome.next.inj h).symm
    · rw [← hf] at h
      exact .inr ⟨hf, .inl ⟨_, _, ‹_›, h⟩⟩
    · rw [← hf] at h
      exact .inr ⟨hf, .inr (.inl ⟨_, _, ‹_›, h⟩)⟩
    · exact .inl ⟨_, ‹_›, (Host.Outcome.next.inj h).symm⟩
  · simp only [step, hf, afterFault] at h
    split at h
    · exact .inl ⟨_, ‹_›, (Host.Outcome.next.inj h).symm⟩
    · cases h

/-! ### Runs -/

/-- What every step keeps, every run keeps. -/
theorem run_keeps (P : State → Prop) (hstep : ∀ s t, P s → step s = .next t → P t) (k : Nat) (s t : State) (hs : P s)
    (h : Sys2Proof.core.run k s = .next t) : P t := by
  induction k generalizing s with
  | zero =>
    simp only [Host.Core.run] at h
    cases h
    exact hs
  | succ k ih =>
    simp only [Host.Core.run] at h
    split at h
    · rename_i s' hs'
      exact ih s' (hstep s s' hs hs') h
    · cases h
    · cases h

end Sys2Proof.Machine
end

