-- ==== Sys2Proof/Tests/Slice0.lean ====
section
/-! SUPPORT. The model's own tests. Expected results come from spec/95_test_vectors.md (named by row) or are written out by
hand from the encoding tables of spec/30_encoding.md. The last part holds a witness for the hypotheses of every statement
that has any. -/

open Sys2Proof Sys2Proof.Machine

namespace Sys2Proof.Tests

/-! ### Helpers -/

/-- The block after reset with buffers of 64 elements, as the range vectors of spec/95_test_vectors.md ask for. -/
def small : State := { State.reset with params := { rxbufSize := 64, txbufSize := 64, cbufSize := 64 } }

/-- `small` with `bs` in RXBUF from 0, RX_OFF = 0, RX_LEN their number and RX_CCAP = 16. -/
def rxWith (bs : List Byte) : State :=
  { small with rxbuf := small.rxbuf.writeRange 0 bs, rx := { small.rx with len := BitVec.ofNat 32 bs.length, ccap := 16#32 } }

/-- `small` with `bs` in TXBUF from 32, TX_SRC = 32, TX_DST = 0, TX_LEN their number and TX_CTL = `ctl`. -/
def txWith (ctl : Word) (bs : List Byte) : State :=
  { small with
    txbuf := small.txbuf.writeRange 32 bs
    tx := { small.tx with src := 32#32, len := BitVec.ofNat 32 bs.length, ctl := TxCtl.ofWord ctl } }

/-- `s` with the inputs `is` to come. -/
def fed (is : List Input) (s : State) : State := { s with inputs := is }

/-- What is read off the next state, if there is one. -/
def seen {α : Type} (f : State → α) : Result → Option α
  | .next t => some (f t)
  | _ => none

/-- The fault a step ends with, if it does. -/
def faultOf : Result → Option Fault
  | .fault r => some r
  | _ => none

/-- RX_STATUS, RX_HDR, RX_NEED, RX_HSIZE, RX_PLEN, RX_PAYOFF and RX_FSIZE, the columns of the DEC_HDR vectors. -/
def headerColumns (s : State) : Word × Word × Word × Word × DWord × Word × DWord :=
  (s.rx.status.word, s.rx.hdr.word, s.rx.need, s.rx.hsize, s.rx.plen, s.rx.payOff, s.rx.fsize)

/-- RX_STATUS, RX_CONSUMED, RX_PRODUCED, RX_UTF and CBUF, the columns of the UTF-8 vectors. -/
structure UtfColumns where
  status : Word
  consumed : Word
  produced : Word
  utf : Word
  cbuf : Memory CodeUnit
deriving DecidableEq

/-- The columns of the UTF-8 vectors, read off a state. -/
def utfColumns (s : State) : UtfColumns :=
  { status := s.rx.status.word, consumed := s.rx.consumed, produced := s.rx.produced, utf := s.rx.utf.word, cbuf := s.cbuf }

/-- The fields of an unmasked final frame with a LEN7 length. -/
def plain (n : BitVec 7) : FrameFields := { fin := true, rsv := 0#3, len := .len7 n, key := none }

/-! ### WellFormed: LEN7 values 126 and 127 are not lengths (30_encoding.md R73) -/

theorem test_wf_refuses_len7_126 : (LenField.len7 126#7).wf = false := by decide
theorem test_wf_refuses_len7_127 : (LenField.len7 127#7).wf = false := by decide
theorem test_wf_accepts_len7_125 : (LenField.len7 125#7).wf = true := by decide
theorem test_wf_refuses_frames :
    ([Instr.frameContinuation, .frameText, .frameBinary, .frameClose, .framePing, .framePong].all
      fun c => !(c (plain 126#7)).wf) = true := by decide

/-! ### Decoding: every row of the opcode table, from words written out by hand (30_encoding.md R71, R72, R75, R86) -/

theorem test_decode_decHdr :
    decodeCommand .rxu 0b00000000000000000000000000000001#32 = .ok .decHdr := rfl
theorem test_decode_encFrame :
    decodeCommand .txu 0b00000000000000000000000000000010#32 = .ok .encFrame := rfl
theorem test_decode_xorMask :
    decodeCommand .txu 0b00000000000000000000000000000011#32 = .ok .xorMask := rfl
theorem test_decode_utfReset :
    decodeCommand .rxu 0b00000000000000000000000000000100#32 = .ok .utfReset := rfl
theorem test_decode_utfDecode :
    decodeCommand .rxu 0b00000000000000000000000000000101#32 = .ok .utfDecode := rfl
theorem test_decode_utfDecodeE :
    decodeCommand .rxu 0b00000000000000000000000000010101#32 = .ok .utfDecodeE := rfl
theorem test_decode_utfFinish :
    decodeCommand .rxu 0b00000000000000000000000000000110#32 = .ok .utfFinish := rfl
/-- FIN 0, RSV 101, OPCODE 0000; MASK 0, LEN7 0000011. -/
theorem test_decode_frameContinuation : decodeFrame [0b01010000#8, 0b00000011#8] =
    .ok (.frameContinuation { fin := false, rsv := 0b101#3, len := .len7 3#7, key := none }, []) := rfl
/-- FIN 1, OPCODE 0001; LEN7 0000101 (vector DH1). -/
theorem test_decode_frameText : decodeFrame [0b10000001#8, 0b00000101#8] = .ok (.frameText (plain 5#7), []) := rfl
/-- OPCODE 0010; LEN7 1111111, then eight length bytes (vector DH22). -/
theorem test_decode_frameBinary :
    decodeFrame [0b10000010#8, 0b01111111#8, 0#8, 0#8, 0#8, 0#8, 0#8, 0b00000001#8, 0#8, 0#8] =
      .ok (.frameBinary { fin := true, rsv := 0#3, len := .ext64 65536#64, key := none }, []) := rfl
/-- OPCODE 1000; MASK 1, LEN7 0000010, then the key (vector E13). -/
theorem test_decode_frameClose :
    decodeFrame [0b10001000#8, 0b10000010#8, 0b00110111#8, 0b11111010#8, 0b00100001#8, 0b00111101#8, 0x34#8] =
      .ok (.frameClose { fin := true, rsv := 0#3, len := .len7 2#7, key := some 0x37FA213D#32 }, [0x34#8]) := rfl
/-- OPCODE 1001; LEN7 1111110, then two length bytes (vector DH6). -/
theorem test_decode_framePing : decodeFrame [0b10001001#8, 0b01111110#8, 0b00000000#8, 0b01111110#8] =
    .ok (.framePing { fin := true, rsv := 0#3, len := .ext16 126#16, key := none }, []) := rfl
/-- OPCODE 1010; LEN7 1111101 (vector DH5). -/
theorem test_decode_framePong : decodeFrame [0b10001010#8, 0b01111101#8] = .ok (.framePong (plain 125#7), []) := rfl
/-- Opcodes 0x3 and 0xB (vectors DH12, DH13). -/
theorem test_decode_refuses_opcodes : decodeFrame [0x83#8, 0x00#8] = .error (.unrecognizedOpcode 0x3#4) ∧
    decodeFrame [0x8B#8, 0x00#8] = .error (.unrecognizedOpcode 0xB#4) := ⟨rfl, rfl⟩
/-- Vectors W1 to W6 and U65. -/
theorem test_decode_refuses_words :
    decodeCommand .rxu 0x0#32 = .error .reservedCode ∧ decodeCommand .rxu 0x7#32 = .error .reservedCode ∧
    decodeCommand .rxu 0x21#32 = .error .reservedBitsSet ∧ decodeCommand .rxu 0x3#32 = .error .otherUnit ∧
    decodeCommand .txu 0x1#32 = .error .otherUnit ∧ decodeCommand .txu 0x12#32 = .error .emitNotAllowed ∧
    decodeCommand .rxu 0x14#32 = .error .emitNotAllowed := ⟨rfl, rfl, rfl, rfl, rfl, rfl, rfl⟩
theorem test_table_words : decodeTableWord 32 0x15 = some .utfDecodeE ∧ decodeTableWord 8 0x89 = some (.framePing (plain 0#7)) :=
  ⟨rfl, rfl⟩

/-! ### DEC_HDR and the wire headers (95_test_vectors.md 2.1) -/

/-- DH24. -/
theorem test_decHdr_largest_length :
    seen headerColumns (exec .decHdr (rxWith [0x82#8, 0x7F#8, 0x7F#8, 0xFF#8, 0xFF#8, 0xFF#8, 0xFF#8, 0xFF#8, 0xFF#8, 0xFF#8])) =
      some (0x2#32, 0x7F82#32, 10#32, 10#32, 0x7FFFFFFFFFFFFFFF#64, 10#32, 0x8000000000000009#64) := by decide
/-- DH31. -/
theorem test_decHdr_masked_before_need_more : seen headerColumns (exec .decHdr (rxWith [0x88#8, 0xFE#8])) =
    some (0x1202#32, 0x1FE88#32, 4#32, 0#32, 0#64, 0#32, 0#64) := by decide
/-- DH21. -/
theorem test_frameContinuation : seen headerColumns (exec (.frameContinuation (plain 3#7)) (rxWith [0x80#8, 0x03#8])) =
    some (0x2#32, 0x380#32, 2#32, 2#32, 3#64, 2#32, 5#64) := by decide
/-- DH11. -/
theorem test_frameText_allowed_rsv :
    seen headerColumns (exec (.frameText { fin := true, rsv := 0b100#3, len := .len7 5#7, key := none })
      ((small.writeReg 0xC#32 .rxCfg).writeReg 2#32 .rxLen)) =
      some (0x2#32, 0x5C1#32, 2#32, 2#32, 5#64, 2#32, 7#64) := by decide
/-- DH25. -/
theorem test_frameBinary_too_large :
    seen headerColumns (exec (.frameBinary { fin := true, rsv := 0#3, len := .ext16 1001#16, key := none })
      ((((small.writeReg 0#32 .rxMaxLenHi).writeReg 1000#32 .rxMaxLenLo).writeReg 4#32 .rxLen))) =
      some (0x2002#32, 0x7E82#32, 4#32, 0#32, 0#64, 0#32, 0#64) := by decide
/-- DH8. -/
theorem test_frameClose : seen headerColumns (exec (.frameClose (plain 2#7)) (small.writeReg 4#32 .rxLen)) =
    some (0x2#32, 0x10288#32, 2#32, 2#32, 2#64, 2#32, 4#64) := by decide
/-- DH9. -/
theorem test_framePing_fragmented :
    seen headerColumns (exec (.framePing { plain 0#7 with fin := false }) (small.writeReg 2#32 .rxLen)) =
      some (0x1402#32, 0x10009#32, 2#32, 0#32, 0#64, 0#32, 0#64) := by decide
/-- DH5. -/
theorem test_framePong_125 : seen headerColumns (exec (.framePong (plain 125#7)) (small.writeReg 2#32 .rxLen)) =
    some (0x2#32, 0x17D8A#32, 2#32, 2#32, 125#64, 2#32, 127#64) := by decide

/-! ### ENC_FRAME and XOR_MASK (95_test_vectors.md 2.2, 2.3) -/

/-- E3. -/
theorem test_encFrame_hello :
    seen (fun t => (t.txbuf.readRange 0 11 |>.toOption, t.tx.status.word, t.tx.hsize, t.tx.keyOut, t.tx.fsize))
      (encodeFrame 0x37FA213D#32 (txWith 0x81#32 [0x48#8, 0x65#8, 0x6C#8, 0x6C#8, 0x6F#8])) =
      some (some [0x81#8, 0x85#8, 0x37#8, 0xFA#8, 0x21#8, 0x3D#8, 0x7F#8, 0x9F#8, 0x4D#8, 0x51#8, 0x58#8],
        0x2#32, 6#32, 0x37FA213D#32, 11#32) := by decide
/-- E1. -/
theorem test_encFrame_empty_ping :
    seen (fun t => (t.txbuf, t.tx.status.word, t.tx.hsize, t.tx.keyOut, t.tx.fsize, t.draws)) (exec .encFrame (txWith 0x89#32 [])) =
      some ([(0, 0x89#8), (1, 0x80#8), (2, 0#8), (3, 0#8), (4, 0#8), (5, 0#8)], 0x2#32, 6#32, 0#32, 6#32, 0) := by decide
/-- X4. -/
theorem test_xorMask_phase_1 :
    seen (fun t => (t.txbuf, t.tx.status.word))
      (exec .xorMask (((((txWith 0#32 [0x48#8, 0x65#8, 0x6C#8, 0x6C#8, 0x6F#8]).writeReg 32#32 .txDst).writeReg
        0x37FA213D#32 .txKey).writeReg 1#32 .txPhase))) =
      some ([(32, 0xB2#8), (33, 0x44#8), (34, 0x51#8), (35, 0x5B#8), (36, 0x95#8)], 0x2#32) := by decide
/-- X7. -/
theorem test_xorMask_range :
    seen (fun t => (t.txbuf, t.tx.status.word)) (exec .xorMask ((small.writeReg 62#32 .txDst).writeReg 3#32 .txLen)) =
      some ([], 0x3102#32) := by decide

/-! ### The UTF-8 commands (95_test_vectors.md 2.4) -/

/-- U12. -/
theorem test_utfDecodeE_pair : seen utfColumns (exec .utfDecodeE (rxWith [0xF0#8, 0x9F#8, 0x98#8, 0x80#8])) =
    some ⟨0x2#32, 4#32, 2#32, 0#32, [(0, 0xD83D#16), (1, 0xDE00#16)]⟩ := by decide
/-- U41. -/
theorem test_utfDecodeE_full :
    seen utfColumns (exec .utfDecodeE ((rxWith [0xF0#8, 0x9F#8, 0x98#8, 0x80#8]).writeReg 1#32 .rxCcap)) =
      some ⟨0x202#32, 3#32, 0#32, 0x022007D8#32, []⟩ := by decide
/-- U46. -/
theorem test_utfDecode_validates : seen utfColumns (exec .utfDecode ((rxWith [0xF0#8, 0x9F#8, 0x98#8, 0x80#8]).writeReg 0#32 .rxCcap)) =
    some ⟨0x2#32, 4#32, 2#32, 0#32, []⟩ := by decide
/-- U20. -/
theorem test_utfDecode_overlong : seen utfColumns (exec .utfDecode (rxWith [0xE0#8, 0x9F#8, 0xBF#8])) =
    some ⟨0x1A02#32, 2#32, 0#32, 0#32, []⟩ := by decide
/-- U60. -/
theorem test_utfReset : seen utfColumns (exec .utfReset { small with rx := { small.rx with
    utf := { cp := 0#21, rem := 2#2, seqLen := 3#3 } } }) = some ⟨0x2#32, 0#32, 0#32, 0#32, []⟩ := by decide
/-- U63. -/
theorem test_utfFinish_incomplete : seen utfColumns (exec .utfFinish { small with rx := { small.rx with
    utf := { cp := 0x7D8#21, rem := 1#2, seqLen := 4#3 } } }) = some ⟨0x1B02#32, 0#32, 0#32, 0#32, []⟩ := by decide
/-- U64. -/
theorem test_utfFinish_ok : seen utfColumns (exec .utfFinish small) = some ⟨0x2#32, 0#32, 0#32, 0#32, []⟩ := by decide

/-! ### Steps and the host port (95_test_vectors.md 2.5) -/

/-- The first instruction after reset is the word placed there. -/
theorem test_fetch_word : seen utfColumns (step (State.reset.withFetchWord 32 0x6)) =
    some ⟨0x2#32, 0#32, 0#32, 0#32, []⟩ := by decide
/-- A wire row is received by DEC_HDR (DH4). -/
theorem test_fetch_wire : seen headerColumns (step (small.withFetchWord 8 0x89)) =
    some (0x2#32, 0x10089#32, 2#32, 2#32, 0#64, 2#32, 2#64) := by decide
/-- W4. -/
theorem test_illegal_word :
    seen (fun t => t.rx.status.word) (step (fed [.complete .rxu] (small.startCommand .rxu 0x3#32))) = some 0x3002#32 := by decide
/-- W8, W12. -/
theorem test_reserved_bits : ((small.writeReg 0xFFFFFFFF#32 .rxCfg).readReg .rxCfg, (small.writeReg 0xFFFFFFFF#32 .txPhase).readReg .txPhase) =
    (0xF#32, 0x3#32) := by decide
/-- W7, W9, W13. -/
theorem test_reset_registers : (State.reset.readReg .rxCfg, State.reset.readReg .rxMaxLenHi, State.reset.readReg .rxMaxLenLo,
    State.reset.readReg .rxStatus) = (0x8#32, 0x7FFFFFFF#32, 0xFFFFFFFF#32, 0#32) := by decide
/-- W14 to W16. -/
theorem test_bad_accesses :
    [faultOf (hostAccess (.read 32 0x50#32) small), faultOf (hostAccess (.read 8 0x4#32) small),
      faultOf (hostAccess (.read 16 0x30000001#32) small)] =
    [some (.hostBadAccess 0x50#32 32), some (.hostBadAccess 0x4#32 8), some (.hostBadAccess 0x30000001#32 16)] := by decide
/-- W17, W18, W21. -/
theorem test_other_faults :
    [faultOf (hostAccess (.read 8 0x10000005#32) small),
      faultOf (hostAccess (.write 32 0x14#32 0#32) (small.startCommand .rxu 1#32)),
      faultOf (hostAccess (.write 8 0x20000000#32 0#32) (small.startCommand .txu 1#32))] =
    [some (.uninitRead .rxbuf 5), some (.hostHazard .rxu 0x14#32), some (.hostHazard .txu 0x20000000#32)] := by decide
/-- W19, W20. -/
theorem test_allowed_while_busy :
    (seen State.lastRead (hostAccess (.read 32 0x4#32) (small.startCommand .rxu 1#32)),
      seen (fun t => t.tx.len) (hostAccess (.write 32 0x118#32 9#32) (small.startCommand .rxu 1#32))) =
    (some (some 0x1#32), some 9#32) := by decide
/-- W11, and the same write while RXU is busy (92_eei_decisions.md D4). -/
theorem test_write_of_result_register :
    (seen (fun t => t.readReg .rxHdr) (hostAccess (.write 32 0x24#32 0x1234#32) small),
      faultOf (hostAccess (.write 32 0x24#32 0x1234#32) (small.startCommand .rxu 1#32))) =
    (some 0#32, some (.hostHazard .rxu 0x24#32)) := by decide
/-- U33's state after its third byte and the worked example of R134, as words. -/
theorem test_utf_word : (Utf8State.word { cp := 0x7D8#21, rem := 1#2, seqLen := 4#3 },
    Utf8State.word { cp := 0#21, rem := 2#2, seqLen := 3#3 }) = (0x022007D8#32, 0x01C00000#32) := by decide
/-- E33, DH42. -/
theorem test_uninit_in_commands :
    [faultOf (exec .encFrame ((txWith 0x81#32 [0x61#8, 0x62#8]).writeReg 3#32 .txLen)),
      faultOf (exec .decHdr ((rxWith [0x81#8]).writeReg 2#32 .rxLen))] =
    [some (.uninitRead .txbuf 34), some (.uninitRead .rxbuf 1)] := by decide

/-! ### Witnesses: for each statement with hypotheses, concrete inputs that meet them all

`seen f r = some v` says that `r` is a next state `t` with `f t = v`. Boundary values are used where a statement has several
clauses over one input. -/

theorem witness_DecodeEncodeRoundTrip :
    (Instr.frameBinary { fin := false, rsv := 7#3, len := .ext64 0xFFFFFFFFFFFFFFFF#64, key := some 0xFFFFFFFF#32 }).wf = true ∧
    (Instr.framePong (plain 125#7)).wf = true := by decide

theorem witness_DecodedHeaderReencodes : decodeFrame [0x88#8, 0x02#8, 0x03#8, 0xE8#8] =
    .ok (.frameClose (plain 2#7), [0x03#8, 0xE8#8]) := rfl

theorem witness_ParseHeaderReadsEncodeHeader : 0 < 2 ^ 63 ∧ 2 ^ 63 - 1 < 2 ^ 63 := by decide

theorem witness_EncodeHeaderLayout : (125 < 2 ^ 63 ∧ ¬ 125 < 125) ∧ (126 < 2 ^ 63 ∧ 125 < 126) ∧ 2 ^ 63 - 1 < 2 ^ 63 := by decide

theorem witness_ParseHeaderReadsOnlyTheHeader :
    parseHeader [0x82#8, 0x7E#8, 0x01#8, 0x00#8, 0x55#8] =
      .header { fin := true, rsv := 0#3, opcode := 2#4, mask := false, len7 := 126#7, plen := 256, key := 0#32, hsize := 4 } ∧
    parseHeader [0x82#8, 0x7E#8, 0x01#8] = .needMore 4 ∧ parseHeader [] = .needMore 2 := by decide

/-- `small` with RX_OFF = `off`, RX_LEN = `len` and `bs` in RXBUF from `off`. -/
def rxAt (off len : Nat) (bs : List Byte) : State :=
  { small with
    rxbuf := small.rxbuf.writeRange off bs,
    rx := { small.rx with off := BitVec.ofNat 32 off, len := BitVec.ofNat 32 len, ccap := 16#32 } }

theorem witness_DecHdrFollowsItsPseudocode_range : small.params.rxbufSize < (rxAt 60 5 []).rx.off.toNat + (rxAt 60 5 []).rx.len.toNat ∧
    (rxAt 63 1 []).rx.off.toNat + (rxAt 63 1 []).rx.len.toNat ≤ small.params.rxbufSize ∧ (rxAt 63 1 []).rx.len.toNat < 2 ∧
    (rxAt 62 2 []).rx.off.toNat + (rxAt 62 2 []).rx.len.toNat ≤ small.params.rxbufSize ∧ 2 ≤ (rxAt 62 2 []).rx.len.toNat ∧
    (rxAt 62 2 []).rxbuf.read 62 = none := by decide
theorem witness_DecHdrFollowsItsPseudocode_bytes :
    ((rxAt 62 2 [0x81#8]).rxbuf.read 62 = some 0x81#8 ∧ (rxAt 62 2 [0x81#8]).rxbuf.read 63 = none) ∧
    ((rxAt 62 2 [0x81#8, 0x00#8]).rxbuf.read 62 = some 0x81#8 ∧ (rxAt 62 2 [0x81#8, 0x00#8]).rxbuf.read 63 = some 0x00#8) := by
  decide
theorem witness_DecHdrFollowsItsPseudocode_length :
    ((rxAt 60 4 [0x82#8, 0x7E#8, 0x01#8]).rxbuf.readRange 62 2).toOption = none ∧
    ((rxAt 60 4 [0x82#8, 0x7E#8, 0x01#8, 0x00#8]).rxbuf.readRange 62 2).toOption = some [0x01#8, 0x00#8] := by decide

/-- DH5 with k = 2, and DH24's largest length. -/
theorem witness_DecHdrAcceptsLegalHeader :
    ((rxWith [0x8A#8, 0x7D#8]).rxbuf.readRange 0 2).toOption = some [0x8A#8, 0x7D#8] ∧
    parseHeader [0x8A#8, 0x7D#8] =
      .header { fin := true, rsv := 0#3, opcode := 0xA#4, mask := false, len7 := 125#7, plen := 125, key := 0#32, hsize := 2 } ∧
    0 + 2 ≤ small.params.rxbufSize ∧ 0#3 &&& ~~~small.rx.rsvAllow = 0#3 ∧ recognized 0xA#4 = true ∧
    (isControl 0xA#4 = true → true = true ∧ 125 ≤ 125) ∧ 125 < 2 ^ 63 ∧
    2 ^ 63 - 1 ≤ (small.rx.maxLenHi ++ small.rx.maxLenLo).toNat := by decide

theorem witness_DecHdrRunsTheWireFrame : (Instr.frameText (plain 5#7)).wf = true ∧
    encode (.frameText (plain 5#7)) = .wire [0x81#8, 0x05#8] ∧
    ((rxWith [0x81#8, 0x05#8, 0x48#8]).rxbuf.readRange 0 2).toOption = some [0x81#8, 0x05#8] := by decide

theorem witness_IsWireFrame : IsWireFrame 0x8#4 (plain 125#7) (.frameClose (plain 125#7)) ∧
    IsWireFrame 0x2#4 { plain 0#7 with len := .ext64 0x7FFFFFFFFFFFFFFF#64 }
      (.frameBinary { plain 0#7 with len := .ext64 0x7FFFFFFFFFFFFFFF#64 }) := by
  exact ⟨.inr (.inr (.inr (.inl ⟨rfl, rfl⟩))), .inr (.inr (.inl ⟨rfl, rfl⟩))⟩

/-- With witness_IsWireFrame: a CLOSE of 125 bytes, and a BINARY frame of 2^63 - 1 bytes. -/
theorem witness_WireFrameAccepted : (plain 125#7).wf = true ∧ (plain 125#7).key = none ∧
    (rxAt 62 2 []).rx.off.toNat + (rxAt 62 2 []).rx.len.toNat ≤ small.params.rxbufSize ∧
    2 + extSize 125#7 ≤ (rxAt 62 2 []).rx.len.toNat ∧ (plain 125#7).rsv &&& ~~~(rxAt 62 2 []).rx.rsvAllow = 0#3 ∧
    ((plain 125#7).fin = true ∧ (plain 125#7).len.value ≤ 125) ∧
    (LenField.ext64 0x7FFFFFFFFFFFFFFF#64).value < 2 ^ 63 ∧ 2 + extSize 127#7 ≤ (rxAt 54 10 []).rx.len.toNat ∧
    (LenField.ext64 0x7FFFFFFFFFFFFFFF#64).value ≤ (small.rx.maxLenHi ++ small.rx.maxLenLo).toNat := by decide

/-- With witness_IsWireFrame: the window that does not fit, one byte, a missing extended length, a whole header, and the last
clause at MAXLEN = 1000 and length 1001 (DH25). -/
theorem witness_WireFrameRefused : (plain 125#7).wf = true ∧
    (rxAt 60 5 []).params.rxbufSize < (rxAt 60 5 []).rx.off.toNat + (rxAt 60 5 []).rx.len.toNat ∧
    ((rxAt 63 1 []).rx.off.toNat + (rxAt 63 1 []).rx.len.toNat ≤ small.params.rxbufSize ∧ (rxAt 63 1 []).rx.len.toNat < 2) ∧
    (rxAt 61 3 []).rx.len.toNat < 2 + extSize 126#7 ∧ 62 + 2 ≤ small.params.rxbufSize ∧
    2 + extSize (plain 125#7).len.len7Bits ≤ (rxAt 62 2 []).rx.len.toNat ∧
    (((small.writeReg 0#32 .rxMaxLenHi).writeReg 1000#32 .rxMaxLenLo).rx.maxLenHi ++
      ((small.writeReg 0#32 .rxMaxLenHi).writeReg 1000#32 .rxMaxLenLo).rx.maxLenLo).toNat < (LenField.ext16 1001#16).value := by
  decide

/-- P4: one byte, then two. -/
theorem witness_NeedMoreAtMostTwice :
    seen (fun t => (t.rx.status.code, t.rx.need)) (exec .decHdr (rxWith [0x82#8])) = some (.needMore, 2#32) ∧
    seen (fun t => (t.rx.status.code, t.rx.need)) (exec .decHdr (rxWith [0x82#8, 0x7E#8])) = some (.needMore, 4#32) ∧
    (rxWith [0x82#8, 0x7E#8]).rxbuf.read 0 = (rxWith [0x82#8]).rxbuf.read 0 ∧ 2 ≤ (rxWith [0x82#8, 0x7E#8]).rx.len.toNat := by
  decide

theorem witness_HeaderCommandsFrame : (seen (fun t => t.rx.status.code) (exec .decHdr (rxWith [0x81#8, 0x05#8]))).isSome = true ∧
    (seen (fun t => t.rx.status.code) (exec (.frameClose (plain 2#7)) (rxWith [0x88#8, 0x02#8]))).isSome = true := by decide

theorem witness_AcceptedFramesAreLegal :
    seen (fun t => t.rx.status.code) (exec .decHdr (rxWith [0x81#8, 0x05#8])) = some .ok ∧
    seen (fun t => t.tx.status.code) (exec .encFrame (txWith 0x89#32 [])) = some .ok := by decide

/-- E31: the frame ends at the last element of TXBUF; E1: an empty payload. -/
theorem witness_EncFrameWritesMaskedFrame :
    6 + 58 ≤ small.params.txbufSize ∧ 0 + 6 + 58 ≤ small.params.txbufSize ∧ recognized 0x1#4 = true ∧
    (TxCtl.ofWord 0x81#32).rsv &&& ~~~small.tx.rsvAllow = 0#3 ∧ isControl (TxCtl.ofWord 0x81#32).opcode = false ∧
    (Memory.readRange (small.txbuf.writeRange 6 (List.replicate 58 0x61#8)) 6 58).toOption = some (List.replicate 58 0x61#8) ∧
    (Memory.readRange small.txbuf 6 0).toOption = some [] := by decide

/-- E33: the payload's third byte was never written. -/
theorem witness_EncFrameRefusesIllegalFrame :
    ((txWith 0x81#32 [0x61#8, 0x62#8]).txbuf.readRange 32 3).toOption = none ∧ 32 + 3 ≤ small.params.txbufSize ∧
    0 + 6 + 3 ≤ small.params.txbufSize := by decide

theorem witness_EncFrameParsesBack : ∃ t, exec .encFrame (txWith 0x81#32 [0x48#8, 0x65#8]) = .next t ∧ t.tx.status.code = .ok :=
  ⟨_, rfl, rfl⟩

/-- E18 finishes OK, E30's range and E16's opcode do not. -/
theorem witness_EncFrameFrame : (∃ t, exec .encFrame (txWith 0x01#32 [0x48#8, 0x65#8]) = .next t ∧ t.tx.status.code = .ok) ∧
    (∃ t, exec .encFrame (txWith 0x83#32 []) = .next t ∧ t.tx.status.code ≠ .ok) := by
  exact ⟨⟨_, rfl, rfl⟩, ⟨_, rfl, by decide⟩⟩

theorem witness_EncFrameMasksLikeXorMask : small.params.Ok ∧
    ((txWith 0x81#32 [0x48#8, 0x65#8]).txbuf.readRange 32 2).toOption = some [0x48#8, 0x65#8] ∧
    ∃ t, exec .encFrame (txWith 0x81#32 [0x48#8, 0x65#8]) = .next t ∧ t.tx.status.code = .ok := by
  exact ⟨by decide, by decide, _, rfl, rfl⟩

/-- `small` with TX_DST = `dst`, TX_LEN = `len`, TX_KEY = 0x37FA213D and `bs` in TXBUF from `dst`. -/
def maskAt (dst len : Nat) (bs : List Byte) : State :=
  { small with
    txbuf := small.txbuf.writeRange dst bs,
    tx := { small.tx with dst := BitVec.ofNat 32 dst, len := BitVec.ofNat 32 len, key := 0x37FA213D#32 } }

/-- X7's range, a range that ends at the last element, and one with a byte never written. -/
theorem witness_XorMaskMasksEachByte : (maskAt 62 3 []).params.txbufSize < (maskAt 62 3 []).tx.dst.toNat + (maskAt 62 3 []).tx.len.toNat ∧
    (maskAt 62 2 []).tx.dst.toNat + (maskAt 62 2 []).tx.len.toNat ≤ (maskAt 62 2 []).params.txbufSize ∧
    ((maskAt 62 2 [0x48#8]).txbuf.readRange 62 2).toOption = none ∧
    (∀ i < (maskAt 62 2 [0x48#8, 0x65#8]).tx.len.toNat, ((maskAt 62 2 [0x48#8, 0x65#8]).txbuf.read (62 + i)).isSome = true) := by
  decide

/-- X2 after X1: `u` is the state the first XOR_MASK leaves. -/
theorem witness_XorMaskIsInvolutive :
    seen (fun t => (t.tx.dst, t.tx.len, t.tx.key, t.tx.phase))
      (exec .xorMask (maskAt 0 5 [0x48#8, 0x65#8, 0x6C#8, 0x6C#8, 0x6F#8])) = some (0#32, 5#32, 0x37FA213D#32, 0#2) := by
  decide

/-- X5 against X1. -/
theorem witness_XorMaskChunksAndLanes : 0 + (2 + 3) ≤ small.params.txbufSize ∧ small.params.Ok ∧
    seen (fun t => (t.txbuf.readRange 0 5).toOption) (exec .xorMask (maskAt 0 2 [0x48#8, 0x65#8, 0x6C#8, 0x6C#8, 0x6F#8])) =
      some (some [0x7F#8, 0x9F#8, 0x6C#8, 0x6C#8, 0x6F#8]) ∧
    seen (fun t => (t.txbuf.readRange 2 3).toOption) (exec .xorMask ((maskAt 2 3 [0x6C#8, 0x6C#8, 0x6F#8]).writeReg 2#32 .txPhase)) =
      some (some [0x4D#8, 0x51#8, 0x58#8]) ∧
    seen (fun t => (t.txbuf.readRange 0 5).toOption) (exec .xorMask (maskAt 0 5 [0x48#8, 0x65#8, 0x6C#8, 0x6C#8, 0x6F#8])) =
      some (some [0x7F#8, 0x9F#8, 0x4D#8, 0x51#8, 0x58#8]) ∧
    [0x48#8, 0x65#8, 0x6C#8, 0x6C#8, 0x6F#8][4 + 0]? = some 0x6F#8 ∧ (0 + 4) % 4 = 0 := by decide

theorem witness_XorMaskFrame : seen (fun t => t.tx.status.code) (exec .xorMask (maskAt 62 2 [0x48#8, 0x65#8])) = some .ok ∧
    seen (fun t => t.tx.status.code) (exec .xorMask (maskAt 62 3 [0x48#8, 0x65#8])) = some .useRange := by decide

/-- U33's state before its last byte, its next step, and the commands that leave the empty state. -/
theorem witness_Utf8StateInvariantKept :
    (small.rx.utf.Inv ∧ (seen (fun t => t.rx.status.code) (step small)).isSome = true) ∧
    ({ cp := 0x1F#21, rem := 2#2, seqLen := 4#3 } : Utf8State).Inv ∧
    utf8Step { cp := 0x1F#21, rem := 2#2, seqLen := 4#3 } 0x98#8 true = .pend { cp := 0x7D8#21, rem := 1#2, seqLen := 4#3 } ∧
    utf8Step { cp := 0x7D8#21, rem := 1#2, seqLen := 4#3 } 0x80#8 true = .emit [0xD83D#16, 0xDE00#16] Utf8State.empty ∧
    seen (fun t => t.rx.status.code) (exec .utfDecode (rxWith [0x80#8])) = some .utfBadLead ∧
    seen (fun t => t.rx.status.code) (exec .utfDecodeE (rxWith [0xC3#8, 0x41#8])) = some .utfBadCont := by decide

theorem witness_LeadingByteClasses : (0x7F#8).toNat ≤ 0x7F ∧ (0x80 ≤ (0x80#8).toNat ∧ (0xBF#8).toNat ≤ 0xBF) ∧
    (0xC0 ≤ (0xC0#8).toNat ∧ (0xDF#8).toNat ≤ 0xDF) ∧ (0xE0 ≤ (0xE0#8).toNat ∧ (0xEF#8).toNat ≤ 0xEF) ∧
    (0xF0 ≤ (0xF0#8).toNat ∧ (0xF7#8).toNat ≤ 0xF7) ∧ 0xF8 ≤ (0xF8#8).toNat ∧
    (0x80 ≤ (0x80#8).toNat ∧ (0x80#8).toNat ≤ 0xBF) ∧ (0xC0 ≤ (0xC1#8).toNat ∧ (0xC1#8).toNat ≤ 0xC1) ∧
    ((0xE0#8).toNat = 0xE0 ∧ (0x9F#8).toNat ≤ 0x9F) ∧ ((0xED#8).toNat = 0xED ∧ 0xA0 ≤ (0xA0#8).toNat) ∧
    ((0xF0#8).toNat = 0xF0 ∧ (0x8F#8).toNat ≤ 0x8F) ∧ ((0xF4#8).toNat = 0xF4 ∧ 0x90 ≤ (0x90#8).toNat) ∧
    (0xF5 ≤ (0xF5#8).toNat ∧ (0xF5#8).toNat ≤ 0xF7) := by decide

theorem witness_EveryScalarValueDecodes : (0xD7FF ≤ 0x10FFFF ∧ ¬ (0xD800 ≤ 0xD7FF ∧ 0xD7FF ≤ 0xDFFF)) ∧
    (0xE000 ≤ 0x10FFFF ∧ ¬ (0xD800 ≤ 0xE000 ∧ 0xE000 ≤ 0xDFFF)) ∧ 0x10FFFF ≤ 0x10FFFF := by decide

theorem witness_StrictUnitsAreUtf16 : ({ cp := 0x7D8#21, rem := 1#2, seqLen := 4#3 } : Utf8State).Inv ∧
    utf8Step { cp := 0x7D8#21, rem := 1#2, seqLen := 4#3 } 0x80#8 true = .emit [0xD83D#16, 0xDE00#16] Utf8State.empty := by decide

/-- U34 ends without an error; U35 with one, and the bytes after the error need not be written. -/
theorem witness_UtfDecodeIsTheFold :
    ((rxWith [0x48#8, 0xC3#8]).rxbuf.readRange 0 2).toOption = some [0x48#8, 0xC3#8] ∧ 0 + 2 ≤ small.params.rxbufSize ∧
    (utf8Fold true [0x48#8, 0xC3#8] 0 [] Utf8State.empty).error = none ∧
    ((rxAt 61 3 [0x41#8, 0x80#8]).rxbuf.readRange 61 2).toOption = some [0x41#8, 0x80#8] ∧ 61 + 3 ≤ small.params.rxbufSize ∧
    (utf8Fold true [0x41#8, 0x80#8] 0 [] Utf8State.empty).error = some (1, .utfBadLead) := by decide

theorem witness_UtfDecodeEWritesTheFold :
    (rxWith [0x48#8, 0xC3#8]).rx.coff.toNat + (rxWith [0x48#8, 0xC3#8]).rx.ccap.toNat ≤ small.params.cbufSize ∧
    ((rxWith [0x48#8, 0xC3#8]).rxbuf.readRange 0 2).toOption = some [0x48#8, 0xC3#8] ∧ 0 + 2 ≤ small.params.rxbufSize ∧
    (utf8Fold true [0x48#8, 0xC3#8] 0 [] Utf8State.empty).units.length ≤ 16 ∧
    (utf8Fold true [0x48#8, 0xC3#8] 0 [] Utf8State.empty).error = none ∧
    (utf8Fold true [0x41#8, 0x80#8] 0 [] Utf8State.empty).error = some (1, .utfBadLead) ∧
    (utf8Fold true [0x41#8, 0x80#8] 0 [] Utf8State.empty).units.length ≤ 16 := by decide

/-- U41. -/
theorem witness_UtfDecodeEStopsWhenFull :
    ((rxWith [0xF0#8, 0x9F#8, 0x98#8, 0x80#8]).rxbuf.readRange 0 4).toOption = some [0xF0#8, 0x9F#8, 0x98#8, 0x80#8] ∧
    0 + 4 ≤ small.params.rxbufSize ∧ 0 + 1 ≤ small.params.cbufSize ∧ 3 < 4 ∧
    (utf8Fold true [0xF0#8, 0x9F#8, 0x98#8] 0 [] Utf8State.empty).error = none ∧
    (utf8Fold true [0xF0#8, 0x9F#8, 0x98#8] 0 [] Utf8State.empty).units.length ≤ 1 ∧
    utf8Step (utf8Fold true [0xF0#8, 0x9F#8, 0x98#8] 0 [] Utf8State.empty).utf 0x80#8 true =
      .emit [0xD83D#16, 0xDE00#16] Utf8State.empty ∧ 1 < 0 + 2 := by decide

/-- U47, U48, and a range whose second byte was never written. -/
theorem witness_UtfDecodeRangeAndUninit : small.params.rxbufSize < 60 + (rxAt 60 5 []).rx.len.toNat ∧
    small.params.cbufSize < ((small.writeReg 60#32 .rxCoff).writeReg 5#32 .rxCcap).rx.coff.toNat +
      ((small.writeReg 60#32 .rxCoff).writeReg 5#32 .rxCcap).rx.ccap.toNat ∧
    ((rxAt 62 2 [0x41#8]).rxbuf.readRange 62 1).toOption = some [0x41#8] ∧ (rxAt 62 2 [0x41#8]).rxbuf.read (62 + 1) = none ∧
    (utf8Fold true [0x41#8] 0 [] Utf8State.empty).error = none ∧ 62 + 2 ≤ small.params.rxbufSize ∧
    0 + 16 ≤ small.params.cbufSize ∧ (utf8Fold true [0x41#8] 0 [] Utf8State.empty).units.length ≤ 16 := by decide

/-- P2: `E0`, then `A0 80` from the state the first part leaves, against `E0 A0 80` at once. -/
theorem witness_UtfDecodeSplitInvariance : small.params.Ok ∧ 0 + (1 + 2) ≤ small.params.rxbufSize ∧
    seen (fun t => (t.rx.status.code, t.rx.produced)) (exec .utfDecodeE ((rxWith [0xE0#8, 0xA0#8, 0x80#8]).writeReg 1#32 .rxLen)) =
      some (.ok, 0#32) ∧
    seen (fun u => (u.rx.status.code, u.rx.produced)) (exec .utfDecodeE
      { (rxAt 1 2 [0xA0#8, 0x80#8]) with rx := { (rxAt 1 2 []).rx with utf := { cp := 0#21, rem := 2#2, seqLen := 3#3 } } }) =
      some (.ok, 1#32) ∧
    seen (fun v => (v.rx.status.code, v.rx.produced)) (exec .utfDecodeE (rxWith [0xE0#8, 0xA0#8, 0x80#8])) = some (.ok, 1#32) ∧
    seen (fun t => t.rx.status.code) (exec .utfDecode ((rxWith [0xE0#8, 0xA0#8, 0x80#8]).writeReg 1#32 .rxLen)) = some .ok ∧
    seen (fun u => u.rx.status.code) (exec .utfDecode
      { (rxAt 1 2 [0xA0#8, 0x80#8]) with rx := { (rxAt 1 2 []).rx with utf := { cp := 0#21, rem := 2#2, seqLen := 3#3 } } }) =
      some .ok ∧
    seen (fun v => v.rx.status.code) (exec .utfDecode (rxWith [0xE0#8, 0xA0#8, 0x80#8])) = some .ok := by
  decide

/-- P6: U41, then with RX_CCAP = 16. -/
theorem witness_OutFullResumesExactly : small.params.Ok ∧ 1 ≤ 16 ∧ 16 < 2 ^ 32 ∧
    seen (fun t => t.rx.status.code) (exec .utfDecodeE ((rxWith [0xF0#8, 0x9F#8, 0x98#8, 0x80#8]).writeReg 1#32 .rxCcap)) =
      some .outFull ∧
    seen (fun v => v.rx.status.code) (exec .utfDecodeE (rxWith [0xF0#8, 0x9F#8, 0x98#8, 0x80#8])) = some .ok := by decide

theorem witness_ValidateOnlyEqualsDecode : 0 + 16 ≤ small.params.cbufSize ∧
    (seen (fun t => t.rx.status.code) (exec .utfDecode (rxWith [0xC3#8, 0xA9#8]))) = some .ok ∧
    (seen (fun t => t.rx.status.code) (exec .utfDecodeE (rxWith [0xC3#8, 0xA9#8]))) = some .ok := by decide

/-- U45: RX_PRODUCED is 2 and RX_CONSUMED is 1. -/
theorem witness_ProducedIsBounded : seen (fun t => (t.rx.consumed, t.rx.produced)) (exec .utfDecodeE
    { (rxWith [0x80#8]) with rx := { (rxWith [0x80#8]).rx with utf := { cp := 0x7D8#21, rem := 1#2, seqLen := 4#3 } } }) =
    some (1#32, 2#32) ∧ (rxWith [0x80#8]).rx.utf = Utf8State.empty := by decide

theorem witness_UtfCommandsFrame : ([Instr.utfReset, .utfDecode, .utfDecodeE, .utfFinish].all fun i =>
    (seen (fun t => t.rx.status.code) (exec i (rxWith [0x41#8]))).isSome) = true := by decide

theorem witness_StepRunsThePendingCommand :
    (fed [.complete .rxu] ((rxWith [0x81#8, 0x05#8]).startCommand .rxu 1#32)).faultRecord = [] ∧
    (fed [.complete .rxu] ((rxWith [0x81#8, 0x05#8]).startCommand .rxu 1#32)).rx.status.pending = some 1#32 ∧
    decodeCommand .rxu 1#32 = .ok .decHdr ∧ decodeCommand .rxu 7#32 = .error .reservedCode ∧
    encode (.frameText (plain 5#7)) = .wire [0x81#8, 0x05#8] ∧ (Instr.frameText (plain 5#7)).wf = true ∧
    (fed [.complete .rxu] ((rxWith [0x81#8, 0x05#8]).startCommand .rxu 1#32)).rxbuf.readRange 0 2 = .ok [0x81#8, 0x05#8] :=
  ⟨rfl, rfl, rfl, rfl, rfl, rfl, rfl⟩

/-- W3, W1, W2, W4, W5 and W6, one for each class of illegal words; W4's step. -/
theorem witness_IllegalWordChangesNothing : (0x21#32).extractLsb' 5 27 ≠ 0#27 ∧ (0x0#32).extractLsb' 0 4 = 0x0#4 ∧
    0x7#4 ≤ (0x7#32).extractLsb' 0 4 ∧ (0x3#32).extractLsb' 0 4 = 0x3#4 ∧ (0x1#32).extractLsb' 0 4 = 0x1#4 ∧
    ((0x12#32).getLsbD 4 = true ∧ (0x12#32).extractLsb' 0 4 ≠ 0x5#4) ∧
    (fed [.complete .rxu] (small.startCommand .rxu 3#32)).rx.status.pending = some 3#32 ∧
    (fed [.complete .rxu] (small.startCommand .rxu 3#32)).faultRecord = [] := by decide

theorem witness_CommandWriteStartsCommand : small.faultRecord = [] ∧ small.rx.status.pending = none ∧
    small.tx.status.pending = none ∧ (fed [.access (.write 32 0#32 1#32)] small).inputs = [.access (.write 32 0#32 1#32)] ∧
    (fed [.access (.write 32 0x100#32 2#32)] small).inputs = [.access (.write 32 0x100#32 2#32)] := by decide

theorem witness_CompletionReportsStatus : ([Instr.decHdr, .encFrame, .xorMask, .utfReset, .utfDecode, .utfDecodeE, .utfFinish,
    .frameText (plain 5#7)].all fun i => (seen (fun t => t.status i.unit) (exec i small)).isSome) = true := by decide

/-- DH10, E30, U29, U41 and U47 finish with a code other than OK, and a PING without FIN. -/
theorem witness_ErrorReportsArePrecise :
    seen (fun t => t.rx.status.code) (exec .decHdr (rxWith [0xC1#8, 0x05#8])) = some .protoRsv ∧
    seen (fun t => t.tx.status.code) (exec .encFrame ((txWith 0x81#32 []).writeReg 60#32 .txLen)) = some .useRange ∧
    seen (fun t => t.rx.status.code) (exec .utfDecode (rxWith [0x80#8])) = some .utfBadLead ∧
    seen (fun t => t.rx.status.code) (exec .utfDecodeE ((rxWith [0xF0#8, 0x9F#8, 0x98#8, 0x80#8]).writeReg 1#32 .rxCcap)) =
      some .outFull ∧
    seen (fun t => t.rx.status.code) (exec .utfDecodeE (rxAt 60 5 [])) = some .useRange ∧
    seen (fun t => t.rx.status.code) (exec (.framePing { plain 0#7 with fin := false }) (rxAt 62 2 [])) =
      some .protoCtrlFrag := by decide

/-- Both units busy and no input left; and a command that meets a byte never written. -/
theorem witness_StartedCommandsComplete :
    ((small.startCommand .rxu 4#32).startCommand .txu 7#32).inputs = [] ∧
    ((small.startCommand .rxu 4#32).startCommand .txu 7#32).faultRecord = [] ∧
    seen (fun t => seen (fun u => (u.rx.status.word, u.tx.status.word)) (step t))
      (step ((small.startCommand .rxu 4#32).startCommand .txu 7#32)) = some (some (0x2#32, 0x3002#32)) ∧
    faultOf (step ((small.writeReg 2#32 .rxLen).startCommand .rxu 1#32)) = some (.uninitRead .rxbuf 0) := by decide

/-- Reset is asserted in a state with a recorded fault. -/
theorem witness_ResetEventRestoresReset :
    (fed [.reset] (small.raise (.hostBadAccess 0x50#32 32))).inputs = [.reset] ∧
    (fed [.reset] (small.raise (.hostBadAccess 0x50#32 32))).faultRecord = [.hostBadAccess 0x50#32 32] := by decide

/-- W14 by a read and by a write. -/
theorem witness_OnlyLegalAccessesAreServed : small.params.Ok ∧ small.faultRecord = [] ∧
    (fed [.access (.read 32 0x50#32)] small).inputs = [.access (.read 32 0x50#32)] ∧
    (fed [.access (.write 32 0x12C#32 0#32)] small).inputs = [.access (.write 32 0x12C#32 0#32)] ∧
    faultOf (step (fed [.access (.read 32 0x50#32)] small)) = some (.hostBadAccess 0x50#32 32) := by decide

theorem witness_BusyUnitHazards : small.params.resolve 32 0x14#32 = some (.reg .rxOff) ∧
    small.params.resolve 32 0x4#32 = some (.reg .rxStatus) ∧ small.params.resolve 8 0x2000003F#32 = some (.txbuf 63) ∧
    (small.startCommand .rxu 1#32).faultRecord = [] ∧
    faultOf (step (fed [.access (.write 32 0x14#32 0#32)] (small.startCommand .rxu 1#32))) = some (.hostHazard .rxu 0x14#32) ∧
    faultOf (step (fed [.access (.write 32 0x4#32 0#32)] (small.startCommand .rxu 1#32))) = some (.hostHazard .rxu 0x4#32) ∧
    faultOf (step (fed [.access (.read 32 0x14#32)] (small.startCommand .rxu 1#32))) = some (.hostHazard .rxu 0x14#32) := by decide

theorem witness_RegisterReadsAndWrites : small.params.resolve 32 0x8#32 = some (.reg .rxCfg) ∧
    (small.status Reg.rxCfg.unit).busy = false ∧ small.faultRecord = [] ∧
    (fed [.access (.read 32 0x8#32)] small).inputs = [.access (.read 32 0x8#32)] ∧ Reg.rxCfg.kind = .rw ∧
    Reg.rxMaxLenLo ≠ Reg.rxCfg ∧ Reg.rxHdr.kind = .ro ∧ Reg.rxCmd.kind = .wo := by decide

/-- R101's worked example, and a control frame whose extended length is missing. -/
theorem witness_RegisterWordsShowTheState :
    seen (fun t => t.readReg .rxHdr) (exec .decHdr (rxWith [0x81#8, 0x05#8, 0x48#8, 0x65#8, 0x6C#8, 0x6C#8, 0x6F#8])) =
      some 0x00000581#32 ∧
    seen (fun t => t.readReg .rxHdr) (exec .decHdr (rxWith [0x8A#8, 0x7E#8])) = some 0x00017E8A#32 ∧
    0 + 2 ≤ small.params.rxbufSize ∧ (rxWith [0x8A#8, 0x7E#8]).rx.len = 2#32 ∧
    (rxWith [0x8A#8, 0x7E#8]).rxbuf.read 0 = some 0x8A#8 ∧ (rxWith [0x8A#8, 0x7E#8]).rxbuf.read 1 = some 0x7E#8 := by decide

/-- The first and the last row of each unit's part of the map. -/
theorem witness_RegisterMapIsTheTable :
    [small.params.resolve 32 0x000#32, small.params.resolve 32 0x04C#32, small.params.resolve 32 0x100#32,
      small.params.resolve 32 0x12C#32, small.params.resolve 32 0x050#32, small.params.resolve 8 0x14#32] =
    [some (.reg .rxCmd), some (.reg .rxUtf), some (.reg .txCmd), some (.reg .txFsize), none, none] := by decide

/-- The last element of each buffer. -/
theorem witness_HostBufferWrites : small.params.Ok ∧ small.faultRecord = [] ∧ 63 < small.params.rxbufSize ∧
    63 < small.params.txbufSize ∧ 63 < small.params.cbufSize ∧ small.rx.status.pending = none ∧ small.tx.status.pending = none ∧
    (fed [.access (.write 16 (BitVec.ofNat 32 (0x30000000 + 2 * 63)) 0xD83D#32)] small).inputs =
      [.access (.write 16 (BitVec.ofNat 32 (0x30000000 + 2 * 63)) 0xD83D#32)] := by decide

/-- W17, and the element after it is written; a command that faults; a step that is no reset. -/
theorem witness_UnwrittenElementsHaveNoValue : small.params.resolve 8 0x10000005#32 = some (.rxbuf 5) ∧
    small.params.resolve 8 0x20000005#32 = some (.txbuf 5) ∧ small.params.resolve 16 0x3000000A#32 = some (.cbuf 5) ∧
    small.rxbuf.read 5 = none ∧ (small.writeTarget 7#32 (.rxbuf 5)).rxbuf.read 5 = some 7#8 ∧
    (small.writeTarget 7#32 (.txbuf 5)).txbuf.read 5 = some 7#8 ∧ (small.writeTarget 7#32 (.cbuf 5)).cbuf.read 5 = some 7#16 ∧
    (small.status .rxu).busy = false ∧ (small.status .txu).busy = false ∧
    faultOf (exec .decHdr (rxAt 62 2 [])) = some (.uninitRead .rxbuf 62) ∧
    (seen (fun t => t.rx.status.code) (step small)).isSome = true ∧ small.inputs = [] := by decide

theorem witness_RecordedFaultEndsTheRun :
    faultOf (step (fed [.access (.read 32 0x50#32)] small)) = some (.hostBadAccess 0x50#32 32) ∧ small.faultRecord = [] ∧
    (small.raise (.hostBadAccess 0x50#32 32)).faultRecord ≠ [] ∧ (small.raise (.hostBadAccess 0x50#32 32)).inputs = [] ∧
    (seen (fun t => t.rx.status.code) (step small)).isSome = true := by decide

/-- DEC_HDR with another TXU, ENC_FRAME with another RXU. -/
theorem witness_UnitsOwnDisjointState : Instr.decHdr.unit = .rxu ∧ Instr.encFrame.unit = .txu ∧
    ((rxWith [0x81#8, 0x05#8]).startCommand .txu 2#32).rx = (rxWith [0x81#8, 0x05#8]).rx ∧
    ((rxWith [0x81#8, 0x05#8]).startCommand .txu 2#32).rxbuf = (rxWith [0x81#8, 0x05#8]).rxbuf ∧
    (seen (fun t => t.rx.status.code) (exec .decHdr (rxWith [0x81#8, 0x05#8]))).isSome = true ∧
    ((txWith 0x89#32 []).startCommand .rxu 1#32).tx = (txWith 0x89#32 []).tx ∧
    ((txWith 0x89#32 []).startCommand .rxu 1#32).draws = (txWith 0x89#32 []).draws ∧
    (seen (fun t => t.tx.status.code) (exec .encFrame (txWith 0x89#32 []))).isSome = true := by decide

/-- DEC_HDR then XOR_MASK, and DEC_HDR then a write of TX_LEN (W20). -/
theorem witness_CompletionStepsCommute : Instr.decHdr.unit ≠ Instr.xorMask.unit ∧
    seen (fun t => (seen (fun u => u.tx.status.code) (exec .xorMask t))) (exec .decHdr (rxWith [0x81#8, 0x05#8])) = some (some .ok) ∧
    small.params.resolve 32 0x118#32 = some (.reg .txLen) ∧ (Target.reg .txLen).unit ≠ Instr.decHdr.unit ∧
    seen (fun t => (seen (fun u => u.tx.len) (hostAccess (.write 32 0x118#32 9#32) t))) (exec .decHdr (rxWith [0x81#8, 0x05#8])) =
      some (some 9#32) := by decide

theorem witness_StepKeepsTheInvariant : (fed [.complete .rxu] ((rxWith [0x81#8, 0x05#8]).startCommand .rxu 1#32)).Inv ∧
    seen (fun t => t.rx.status.code) (step (fed [.complete .rxu] ((rxWith [0x81#8, 0x05#8]).startCommand .rxu 1#32))) =
      some .ok :=
  ⟨{ params := by decide, rxStatus := by decide, txStatus := by decide, rxHdr := by decide, rxResults := by decide,
     rxUtf := by decide, txResults := by decide, rxbuf := by decide, txbuf := by decide, cbuf := by decide }, by decide⟩

end Sys2Proof.Tests
end

section
/-! Proofs of the obligations of spec/00_scope.md: the invariant of the block at reset and at every step. One lemma
for each named update of the state says that it keeps the invariant; the commands, the host accesses and the steps
are these updates, by the case lemmas of Laws. -/

namespace Sys2Proof.Machine

/-! ### The updates of the state keep the invariant -/

/-- A header without its key has 2, 4 or 10 bytes (30_encoding.md R77), and RX_NEED and RX_HSIZE hold that number. -/
theorem headerSize_toNat (len7 : BitVec 7) : (BitVec.ofNat 32 (2 + extSize len7)).toNat = 2 + extSize len7 ∧
    (2 + extSize len7 = 2 ∨ 2 + extSize len7 = 4 ∨ 2 + extSize len7 = 10) := by
  rcases extSize_cases len7 with ⟨e, -⟩ | ⟨e, -⟩ | ⟨e, -⟩ <;> simp [e]

namespace State.Inv

variable {s : State}

/-- The inputs still to come are no part of the invariant. -/
theorem withInputs (hs : s.Inv) (rest : List Input) : State.Inv { s with inputs := rest } := { hs with }

/-- What the host port last returned is no part of the invariant. -/
theorem withLastRead (hs : s.Inv) (v : Option Word) : State.Inv { s with lastRead := v } := { hs with }

/-- A finished unit is idle (10_state.md R22). -/
theorem finish (hs : s.Inv) (u : UnitId) (code : StatusCode) : (s.finish u code).Inv := by
  have hdone : (UnitStatus.finished code).Inv := by simp
  cases u with
  | rxu => exact { hs with rxStatus := hdone }
  | txu => exact { hs with txStatus := hdone }

/-- A started unit is busy with DONE cleared (10_state.md R21). -/
theorem startCommand (hs : s.Inv) (u : UnitId) (w : Word) : (s.startCommand u w).Inv := by
  have hstart (st : UnitStatus) : (st.start w).Inv := by simp
  cases u with
  | rxu => exact { hs with rxStatus := hstart _ }
  | txu => exact { hs with txStatus := hstart _ }

theorem clearHeaderResults (hs : s.Inv) : s.clearHeaderResults.Inv :=
  { hs with rxHdr := rfl, rxResults := ⟨.inl rfl, .inl ⟨rfl, rfl, rfl, rfl⟩⟩ }

/-- RX_NEED = 2 while bytes 0 and 1 are missing (10_state.md R31). -/
theorem headerShort (hs : s.Inv) : (s.clearHeaderResults.withNeed 2).Inv :=
  { hs.clearHeaderResults with rxResults := ⟨.inr (.inl rfl), .inl ⟨rfl, rfl, rfl, rfl⟩⟩ }

theorem headerRead (hs : s.Inv) {hdr : RxHdr} (hh : hdr.Inv) : (s.headerRead hdr).Inv := by
  obtain ⟨hval, hcases⟩ := headerSize_toNat hdr.len7
  exact { hs.clearHeaderResults with
    rxHdr := hh
    rxResults := ⟨.inr (by rw [headerRead_rx, hval]; exact hcases), .inl ⟨rfl, rfl, rfl, rfl⟩⟩ }

/-- The results of an accepted header are consistent: none of RX_PAYOFF and RX_FSIZE wraps (10_state.md R31 to R33). -/
theorem headerAccepted (hs : s.Inv) {hdr : RxHdr} (hh : hdr.Inv) {n : Nat}
    (hfit : s.rx.off.toNat + (2 + extSize hdr.len7) ≤ s.params.rxbufSize) (hn : n < 2 ^ 63) :
    ((s.headerRead hdr).withAccepted (2 + extSize hdr.len7) n).Inv := by
  obtain ⟨hval, hcases⟩ := headerSize_toNat hdr.len7
  obtain ⟨⟨-, hsize⟩, -, -⟩ := hs.params
  have hplen : (BitVec.ofNat 64 n).toNat = n := Nat.mod_eq_of_lt (by omega)
  have hfsize : (BitVec.ofNat 64 (2 + extSize hdr.len7 + n)).toNat = 2 + extSize hdr.len7 + n :=
    Nat.mod_eq_of_lt (by omega)
  have hpayOff : (BitVec.ofNat 32 (s.rx.off.toNat + (2 + extSize hdr.len7))).toNat =
      s.rx.off.toNat + (2 + extSize hdr.len7) := Nat.mod_eq_of_lt (by omega)
  have hresults : RxUnit.HeaderResults s.params
      ((s.headerRead hdr).withAccepted (2 + extSize hdr.len7) n).rx := by
    simp only [RxUnit.HeaderResults, withAccepted_rx, headerRead_rx, hval, hplen, hfsize, hpayOff]
    exact ⟨.inr hcases, .inr ⟨hcases, trivial, hn, trivial, hfit⟩⟩
  exact { hs.headerRead hh with rxResults := hresults }

theorem clearFrameResults (hs : s.Inv) : s.clearFrameResults.Inv :=
  { hs with txResults := .inl ⟨rfl, rfl, rfl⟩ }

/-- A written frame lies in TXBUF, and its key is 0 exactly for an empty payload (10_state.md R40, R41). -/
theorem frameWritten (hs : s.Inv) {key : Word} {payload : List Byte} (hfit : s.frameFits = true)
    (hlen : payload.length = s.tx.len.toNat) (hkey : key = 0#32 ↔ s.tx.len.toNat = 0) :
    (s.frameWritten key payload).Inv := by
  obtain ⟨-, hdst⟩ := (frameFits_iff s).mp hfit
  obtain ⟨-, ⟨-, hsize⟩, -⟩ := hs.params
  have hhsize : (BitVec.ofNat 32 (clientHeaderSize s.tx.len.toNat)).toNat = clientHeaderSize s.tx.len.toNat :=
    Nat.mod_eq_of_lt (by omega)
  have hfsize : (BitVec.ofNat 32 (clientHeaderSize s.tx.len.toNat + s.tx.len.toNat)).toNat =
      clientHeaderSize s.tx.len.toNat + s.tx.len.toNat := Nat.mod_eq_of_lt (by omega)
  have hresults : TxUnit.FrameResults s.params (s.frameWritten key payload).tx := by
    simp only [TxUnit.FrameResults, frameWritten_tx, ← BitVec.toNat_inj (x := BitVec.ofNat 32 (_ + _)), hhsize, hfsize,
      hkey, Nat.add_sub_cancel_left]
    exact .inr ⟨trivial, by omega, by omega, by omega⟩
  exact { hs.finish .txu .ok with
    txResults := hresults
    txbuf := ⟨Memory.wf_writeRange _ _ _ hs.txbuf.1,
      Memory.within_writeRange _ _ _ (by rw [clientFrame_length, hlen, ← Nat.add_assoc]; exact hdst) hs.txbuf.2⟩ }

/-- The masked bytes lie in TXBUF (40_frame_codec.md R111). -/
theorem masked (hs : s.Inv) {bs : List Byte} (hfit : s.maskFits = true) (hlen : bs.length = s.tx.len.toNat) :
    (s.masked bs).Inv := by
  have hdst := (maskFits_iff s).mp hfit
  exact { hs.finish .txu .ok with
    txbuf := ⟨Memory.wf_writeRange _ _ _ hs.txbuf.1,
      Memory.within_writeRange _ _ _ (by rw [maskBytes_length, hlen]; exact hdst) hs.txbuf.2⟩ }

theorem clearDecodeResults (hs : s.Inv) : s.clearDecodeResults.Inv := { hs with }

theorem emptyUtf (hs : s.Inv) : s.emptyUtf.Inv := { hs with rxUtf := Utf8State.empty_inv }

/-- What a UTF_DECODE leaves in RX_UTF and CBUF (10_state.md R43, 41_utf8_validator.md R136). -/
theorem decoded (hs : s.Inv) {emit : Bool} {r : DecodeRun} (hfit : emit = true → s.cbufWindowFits = true)
    (hr : s.decodeRun emit = .ok r) : (s.decoded r).Inv :=
  { hs.finish .rxu r.code with
    rxUtf := (utf8Loop_utf hr).1 hs.rxUtf
    cbuf := utf8Loop_cbuf_wf hr (fun he => (cbufWindowFits_iff s).mp (hfit he)) hs.cbuf }

/-- The reset values have the invariant, whatever the sizes within their bounds (10_state.md R46). -/
theorem resetEvent (hp : s.params.Ok) (rest : List Input) : (s.resetEvent rest).Inv where
  params := hp
  rxStatus := by simp [RxUnit.reset, UnitStatus.reset]
  txStatus := by simp [TxUnit.reset, UnitStatus.reset]
  rxHdr := rfl
  rxResults := ⟨.inl rfl, .inl ⟨rfl, rfl, rfl, rfl⟩⟩
  rxUtf := Utf8State.empty_inv
  txResults := .inl ⟨rfl, rfl, rfl⟩
  rxbuf := ⟨Memory.wf_nil, Memory.within_nil _⟩
  txbuf := ⟨Memory.wf_nil, Memory.within_nil _⟩
  cbuf := ⟨Memory.wf_nil, Memory.within_nil _⟩

/-- A register the host writes starts a command or is no part of the invariant (10_state.md R24). -/
theorem writeReg (hs : s.Inv) (v : Word) (r : Reg) : (s.writeReg v r).Inv := by
  cases r
  case rxCmd => exact hs.startCommand .rxu v
  case txCmd => exact hs.startCommand .txu v
  all_goals exact { hs with }

/-- A host write of a buffer stays in the buffer (20_memory.md R52). -/
theorem writeTarget (hs : s.Inv) (v : Word) {width : Nat} {addr : Word} {tg : Target}
    (htg : s.params.resolve width addr = some tg) : (s.writeTarget v tg).Inv := by
  have hindex := resolve_index htg
  cases tg with
  | reg r => exact hs.writeReg v r
  | rxbuf i =>
    exact { hs with rxbuf := ⟨Memory.wf_write _ _ _ hs.rxbuf.1, Memory.within_write _ _ hindex hs.rxbuf.2⟩ }
  | txbuf i =>
    exact { hs with txbuf := ⟨Memory.wf_write _ _ _ hs.txbuf.1, Memory.within_write _ _ hindex hs.txbuf.2⟩ }
  | cbuf i =>
    exact { hs with cbuf := ⟨Memory.wf_write _ _ _ hs.cbuf.1, Memory.within_write _ _ hindex hs.cbuf.2⟩ }

end State.Inv

/-! ### The commands keep the invariant -/

/-- RX_HDR.CTRL of the header bytes DEC_HDR reads (10_state.md R30). -/
theorem readHdr_inv {s : State} {hdr : RxHdr} (h : s.readHdr = .ok hdr) : hdr.Inv := by
  unfold State.readHdr at h
  split at h
  · cases h
  · split at h
    · cases h
    · cases h
      rfl

/-- A length field that is not in the 64-bit form is small. -/
theorem lenField_value_lt {f : LenField} (h : extSize f.len7Bits ≠ 8) : f.value < 2 ^ 63 := by
  cases f with
  | len7 n => exact Nat.lt_trans n.isLt (by decide)
  | ext16 n => exact Nat.lt_trans n.isLt (by decide)
  | ext64 n => exact absurd rfl h

section Commands

variable {s t : State}

/-- DEC_HDR's rule keeps the invariant, whatever it reads, if CTRL is read as the opcode says and a length of 2^63 or more
only in the 64-bit form (40_frame_codec.md R101). -/
theorem receiveHeader_keeps_inv {hdr : Except Fault RxHdr} {plen : RxHdr → Except Fault Nat} (hs : s.Inv)
    (hhdr : ∀ h, hdr = .ok h → h.Inv) (hplen : ∀ h n, hdr = .ok h → plen h = .ok n → extSize h.len7 ≠ 8 → n < 2 ^ 63)
    (hn : receiveHeader hdr plen s = .next t) : t.Inv := by
  obtain ⟨-, rfl⟩ | ⟨-, -, rfl⟩ | ⟨hfit, -, h, hh, hread⟩ := receiveHeader_cases hn
  · exact hs.clearHeaderResults.finish _ _
  · exact hs.headerShort.finish _ _
  · have hinv := hhdr h hh
    obtain ⟨code, -, rfl⟩ | ⟨-, -, rfl⟩ | ⟨-, hlen, n, hp, hchecked⟩ := hread
    · exact (hs.headerRead hinv).finish _ _
    · exact (hs.headerRead hinv).finish _ _
    · obtain ⟨code, -, rfl⟩ | ⟨hok, rfl⟩ := hchecked
      · exact (hs.headerRead hinv).finish _ _
      · have hwindow := (rxWindowFits_iff s).mp hfit
        have hsmall : n < 2 ^ 63 := by
          by_cases h8 : extSize h.len7 = 8
          · exact ((lengthError_none_iff _ _ _).mp hok).1 h8
          · exact hplen h n hh hp h8
        exact (hs.headerAccepted hinv (by omega) hsmall).finish _ _

theorem execDecHdr_keeps_inv (hs : s.Inv) (hn : execDecHdr s = .next t) : t.Inv :=
  receiveHeader_keeps_inv hs (fun _ => readHdr_inv) (fun _ _ _ => readPlen_lt) hn

theorem receiveFrame_keeps_inv {opcode : BitVec 4} {f : FrameFields} (hs : s.Inv)
    (hn : receiveFrame opcode f s = .next t) : t.Inv := by
  refine receiveHeader_keeps_inv hs (fun h hh => ?_) (fun h n hh hp h8 => ?_) hn
  · cases hh
    rfl
  · cases hh
    cases hp
    exact lenField_value_lt h8

theorem execEncFrame_keeps_inv (hs : s.Inv) (hn : execEncFrame s = .next t) : t.Inv := by
  obtain ⟨-, rfl⟩ | ⟨-, code, -, rfl⟩ | ⟨hfit, -, payload, hp, rfl⟩ := encodeFrame_cases hn
  · exact hs.clearFrameResults.finish _ _
  · exact hs.clearFrameResults.finish _ _
  · exact hs.frameWritten hfit (Memory.readRange_length _ _ _ _ ((txBytes_eq_ok_iff _ _ _ _).mp hp))
      (frameKey_drawKey_eq_zero_iff _ _)

theorem execXorMask_keeps_inv (hs : s.Inv) (hn : execXorMask s = .next t) : t.Inv := by
  obtain ⟨-, rfl⟩ | ⟨hfit, bs, hp, rfl⟩ := execXorMask_cases hn
  · exact hs.finish _ _
  · exact hs.masked hfit (Memory.readRange_length _ _ _ _ ((txBytes_eq_ok_iff _ _ _ _).mp hp))

theorem utf8DecodeRange_keeps_inv {emit : Bool} (hs : s.Inv) (hn : utf8DecodeRange emit s = .next t) : t.Inv := by
  obtain ⟨-, rfl⟩ | ⟨-, hfit, r, hr, rfl⟩ := utf8DecodeRange_cases hn
  · exact hs.clearDecodeResults.finish _ _
  · exact hs.decoded hfit hr

theorem execUtfReset_keeps_inv (hs : s.Inv) (hn : execUtfReset s = .next t) : t.Inv := by
  cases hn
  exact hs.emptyUtf.finish _ _

theorem execUtfFinish_keeps_inv (hs : s.Inv) (hn : execUtfFinish s = .next t) : t.Inv := by
  unfold execUtfFinish at hn
  split at hn
  · cases hn
    exact hs.emptyUtf.finish _ _
  · cases hn
    exact hs.emptyUtf.finish _ _

/-- Every instruction keeps the invariant, the wire headers too. -/
theorem exec_keeps_inv {i : Instr} (hs : s.Inv) (hn : exec i s = .next t) : t.Inv := by
  cases i with
  | decHdr => exact execDecHdr_keeps_inv hs hn
  | encFrame => exact execEncFrame_keeps_inv hs hn
  | xorMask => exact execXorMask_keeps_inv hs hn
  | utfReset => exact execUtfReset_keeps_inv hs hn
  | utfDecode => exact utf8DecodeRange_keeps_inv hs hn
  | utfDecodeE => exact utf8DecodeRange_keeps_inv hs hn
  | utfFinish => exact execUtfFinish_keeps_inv hs hn
  | frameContinuation f => exact receiveFrame_keeps_inv hs hn
  | frameText f => exact receiveFrame_keeps_inv hs hn
  | frameBinary f => exact receiveFrame_keeps_inv hs hn
  | frameClose f => exact receiveFrame_keeps_inv hs hn
  | framePing f => exact receiveFrame_keeps_inv hs hn
  | framePong f => exact receiveFrame_keeps_inv hs hn

/-! ### The events of the total order keep the invariant -/

theorem completeUnit_keeps_inv {u : UnitId} (hs : s.Inv) (hn : completeUnit u s = .next t) : t.Inv := by
  obtain ⟨-, rfl⟩ | ⟨w, e, -, -, rfl⟩ | ⟨w, i, -, -, -, hi⟩ := completeUnit_cases hn
  · exact hs
  · exact hs.finish _ _
  · exact exec_keeps_inv hs hi

theorem hostAccess_keeps_inv {a : HostAccess} (hs : s.Inv) (hn : hostAccess a s = .next t) : t.Inv := by
  obtain ⟨_, _, _, v, -, -, -, -, rfl⟩ | ⟨_, _, v, _, -, htg, -, rfl⟩ := hostAccess_cases hn
  · exact hs.withLastRead _
  · exact hs.writeTarget v htg

theorem step_keeps_inv (hs : s.Inv) (hn : step s = .next t) : t.Inv := by
  obtain ⟨rest, -, rfl⟩ | ⟨-, ⟨a, rest, -, ha⟩ | ⟨u, rest, -, hu⟩ | ⟨-, ⟨u, hu⟩ | rfl⟩⟩ := step_cases hn
  · exact .resetEvent hs.params rest
  · exact hostAccess_keeps_inv (hs.withInputs rest) ha
  · exact completeUnit_keeps_inv (hs.withInputs rest) hu
  · exact completeUnit_keeps_inv hs hu
  · exact hs

end Commands

/-- The sizes of the implementation are within the bounds of 00_scope.md R6. -/
theorem Params.ofConfig_ok : Params.ofConfig.Ok := by
  simp only [Params.Ok, Params.ofConfig, Config.rxbufSize, Config.txbufSize, Config.cbufSize]
  omega

/-! ### The obligations -/

/-- Settles O56: each event of a step is a composition of updates that keep the invariant. -/
theorem stepKeepsTheInvariant : Obligations.StepKeepsTheInvariant :=
  fun _ _ => step_keeps_inv

/-- Settles O57: the state after reset is what a reset event leaves. -/
theorem resetHasTheInvariant : Obligations.ResetHasTheInvariant :=
  State.Inv.resetEvent (s := State.reset) Params.ofConfig_ok []

end Sys2Proof.Machine
end

section
/-! Proofs of the obligations of spec/10_state.md, part 1: what each unit's commands read and write. A command that
answers a next state does the same, from every state with the same state of its unit, to that unit alone; the frames of
the single commands, the commutation of the two units and the end of every command follow. -/

namespace Sys2Proof.Machine

/-! ### The kinds of instructions -/

/-- The wire instructions are one kind: a property of every instruction is shown of them at once and of the seven
commands (30_encoding.md R75, R86). -/
theorem instr_byKind {P : Instr → Prop} (wireFrame : ∀ opcode f i, IsWireFrame opcode f i → P i) (decHdr : P .decHdr)
    (encFrame : P .encFrame) (xorMask : P .xorMask) (utfReset : P .utfReset) (utfDecode : P .utfDecode)
    (utfDecodeE : P .utfDecodeE) (utfFinish : P .utfFinish) (i : Instr) : P i := by
  cases i with
  | decHdr => exact decHdr
  | encFrame => exact encFrame
  | xorMask => exact xorMask
  | utfReset => exact utfReset
  | utfDecode => exact utfDecode
  | utfDecodeE => exact utfDecodeE
  | utfFinish => exact utfFinish
  | frameContinuation f => exact wireFrame 0x0#4 f _ (by simp [IsWireFrame])
  | frameText f => exact wireFrame 0x1#4 f _ (by simp [IsWireFrame])
  | frameBinary f => exact wireFrame 0x2#4 f _ (by simp [IsWireFrame])
  | frameClose f => exact wireFrame 0x8#4 f _ (by simp [IsWireFrame])
  | framePing f => exact wireFrame 0x9#4 f _ (by simp [IsWireFrame])
  | framePong f => exact wireFrame 0xA#4 f _ (by simp [IsWireFrame])

/-- The meaning of a wire instruction (40_frame_codec.md R101; log 10). -/
theorem exec_wireFrame {opcode : BitVec 4} {f : FrameFields} {i : Instr} (h : IsWireFrame opcode f i) (s : State) :
    exec i s = receiveFrame opcode f s := by
  obtain ⟨rfl, rfl⟩ | ⟨rfl, rfl⟩ | ⟨rfl, rfl⟩ | ⟨rfl, rfl⟩ | ⟨rfl, rfl⟩ | ⟨rfl, rfl⟩ := h <;> rfl

/-- RXU runs the wire instructions (40_frame_codec.md R101). -/
theorem wireFrame_unit {opcode : BitVec 4} {f : FrameFields} {i : Instr} (h : IsWireFrame opcode f i) :
    i.unit = .rxu := by
  obtain ⟨rfl, rfl⟩ | ⟨rfl, rfl⟩ | ⟨rfl, rfl⟩ | ⟨rfl, rfl⟩ | ⟨rfl, rfl⟩ | ⟨rfl, rfl⟩ := h <;> rfl

/-! ### The state of one unit (10_state.md R45) -/

/-- `s'` has what RXU's commands read as `s` has it: the RX_ registers, RXBUF, CBUF and the sizes (10_state.md R45). -/
structure SameRxuSide (s s' : State) : Prop where
  rx : s'.rx = s.rx
  rxbuf : s'.rxbuf = s.rxbuf
  cbuf : s'.cbuf = s.cbuf
  params : s'.params = s.params

/-- `s'` has what TXU's commands read as `s` has it: the TX_ registers, TXBUF, the draw counter and the sizes
(10_state.md R45; log 2). -/
structure SameTxuSide (s s' : State) : Prop where
  tx : s'.tx = s.tx
  txbuf : s'.txbuf = s.txbuf
  draws : s'.draws = s.draws
  params : s'.params = s.params

theorem SameRxuSide.refl (s : State) : SameRxuSide s s := ⟨rfl, rfl, rfl, rfl⟩

theorem SameTxuSide.refl (s : State) : SameTxuSide s s := ⟨rfl, rfl, rfl, rfl⟩

section Transfer

variable {s s' t : State}

/-- A state with RXU's side of `s` is some state with that side put in. -/
theorem SameRxuSide.exists_eq (h : SameRxuSide s s') :
    ∃ x : State, s' = { x with rx := s.rx, rxbuf := s.rxbuf, cbuf := s.cbuf, params := s.params } := by
  obtain ⟨h1, h2, h3, h4⟩ := h
  exact ⟨s', by rw [← h1, ← h2, ← h3, ← h4]⟩

/-- A state with TXU's side of `s` is some state with that side put in. -/
theorem SameTxuSide.exists_eq (h : SameTxuSide s s') :
    ∃ x : State, s' = { x with tx := s.tx, txbuf := s.txbuf, draws := s.draws, params := s.params } := by
  obtain ⟨h1, h2, h3, h4⟩ := h
  exact ⟨s', by rw [← h1, ← h2, ← h3, ← h4]⟩

/-! ### Every command acts on its unit's state alone -/

/-- DEC_HDR's rule, whatever it reads, acts on RXU's state alone. -/
theorem receiveHeader_transfer {hdr : Except Fault RxHdr} {plen : RxHdr → Except Fault Nat} (h : SameRxuSide s s')
    (hn : receiveHeader hdr plen s = .next t) :
    receiveHeader hdr plen s' = .next { s' with rx := t.rx, cbuf := t.cbuf } := by
  obtain ⟨x, rfl⟩ := h.exists_eq
  obtain ⟨hf, rfl⟩ | ⟨hf, hl, rfl⟩ | ⟨hf, hl, h, rfl, hread⟩ := receiveHeader_cases hn
  · exact receiveHeader_useRange hf
  · exact receiveHeader_short hf hl
  · obtain ⟨code, he, rfl⟩ | ⟨he, hs, rfl⟩ | ⟨he, hs, n, hp, ⟨code, hc, rfl⟩ | ⟨hc, rfl⟩⟩ := hread
    · exact receiveHeader_firstBytes hf hl rfl he
    · exact receiveHeader_needMore hf hl rfl he hs
    · exact receiveHeader_length hf hl rfl he hs hp hc
    · exact receiveHeader_ok hf hl rfl he hs hp hc

theorem execDecHdr_transfer (h : SameRxuSide s s') (hn : execDecHdr s = .next t) :
    execDecHdr s' = .next { s' with rx := t.rx, cbuf := t.cbuf } := by
  have hread : s'.readHdr = s.readHdr ∧ s'.readPlen = s.readPlen := by
    obtain ⟨x, rfl⟩ := h.exists_eq
    exact ⟨rfl, rfl⟩
  rw [execDecHdr, hread.1, hread.2]
  exact receiveHeader_transfer h hn

theorem utf8DecodeRange_transfer {emit : Bool} (h : SameRxuSide s s') (hn : utf8DecodeRange emit s = .next t) :
    utf8DecodeRange emit s' = .next { s' with rx := t.rx, cbuf := t.cbuf } := by
  obtain ⟨x, rfl⟩ := h.exists_eq
  obtain ⟨hf, rfl⟩ | ⟨hf, hc, r, hr, rfl⟩ := utf8DecodeRange_cases hn
  · exact utf8DecodeRange_useRange hf
  · exact utf8DecodeRange_run hf hc hr

theorem execUtfReset_transfer (h : SameRxuSide s s') (hn : execUtfReset s = .next t) :
    execUtfReset s' = .next { s' with rx := t.rx, cbuf := t.cbuf } := by
  obtain ⟨x, rfl⟩ := h.exists_eq
  cases hn
  rfl

/-- UTF_FINISH's one next state (41_utf8_validator.md R138). -/
theorem execUtfFinish_eq (s : State) :
    execUtfFinish s = .next (s.emptyUtf.finish .rxu (if s.rx.utf.rem ≠ 0#2 then .utfIncomplete else .ok)) := by
  unfold execUtfFinish
  split <;> rfl

theorem execUtfFinish_transfer (h : SameRxuSide s s') (hn : execUtfFinish s = .next t) :
    execUtfFinish s' = .next { s' with rx := t.rx, cbuf := t.cbuf } := by
  obtain ⟨x, rfl⟩ := h.exists_eq
  rw [execUtfFinish_eq] at hn
  cases hn
  exact execUtfFinish_eq _

theorem execEncFrame_transfer (h : SameTxuSide s s') (hn : execEncFrame s = .next t) :
    execEncFrame s' = .next { s' with tx := t.tx, txbuf := t.txbuf, draws := t.draws } := by
  obtain ⟨x, rfl⟩ := h.exists_eq
  obtain ⟨hf, rfl⟩ | ⟨hf, code, he, rfl⟩ | ⟨hf, he, payload, hp, rfl⟩ := encodeFrame_cases hn
  · exact encodeFrame_useRange hf
  · exact encodeFrame_error hf he
  · exact encodeFrame_ok hf he hp

theorem execXorMask_transfer (h : SameTxuSide s s') (hn : execXorMask s = .next t) :
    execXorMask s' = .next { s' with tx := t.tx, txbuf := t.txbuf, draws := t.draws } := by
  obtain ⟨x, rfl⟩ := h.exists_eq
  obtain ⟨hf, rfl⟩ | ⟨hf, bs, hp, rfl⟩ := execXorMask_cases hn
  · exact execXorMask_useRange hf
  · exact execXorMask_ok hf hp

/-- An instruction of RXU does to any state with RXU's side of `s` what it does to `s`, and nothing to the rest. -/
theorem exec_rxu_transfer {i : Instr} (hi : i.unit = .rxu) (h : SameRxuSide s s') (hn : exec i s = .next t) :
    exec i s' = .next { s' with rx := t.rx, cbuf := t.cbuf } := by
  cases i using instr_byKind with
  | wireFrame opcode f i hw =>
    rw [exec_wireFrame hw] at hn ⊢
    exact receiveHeader_transfer h hn
  | decHdr => exact execDecHdr_transfer h hn
  | encFrame => cases hi
  | xorMask => cases hi
  | utfReset => exact execUtfReset_transfer h hn
  | utfDecode => exact utf8DecodeRange_transfer h hn
  | utfDecodeE => exact utf8DecodeRange_transfer h hn
  | utfFinish => exact execUtfFinish_transfer h hn

/-- The instructions of TXU are ENC_FRAME and XOR_MASK (30_encoding.md R86). -/
theorem unit_eq_txu {i : Instr} (hi : i.unit = .txu) : i = .encFrame ∨ i = .xorMask := by
  cases i with
  | encFrame => exact .inl rfl
  | xorMask => exact .inr rfl
  | _ => cases hi

/-- An instruction of TXU does to any state with TXU's side of `s` what it does to `s`, and nothing to the rest. -/
theorem exec_txu_transfer {i : Instr} (hi : i.unit = .txu) (h : SameTxuSide s s') (hn : exec i s = .next t) :
    exec i s' = .next { s' with tx := t.tx, txbuf := t.txbuf, draws := t.draws } := by
  obtain rfl | rfl := unit_eq_txu hi
  · exact execEncFrame_transfer h hn
  · exact execXorMask_transfer h hn

/-- The frame of RXU's instructions. -/
theorem exec_rxu_frame {i : Instr} (hi : i.unit = .rxu) (hn : exec i s = .next t) :
    t = { s with rx := t.rx, cbuf := t.cbuf } :=
  Host.Outcome.next.inj (hn.symm.trans (exec_rxu_transfer hi (.refl s) hn))

/-- The frame of TXU's instructions. -/
theorem exec_txu_frame {i : Instr} (hi : i.unit = .txu) (hn : exec i s = .next t) :
    t = { s with tx := t.tx, txbuf := t.txbuf, draws := t.draws } :=
  Host.Outcome.next.inj (hn.symm.trans (exec_txu_transfer hi (.refl s) hn))

/-- No command touches RXBUF, the sizes, the fault record, the inputs or the host port's last value. -/
theorem exec_surroundings {i : Instr} (hn : exec i s = .next t) : t.rxbuf = s.rxbuf ∧ SameSurroundings s t := by
  cases hi : i.unit with
  | rxu => rw [exec_rxu_frame hi hn]; exact ⟨rfl, rfl, rfl, rfl, rfl⟩
  | txu => rw [exec_txu_frame hi hn]; exact ⟨rfl, rfl, rfl, rfl, rfl⟩

end Transfer

/-- Settles O54: the transfer lemma of each unit, and its frame, which is the transfer to the state itself. -/
theorem unitsOwnDisjointState : Obligations.UnitsOwnDisjointState := by
  constructor
  · intro i s s' t hi h1 h2 h3 h4 hn
    exact ⟨exec_rxu_frame hi hn, exec_rxu_transfer hi ⟨h1, h2, h3, h4⟩ hn⟩
  · intro i s s' t hi h1 h2 h3 h4 hn
    exact ⟨exec_txu_frame hi hn, exec_txu_transfer hi ⟨h1, h2, h3, h4⟩ hn⟩

end Sys2Proof.Machine
end

section
/-! Proofs of the obligations of spec/10_state.md, part 2: how a command ends. One lemma for each command says which
states it can leave, with the codes of spec/60_exceptions.md R160; the status, the frames and the reports of errors are
read off these states. -/

namespace Sys2Proof.Machine

section Ends

variable {s t : State}

/-! ### The states a command can leave -/

/-- What DEC_HDR leaves when it accepts a header, as one record (40_frame_codec.md R101). -/
theorem finish_withAccepted (h : RxHdr) (n : Nat) (s : State) :
    ((s.headerRead h).withAccepted (2 + extSize h.len7) n).finish .rxu .ok =
      headerAccepted h (2 + extSize h.len7) n s := by
  simp only [State.headerRead, State.withNeed, State.withHdr, State.clearHeaderResults, State.withAccepted,
    headerAccepted, State.finish, State.withStatus]

/-- The checks on bytes 0 and 1 answer errors of DEC_HDR (60_exceptions.md R160). -/
theorem firstBytesError_code {allow : BitVec 3} {h : RxHdr} {code : StatusCode}
    (he : firstBytesError allow h = some code) : code ∈ codesOf .decHdr ∧ code ≠ .ok := by
  obtain rfl | rfl | rfl | rfl := firstBytesError_ne he <;> decide

/-- The checks on the payload length answer errors of DEC_HDR (60_exceptions.md R160). -/
theorem lengthError_code {maxLen n : Nat} {h : RxHdr} {code : StatusCode}
    (he : lengthError maxLen h n = some code) : code ∈ codesOf .decHdr ∧ code ≠ .ok := by
  obtain rfl | rfl | rfl := lengthError_ne he <;> decide

/-- DEC_HDR's rule reports an error code with its results 0, or accepts a header (40_frame_codec.md R101). -/
theorem receiveHeader_ends {hdr : Except Fault RxHdr} {plen : RxHdr → Except Fault Nat}
    (hn : receiveHeader hdr plen s = .next t) :
    (∃ code h need, code ∈ codesOf .decHdr ∧ code ≠ .ok ∧ t = headerReport code h need s) ∨
      ∃ h hs n, t = headerAccepted h hs n s := by
  obtain ⟨-, rfl⟩ | ⟨-, -, rfl⟩ | ⟨-, -, h, -, hread⟩ := receiveHeader_cases hn
  · exact .inl ⟨.useRange, RxHdr.zero, 0, by simp [codesOf], by simp, rfl⟩
  · exact .inl ⟨.needMore, RxHdr.zero, 2, by simp [codesOf], by simp, rfl⟩
  · obtain ⟨code, he, rfl⟩ | ⟨-, -, rfl⟩ | ⟨-, -, n, -, ⟨code, hc, rfl⟩ | ⟨-, rfl⟩⟩ := hread
    · obtain ⟨hmem, hne⟩ := firstBytesError_code he
      exact .inl ⟨code, h, 2 + extSize h.len7, hmem, hne, rfl⟩
    · exact .inl ⟨.needMore, h, 2 + extSize h.len7, by simp [codesOf], by simp, rfl⟩
    · obtain ⟨hmem, hne⟩ := lengthError_code hc
      exact .inl ⟨code, h, 2 + extSize h.len7, hmem, hne, rfl⟩
    · exact .inr ⟨h, _, n, finish_withAccepted h n s⟩

/-- The instructions that follow DEC_HDR's rule end as it does (40_frame_codec.md R101; log 10). -/
theorem exec_header_ends {i : Instr} (hi : i = .decHdr ∨ ∃ opcode f, IsWireFrame opcode f i)
    (hn : exec i s = .next t) :
    (∃ code h need, code ∈ codesOf .decHdr ∧ code ≠ .ok ∧ t = headerReport code h need s) ∨
      ∃ h hs n, t = headerAccepted h hs n s := by
  obtain rfl | ⟨opcode, f, hw⟩ := hi
  · exact receiveHeader_ends hn
  · rw [exec_wireFrame hw] at hn
    exact receiveHeader_ends hn

/-- The checks of ENC_FRAME answer its protocol errors (60_exceptions.md R160). -/
theorem encodeError_mem_codesOf {allow : BitVec 3} {c : TxCtl} {len : Nat} {code : StatusCode}
    (h : encodeError allow c len = some code) : code ∈ codesOf .encFrame := by
  unfold encodeError at h
  split_ifs at h <;> cases h <;> simp [codesOf]

/-- ENC_FRAME reports an error code with its results 0, or writes the frame (40_frame_codec.md R106). -/
theorem execEncFrame_ends (hn : execEncFrame s = .next t) :
    (∃ code ∈ codesOf .encFrame, code ≠ .ok ∧ t = s.clearFrameResults.finish .txu code) ∨
      ∃ payload, payload.length = s.tx.len.toNat ∧
        t = s.frameWritten (frameKey (drawKey s.draws) s.tx.len.toNat) payload := by
  obtain ⟨-, rfl⟩ | ⟨-, code, he, rfl⟩ | ⟨-, -, payload, hp, rfl⟩ := encodeFrame_cases hn
  · exact .inl ⟨.useRange, by simp [codesOf], by simp, rfl⟩
  · exact .inl ⟨code, encodeError_mem_codesOf he, encodeError_ne_ok he, rfl⟩
  · exact .inr ⟨payload, Memory.readRange_length _ _ _ _ ((txBytes_eq_ok_iff _ _ _ _).mp hp), rfl⟩

/-- Which of the two words of UTF_DECODE an instruction is (30_encoding.md R86). -/
theorem exec_decode {i : Instr} (hi : i = .utfDecode ∨ i = .utfDecodeE) :
    exec i s = utf8DecodeRange (decide (i = .utfDecodeE)) s := by
  obtain rfl | rfl := hi <;> rfl

/-- The codes a loop of UTF_DECODE ends with are the instruction's, and USE_RANGE is none of them
(60_exceptions.md R160). -/
theorem decodeRun_code {i : Instr} (hi : i = .utfDecode ∨ i = .utfDecodeE) {r : DecodeRun}
    (hr : s.decodeRun (decide (i = .utfDecodeE)) = .ok r) : r.code ∈ codesOf i ∧ r.code ≠ .useRange := by
  have hcommon : ∀ code ∈ [StatusCode.ok, .utfBadLead, .utfBadCont, .utfBadCp], code ∈ codesOf i := by
    obtain rfl | rfl := hi <;> decide
  obtain h | ⟨he, h⟩ | h | h | h := utf8Loop_code hr <;> rw [h]
  · exact ⟨hcommon _ (by decide), by decide⟩
  · obtain rfl : i = .utfDecodeE := of_decide_eq_true he
    decide
  · exact ⟨hcommon _ (by decide), by decide⟩
  · exact ⟨hcommon _ (by decide), by decide⟩
  · exact ⟨hcommon _ (by decide), by decide⟩

/-! ### The status at the end of a command -/

theorem codesOf_wireFrame {opcode : BitVec 4} {f : FrameFields} {i : Instr} (h : IsWireFrame opcode f i) :
    codesOf i = codesOf .decHdr := by
  obtain ⟨rfl, rfl⟩ | ⟨rfl, rfl⟩ | ⟨rfl, rfl⟩ | ⟨rfl, rfl⟩ | ⟨rfl, rfl⟩ | ⟨rfl, rfl⟩ := h <;> rfl

theorem exec_header_finished {i : Instr} (hi : i = .decHdr ∨ ∃ opcode f, IsWireFrame opcode f i)
    (hn : exec i s = .next t) : ∃ code ∈ codesOf .decHdr, t.rx.status = UnitStatus.finished code := by
  obtain ⟨code, h, need, hmem, -, rfl⟩ | ⟨h, hs, n, rfl⟩ := exec_header_ends hi hn
  · exact ⟨code, hmem, rfl⟩
  · exact ⟨.ok, by simp [codesOf], rfl⟩

theorem exec_decode_finished {i : Instr} (hi : i = .utfDecode ∨ i = .utfDecodeE) (hn : exec i s = .next t) :
    ∃ code ∈ codesOf i, t.rx.status = UnitStatus.finished code := by
  rw [exec_decode hi] at hn
  obtain ⟨-, rfl⟩ | ⟨-, -, r, hr, rfl⟩ := utf8DecodeRange_cases hn
  · exact ⟨.useRange, by obtain rfl | rfl := hi <;> simp [codesOf], rfl⟩
  · exact ⟨r.code, (decodeRun_code hi hr).1, rfl⟩

/-- Every instruction that answers a next state has finished with one of its codes (10_state.md R22,
60_exceptions.md R160). -/
theorem exec_finished {i : Instr} (hn : exec i s = .next t) :
    ∃ code ∈ codesOf i, t.status i.unit = UnitStatus.finished code := by
  cases i using instr_byKind with
  | wireFrame opcode f i hw =>
    rw [codesOf_wireFrame hw, wireFrame_unit hw]
    exact exec_header_finished (.inr ⟨_, _, hw⟩) hn
  | decHdr => exact exec_header_finished (.inl rfl) hn
  | encFrame =>
    obtain ⟨code, hmem, -, rfl⟩ | ⟨payload, -, rfl⟩ := execEncFrame_ends hn
    · exact ⟨code, hmem, rfl⟩
    · exact ⟨.ok, by simp [codesOf], rfl⟩
  | xorMask =>
    obtain ⟨-, rfl⟩ | ⟨-, bs, -, rfl⟩ := execXorMask_cases hn
    · exact ⟨.useRange, by simp [codesOf], rfl⟩
    · exact ⟨.ok, by simp [codesOf], rfl⟩
  | utfReset =>
    cases hn
    exact ⟨.ok, by simp [codesOf], rfl⟩
  | utfDecode => exact exec_decode_finished (.inl rfl) hn
  | utfDecodeE => exact exec_decode_finished (.inr rfl) hn
  | utfFinish =>
    cases (execUtfFinish_eq s).symm.trans hn
    exact ⟨_, by split <;> simp [codesOf], rfl⟩

/-- A command leaves the other unit's status alone (10_state.md R45). -/
theorem exec_other_status {i : Instr} (hn : exec i s = .next t) {u : UnitId} (hu : u ≠ i.unit) :
    t.status u = s.status u := by
  cases hi : i.unit <;> cases u
  · exact absurd hi.symm hu
  · rw [exec_rxu_frame hi hn]
    rfl
  · rw [exec_txu_frame hi hn]
    rfl
  · exact absurd hi.symm hu

/-! ### The buffers and the key source at the end of a command -/

/-- Only UTF_DECODE.E writes CBUF (41_utf8_validator.md R136). -/
theorem exec_cbuf {i : Instr} (hi : i ≠ .utfDecodeE) (hn : exec i s = .next t) : t.cbuf = s.cbuf := by
  have header (h : i = .decHdr ∨ ∃ opcode f, IsWireFrame opcode f i) : t.cbuf = s.cbuf := by
    obtain ⟨_, _, _, -, -, rfl⟩ | ⟨_, _, _, rfl⟩ := exec_header_ends h hn <;> rfl
  cases i using instr_byKind with
  | wireFrame opcode f i hw => exact header (.inr ⟨_, _, hw⟩)
  | decHdr => exact header (.inl rfl)
  | encFrame => rw [exec_txu_frame rfl hn]
  | xorMask => rw [exec_txu_frame rfl hn]
  | utfReset => cases hn; rfl
  | utfDecode =>
    obtain ⟨-, rfl⟩ | ⟨-, -, r, hr, rfl⟩ := utf8DecodeRange_cases hn
    · rfl
    · exact (utf8Loop_cbuf hr).1 rfl
  | utfDecodeE => exact absurd rfl hi
  | utfFinish => cases (execUtfFinish_eq s).symm.trans hn; rfl

/-- A command that does not finish OK writes no TXBUF and draws no key (60_exceptions.md R163). -/
theorem exec_error_txbuf {i : Instr} (hn : exec i s = .next t) (herr : (t.status i.unit).code ≠ .ok) :
    t.txbuf = s.txbuf ∧ t.draws = s.draws := by
  cases hi : i.unit with
  | rxu => rw [exec_rxu_frame hi hn]; exact ⟨rfl, rfl⟩
  | txu =>
    obtain rfl | rfl := unit_eq_txu hi
    · obtain ⟨code, -, -, rfl⟩ | ⟨payload, -, rfl⟩ := execEncFrame_ends hn
      · exact ⟨rfl, rfl⟩
      · exact absurd rfl herr
    · obtain ⟨-, rfl⟩ | ⟨-, bs, -, rfl⟩ := execXorMask_cases hn
      · exact ⟨rfl, rfl⟩
      · exact absurd rfl herr

/-! ### RX_UTF at the end of a command -/

/-- Every instruction keeps the state invariant of RX_UTF (10_state.md R43). -/
theorem exec_keeps_utf_inv {i : Instr} (hs : s.rx.utf.Inv) (hn : exec i s = .next t) : t.rx.utf.Inv := by
  have header (h : i = .decHdr ∨ ∃ opcode f, IsWireFrame opcode f i) : t.rx.utf.Inv := by
    obtain ⟨_, _, _, -, -, rfl⟩ | ⟨_, _, _, rfl⟩ := exec_header_ends h hn <;> exact hs
  have decode {emit : Bool} (h : utf8DecodeRange emit s = .next t) : t.rx.utf.Inv := by
    obtain ⟨-, rfl⟩ | ⟨-, -, r, hr, rfl⟩ := utf8DecodeRange_cases h
    · exact hs
    · exact (utf8Loop_utf hr).1 hs
  cases i using instr_byKind with
  | wireFrame opcode f i hw => exact header (.inr ⟨_, _, hw⟩)
  | decHdr => exact header (.inl rfl)
  | encFrame => rw [exec_txu_frame rfl hn]; exact hs
  | xorMask => rw [exec_txu_frame rfl hn]; exact hs
  | utfReset => cases hn; exact Utf8State.empty_inv
  | utfDecode => exact decode hn
  | utfDecodeE => exact decode hn
  | utfFinish => cases (execUtfFinish_eq s).symm.trans hn; exact Utf8State.empty_inv

/-- A UTF_DECODE that ends in a UTF-8 error leaves the empty state (10_state.md R43). -/
theorem utf8DecodeRange_error_empties {emit : Bool} (hn : utf8DecodeRange emit s = .next t)
    (hcode : t.rx.status.code = .utfBadLead ∨ t.rx.status.code = .utfBadCont ∨ t.rx.status.code = .utfBadCp) :
    t.rx.utf = Utf8State.empty := by
  obtain ⟨-, rfl⟩ | ⟨-, -, r, hr, rfl⟩ := utf8DecodeRange_cases hn
  · simp at hcode
  · exact (utf8Loop_utf hr).2 hcode

end Ends

/-! ### ENC_FRAME -/

/-- The frame ENC_FRAME writes, each payload byte with the key byte of its index (40_frame_codec.md R106). -/
theorem clientFrame_eq_mapIdx (c : TxCtl) (key : Word) (payload : List Byte) : clientFrame c key payload =
    encodeHeader c.fin c.rsv c.opcode payload.length key ++ payload.mapIdx fun i b => b ^^^ keyByte key (i % 4) := by
  simp [clientFrame, maskBytes_eq_mapIdx]

/-- Settles O16: the checks pass and the payload is read, so ENC_FRAME writes its frame, with the key source's answer
or, for an empty payload, 0. -/
theorem encFrameWritesMaskedFrame : Obligations.EncFrameWritesMaskedFrame := by
  intro s payload len hs hsrc hdst hrsv hop hctl hp
  have hlen : payload.length = len := Memory.readRange_length _ _ _ _ hp
  refine ⟨frameKey (drawKey s.draws) len, frameKey_drawKey_eq_zero_iff _ _, ?_⟩
  refine (encodeFrame_ok ((frameFits_iff s).mpr ⟨hsrc, hdst⟩) ((encodeError_none_iff _ _ _).mpr ⟨hrsv, hop, hctl⟩)
    ((txBytes_eq_ok_iff _ _ _ _).mpr hp)).trans ?_
  rw [← hlen, ← clientFrame_eq_mapIdx, hlen]
  rfl

/-- Settles O19: both ends of ENC_FRAME are frames of the state; only the written frame touches TXBUF, in its own
bytes. -/
theorem encFrameFrame : Obligations.EncFrameFrame := by
  intro s t hn
  have hrx : t.rx = s.rx := by rw [exec_txu_frame rfl hn]
  obtain ⟨hrxbuf, hsurroundings⟩ := exec_surroundings hn
  refine ⟨hrx, ?_, hsurroundings, fun _ => by rw [hrxbuf], fun _ => by rw [exec_cbuf (by simp) hn], ?_, fun herr => ?_⟩
  · obtain ⟨code, -, -, rfl⟩ | ⟨payload, -, rfl⟩ := execEncFrame_ends hn <;> exact ⟨rfl, rfl, rfl, rfl, rfl, rfl, rfl⟩
  · obtain ⟨code, -, hcode, rfl⟩ | ⟨payload, hlen, rfl⟩ := execEncFrame_ends hn
    · exact fun hok => absurd hok hcode
    · intro _ a ha
      exact Memory.read_writeRange_out _ _ _ _ (by rw [clientFrame_length, hlen]; omega)
  · obtain ⟨htxbuf, hdraws⟩ := exec_error_txbuf hn herr
    exact ⟨hdraws, fun _ => by rw [htxbuf]⟩

/-! ### Status -/

/-- Settles O43: the states a command leaves, the STATUS word and the table of codes. -/
theorem completionReportsStatus : Obligations.CompletionReportsStatus := by
  refine ⟨fun i s t hn => ?_, fun st => ?_, fun c => ?_⟩
  · obtain ⟨code, hmem, hst⟩ := exec_finished hn
    exact ⟨code, hmem, hst, fun u => exec_other_status hn⟩
  · rw [UnitStatus.word_toNat]
    cases st.done <;> cases st.pending <;> simp <;> omega
  · cases c <;> rfl

end Sys2Proof.Machine
end

section
/-! Proofs of the obligations of spec/10_state.md, part 3: the UTF-8 commands and the reports of errors. The counters of
UTF_DECODE's loop are bounded so that RX_CONSUMED and RX_PRODUCED hold them exactly. -/

namespace Sys2Proof.Machine

/-! ### The counters of UTF_DECODE's loop -/

section LoopCounters

variable {d : DecodeParams} {m : Memory Byte} {n pos i p : Nat} {u : Utf8State} {c : Memory CodeUnit} {r : DecodeRun}

/-- A loop that does not end OK leaves the offending byte unconsumed (60_exceptions.md R163). -/
theorem utf8Loop_consumed_lt (h : utf8Loop d m n pos i p u c = .ok r) : r.code ≠ .ok → r.consumed < i + n := by
  refine utf8Loop_induct (fun n _ i _ _ _ r => r.code ≠ .ok → r.consumed < i + n) ?_ ?_ ?_ ?_ ?_ h
  · intro _ _ _ _ _ hc
    exact absurd rfl hc
  · intro n _ i _ _ _ _ _ _ _
    show i < i + (n + 1)
    omega
  · intro _ _ _ _ _ _ _ _ _ _ ih hc
    have := ih hc
    omega
  · intro n _ i _ _ _ _ _ _ _ _ _ _
    show i < i + (n + 1)
    omega
  · intro _ _ _ _ _ _ _ _ _ _ _ _ ih hc
    have := ih hc
    omega

/-- Every byte yields at most one code unit, and the last byte of a carried sequence one more: after an emission the
state is empty, and a sequence in progress has consumed a byte that yields none (41_utf8_validator.md R136; log 19). -/
theorem utf8Loop_produced_bound (h : utf8Loop d m n pos i p u c = .ok r) :
    r.produced + i ≤ r.consumed + p + if u.rem = 0#2 then 0 else 1 := by
  refine utf8Loop_induct (fun _ _ i p u _ r => r.produced + i ≤ r.consumed + p + if u.rem = 0#2 then 0 else 1)
    ?_ ?_ ?_ ?_ ?_ h
  · intro _ i p _ _
    show p + i ≤ i + p + _
    omega
  · intro _ _ i p _ _ _ _ _
    show p + i ≤ i + p + _
    omega
  · intro _ _ _ _ _ _ _ _ _ hs ih
    rw [if_neg (utf8Step_pend_rem hs)] at ih
    omega
  · intro _ _ i p _ _ _ _ _ _ _ _
    show p + i ≤ i + p + _
    omega
  · intro _ _ _ _ u _ _ _ _ _ hs _ ih
    have hlen := utf8Step_emit_length hs
    rw [utf8Step_emit hs, if_pos (show Utf8State.empty.rem = 0#2 from rfl)] at ih
    split at hlen
    · rw [if_pos ‹_›]
      omega
    · rw [if_neg ‹_›]
      omega

end LoopCounters

section DecodeCounters

variable {emit : Bool} {s t : State} {r : DecodeRun}

/-- RX_CONSUMED and RX_PRODUCED of a UTF_DECODE that did not finish OK are the loop's counters, without wrap. -/
theorem decodeRun_error_counters (hr : s.decodeRun emit = .ok r) (hc : r.code ≠ .ok) :
    (BitVec.ofNat 32 r.consumed).toNat = r.consumed ∧ (BitVec.ofNat 32 r.produced).toNat = r.produced := by
  have hconsumed := utf8Loop_consumed_lt hr hc
  have hproduced := utf8Loop_produced_bound hr
  have hlen := s.rx.len.isLt
  constructor <;> apply Nat.mod_eq_of_lt
  · omega
  · split at hproduced <;> omega

/-- RX_PRODUCED of a UTF_DECODE.E is the loop's counter, which RX_CCAP bounds (41_utf8_validator.md R136). -/
theorem decodeRun_emit_produced (hr : s.decodeRun true = .ok r) : (BitVec.ofNat 32 r.produced).toNat = r.produced := by
  have hcap : r.produced ≤ s.rx.ccap.toNat := (utf8Loop_produced_le hr).2 rfl (Nat.zero_le _)
  have := s.rx.ccap.isLt
  exact Nat.mod_eq_of_lt (by omega)

/-- What a UTF_DECODE that did not finish OK has done is the fold over the bytes it consumed (60_exceptions.md R163). -/
theorem decodeRun_error_prefix (hr : s.decodeRun emit = .ok r) (hc : r.code ≠ .ok) :
    ∃ bs, s.rxbuf.readRange s.rx.off.toNat (s.decoded r).rx.consumed.toNat = .ok bs ∧
      (utf8Fold s.rx.utfStrict bs 0 [] s.rx.utf).error = none ∧
      (utf8Fold s.rx.utfStrict bs 0 [] s.rx.utf).units.length = (s.decoded r).rx.produced.toNat ∧
      (r.code = .outFull → r.utf = (utf8Fold s.rx.utfStrict bs 0 [] s.rx.utf).utf) ∧
      (emit = true → r.cbuf = s.cbuf.writeRange s.rx.coff.toNat (utf8Fold s.rx.utfStrict bs 0 [] s.rx.utf).units) := by
  have hloop : utf8Loop (s.decodeParams emit) s.rxbuf s.rx.len.toNat s.rx.off.toNat 0 ([] : List CodeUnit).length
      s.rx.utf (if (s.decodeParams emit).emit then s.cbuf.writeRange (s.decodeParams emit).coff [] else s.cbuf) =
      .ok r := by
    rw [Memory.writeRange_nil, ite_self]
    exact hr
  obtain ⟨bs, hbs, hnone, hunits, hutf, hcbuf⟩ := utf8Loop_prefix 0 hloop
  obtain ⟨hconsumed, hproduced⟩ := decodeRun_error_counters hr hc
  refine ⟨bs, ?_, hnone, ?_, fun h => hutf (.inr h), fun he => ?_⟩
  · rw [decoded_rx, hconsumed]
    exact hbs
  · rw [decoded_rx, hproduced]
    exact hunits
  · subst he
    exact hcbuf

end DecodeCounters

/-! ### The frame of the UTF-8 commands -/

section UtfFrame

variable {s t : State}

/-- The UTF-8 commands write no register of RXU but RX_STATUS, RX_UTF, RX_CONSUMED and RX_PRODUCED. -/
theorem utfCommand_sameBesideDecode {i : Instr}
    (hi : i = .utfReset ∨ i = .utfDecode ∨ i = .utfDecodeE ∨ i = .utfFinish) (hn : exec i s = .next t) :
    SameBesideDecode s t := by
  have decode {emit : Bool} (h : utf8DecodeRange emit s = .next t) : SameBesideDecode s t := by
    obtain ⟨-, rfl⟩ | ⟨-, -, r, -, rfl⟩ := utf8DecodeRange_cases h <;> simp [SameBesideDecode]
  obtain rfl | rfl | rfl | rfl := hi
  · cases hn
    simp [SameBesideDecode, State.emptyUtf]
  · exact decode hn
  · exact decode hn
  · cases (execUtfFinish_eq s).symm.trans hn
    simp [SameBesideDecode, State.emptyUtf]

/-- UTF_DECODE.E writes CBUF only in the RX_PRODUCED code units from RX_COFF (41_utf8_validator.md R136). -/
theorem execUtfDecodeE_cbuf_out (hn : exec .utfDecodeE s = .next t) {a : Nat}
    (ha : a < s.rx.coff.toNat ∨ s.rx.coff.toNat + t.rx.produced.toNat ≤ a) : t.cbuf.read a = s.cbuf.read a := by
  obtain ⟨-, rfl⟩ | ⟨-, -, r, hr, rfl⟩ := utf8DecodeRange_cases hn
  · rfl
  · rw [decoded_rx, decodeRun_emit_produced hr] at ha
    exact (utf8Loop_cbuf hr).2.1 a ha

end UtfFrame

/-- Settles O39: RXU's frame, and the states the four commands leave. -/
theorem utfCommandsFrame : Obligations.UtfCommandsFrame := by
  intro i s t hi hn
  have hunit : i.unit = .rxu := by obtain rfl | rfl | rfl | rfl := hi <;> rfl
  have hframe := exec_rxu_frame hunit hn
  obtain ⟨hrxbuf, hsurroundings⟩ := exec_surroundings hn
  refine ⟨utfCommand_sameBesideDecode hi hn, by rw [hframe], hsurroundings, by rw [hframe], ?_,
    fun _ => by rw [hrxbuf], fun _ => by rw [hframe], fun a ha => ?_⟩
  · rintro (rfl | rfl)
    · cases hn
      exact ⟨rfl, rfl⟩
    · cases (execUtfFinish_eq s).symm.trans hn
      exact ⟨rfl, rfl⟩
  · by_cases hE : i = .utfDecodeE
    · subst hE
      exact execUtfDecodeE_cbuf_out hn (ha.resolve_left (not_not.mpr rfl))
    · rw [exec_cbuf hE hn]

/-! ### UTF-16 -/

/-- A strict check passes a codepoint only in the range its sequence length stands for, and no surrogate
(41_utf8_validator.md R131). -/
theorem validCodepoint_strict {cp sl : Nat} (h : validCodepoint cp sl true = true) :
    cp ≤ 0x10FFFF ∧ (sl = 3 → ¬ (0xD800 ≤ cp ∧ cp ≤ 0xDFFF)) ∧ (sl = 4 → 0x10000 ≤ cp) := by
  simp only [validCodepoint, Bool.not_true, Bool.false_eq_true, if_false] at h
  split_ifs at h
  omega

/-- The code units of a codepoint that is no surrogate (41_utf8_validator.md R132). -/
theorem codeUnits_utf16 {cp : Nat} (hmax : cp ≤ 0x10FFFF) (hsurrogate : ¬ (0xD800 ≤ cp ∧ cp ≤ 0xDFFF)) :
    (∃ x : CodeUnit, codeUnits cp = [x] ∧ (x.toNat < 0xD800 ∨ 0xDFFF < x.toNat)) ∨
    (∃ hi lo : CodeUnit, codeUnits cp = [hi, lo] ∧ 0xD800 ≤ hi.toNat ∧ hi.toNat ≤ 0xDBFF ∧ 0xDC00 ≤ lo.toNat ∧
      lo.toNat ≤ 0xDFFF) := by
  unfold codeUnits
  split
  · refine .inl ⟨_, rfl, ?_⟩
    rw [BitVec.toNat_ofNat]
    omega
  · refine .inr ⟨_, _, rfl, ?_⟩
    rw [BitVec.toNat_ofNat, BitVec.toNat_ofNat, Nat.shiftRight_eq_div_pow,
      show (0x3FF : Nat) = 2 ^ 10 - 1 from rfl, Nat.and_two_pow_sub_one_eq_mod]
    omega

/-- A strict step on the last byte of a sequence completes no surrogate: the length of the sequence bounds the
codepoint of two bytes, and the check excludes the surrogates of three and the small codepoints of four. -/
theorem completed_not_surrogate {u : Utf8State} {b : Byte} (hu : u.Inv) (hr : u.rem ≠ 0#2) (hlast : ¬ 1#2 < u.rem)
    (hv : validCodepoint (extendCodepoint u.cp b) u.seqLen.toNat true = true) :
    ¬ (0xD800 ≤ extendCodepoint u.cp b ∧ extendCodepoint u.cp b ≤ 0xDFFF) := by
  obtain ⟨-, h3, h4⟩ := validCodepoint_strict hv
  obtain ⟨h, -⟩ | ⟨⟨hmin, hmax⟩, ⟨hrem, -⟩, hcp⟩ := hu
  · exact absurd h hr
  · have hlast : u.rem.toNat ≤ 1 := Nat.le_of_not_lt hlast
    obtain hsl | hsl | hsl : u.seqLen.toNat = 2 ∨ u.seqLen.toNat = 3 ∨ u.seqLen.toNat = 4 := by omega
    · obtain ⟨hext, hlow⟩ := extendCodepoint_eq u.cp b
      have hrem : u.rem.toNat = 1 := by omega
      have hcp : u.cp.toNat < 32 := by simpa [hsl, hrem] using hcp
      omega
    · exact h3 hsl
    · have := h4 hsl
      omega

/-- Settles O28: a leading byte emits an ASCII unit, and a completed codepoint is no surrogate. -/
theorem strictUnitsAreUtf16 : Obligations.StrictUnitsAreUtf16 := by
  intro u u' b us hu h
  unfold utf8Step at h
  split at h
  · obtain ⟨hb, e⟩ | ⟨-, e⟩ | ⟨-, e⟩ | ⟨-, e⟩ | e := utf8Lead_cases b <;> rw [e] at h <;> cases h
    have hb : b.toNat ≤ 0x7F := hb
    refine .inl ⟨_, rfl, .inl ?_⟩
    rw [BitVec.toNat_setWidth]
    omega
  · obtain ⟨-, e⟩ | ⟨-, e⟩ | ⟨-, -, e⟩ | ⟨hlast, hv, e⟩ := utf8Continue_cases u b true <;> rw [e] at h <;> cases h
    exact codeUnits_utf16 (validCodepoint_strict hv).1 (completed_not_surrogate hu ‹_› hlast hv)

/-! ### Reports of errors -/

section Errors

variable {s t : State}

/-- The four UTF-8 errors empty RX_UTF, whichever instruction of RXU reports them (10_state.md R43). -/
theorem exec_utf_error_empties {i : Instr} (hn : exec i s = .next t) (hi : i.unit = .rxu)
    (hcode : t.rx.status.code = .utfBadLead ∨ t.rx.status.code = .utfBadCont ∨ t.rx.status.code = .utfBadCp ∨
      t.rx.status.code = .utfIncomplete) : t.rx.utf = Utf8State.empty := by
  have header (h : i = .decHdr ∨ ∃ opcode f, IsWireFrame opcode f i) : t.rx.utf = Utf8State.empty := by
    obtain ⟨code, hmem, hst⟩ := exec_header_finished h hn
    rw [hst, UnitStatus.finished_code] at hcode
    rcases hcode with rfl | rfl | rfl | rfl <;> simp [codesOf] at hmem
  have decode (h : i = .utfDecode ∨ i = .utfDecodeE) : t.rx.utf = Utf8State.empty := by
    obtain ⟨code, hmem, hst⟩ := exec_decode_finished h hn
    rw [exec_decode h] at hn
    obtain hc | hc | hc | hc := hcode
    · exact utf8DecodeRange_error_empties hn (.inl hc)
    · exact utf8DecodeRange_error_empties hn (.inr (.inl hc))
    · exact utf8DecodeRange_error_empties hn (.inr (.inr hc))
    · rw [hst, UnitStatus.finished_code] at hc
      obtain rfl | rfl := h <;> simp [codesOf, hc] at hmem
  cases i using instr_byKind with
  | wireFrame opcode f i hw => exact header (.inr ⟨_, _, hw⟩)
  | decHdr => exact header (.inl rfl)
  | encFrame => cases hi
  | xorMask => cases hi
  | utfReset => cases hn; rfl
  | utfDecode => exact decode (.inl rfl)
  | utfDecodeE => exact decode (.inr rfl)
  | utfFinish => cases (execUtfFinish_eq s).symm.trans hn; rfl

/-- ENC_FRAME that does not finish OK leaves its results 0 (10_state.md R41). -/
theorem execEncFrame_error_results (hn : exec .encFrame s = .next t) (herr : t.tx.status.code ≠ .ok) :
    t.tx.hsize = 0#32 ∧ t.tx.keyOut = 0#32 ∧ t.tx.fsize = 0#32 := by
  obtain ⟨code, -, -, rfl⟩ | ⟨payload, -, rfl⟩ := execEncFrame_ends hn
  · exact ⟨rfl, rfl, rfl⟩
  · exact absurd rfl herr

/-- A header that is not accepted leaves DEC_HDR's results 0 (10_state.md R32, R33). -/
theorem exec_header_error_results {i : Instr} (hi : i = .decHdr ∨ ∃ opcode f, IsWireFrame opcode f i)
    (hn : exec i s = .next t) (herr : t.rx.status.code ≠ .ok) :
    t.rx.hsize = 0#32 ∧ t.rx.plen = 0#64 ∧ t.rx.payOff = 0#32 ∧ t.rx.fsize = 0#64 := by
  obtain ⟨code, h, need, -, -, rfl⟩ | ⟨h, hs, n, rfl⟩ := exec_header_ends hi hn
  · exact ⟨rfl, rfl, rfl, rfl⟩
  · exact absurd rfl herr

/-- UTF_DECODE at USE_RANGE has cleared its counters and done nothing else (41_utf8_validator.md R136). -/
theorem exec_decode_useRange {i : Instr} (hi : i = .utfDecode ∨ i = .utfDecodeE) (hn : exec i s = .next t)
    (hcode : t.rx.status.code = .useRange) :
    t.rx.consumed = 0#32 ∧ t.rx.produced = 0#32 ∧ t.rx.utf = s.rx.utf ∧ t.cbuf = s.cbuf := by
  rw [exec_decode hi] at hn
  obtain ⟨-, rfl⟩ | ⟨-, -, r, hr, rfl⟩ := utf8DecodeRange_cases hn
  · exact ⟨rfl, rfl, rfl, rfl⟩
  · exact absurd hcode (decodeRun_code hi hr).2

/-- UTF_DECODE at any other error has had the effects of the bytes before the offending one (60_exceptions.md R163). -/
theorem exec_decode_error_prefix {i : Instr} (hi : i = .utfDecode ∨ i = .utfDecodeE) (hn : exec i s = .next t)
    (herr : t.rx.status.code ≠ .ok) (hcode : t.rx.status.code ≠ .useRange) :
    ∃ bs, s.rxbuf.readRange s.rx.off.toNat t.rx.consumed.toNat = .ok bs ∧
      (utf8Fold s.rx.utfStrict bs 0 [] s.rx.utf).error = none ∧
      (utf8Fold s.rx.utfStrict bs 0 [] s.rx.utf).units.length = t.rx.produced.toNat ∧
      (t.rx.status.code = .outFull → t.rx.utf = (utf8Fold s.rx.utfStrict bs 0 [] s.rx.utf).utf) ∧
      (i = .utfDecodeE →
        t.cbuf = s.cbuf.writeRange s.rx.coff.toNat (utf8Fold s.rx.utfStrict bs 0 [] s.rx.utf).units) := by
  rw [exec_decode hi] at hn
  obtain ⟨-, rfl⟩ | ⟨-, -, r, hr, rfl⟩ := utf8DecodeRange_cases hn
  · exact absurd rfl hcode
  · obtain ⟨bs, hbs, hnone, hunits, hutf, hcbuf⟩ := decodeRun_error_prefix hr herr
    exact ⟨bs, hbs, hnone, hunits, hutf, fun he => hcbuf (by simp [he])⟩

end Errors

/-- Settles O44: one lemma for each clause, each read off the states the command can leave. -/
theorem errorReportsArePrecise : Obligations.ErrorReportsArePrecise := by
  intro i s t hn herr
  obtain ⟨code, -, hst⟩ := exec_finished hn
  obtain ⟨htxbuf, hdraws⟩ := exec_error_txbuf hn herr
  obtain ⟨hrxbuf, -⟩ := exec_surroundings hn
  have rxErr (hi : i.unit = .rxu) : t.rx.status.code ≠ .ok := by rwa [hi] at herr
  refine ⟨by rw [hst]; rfl, by rw [hst]; rfl, fun _ => by rw [htxbuf], fun _ => by rw [hrxbuf], hdraws,
    fun hi _ => by rw [exec_cbuf hi hn], fun hi hcode => exec_utf_error_empties hn hi hcode, ?_, ?_, ?_⟩
  · rintro rfl
    exact execEncFrame_error_results hn herr
  · intro hi
    have hunit : i.unit = .rxu := by
      obtain rfl | ⟨_, _, hw⟩ := hi
      · rfl
      · exact wireFrame_unit hw
    exact exec_header_error_results hi hn (rxErr hunit)
  · intro hi
    have hunit : i.unit = .rxu := by obtain rfl | rfl := hi <;> rfl
    constructor
    · intro hcode
      obtain ⟨hconsumed, hproduced, hutf, hcbuf⟩ := exec_decode_useRange hi hn hcode
      exact ⟨hconsumed, hproduced, hutf, fun _ => by rw [hcbuf]⟩
    · intro hcode
      obtain ⟨bs, hbs, hnone, hunits, hutf, hcbuf⟩ := exec_decode_error_prefix hi hn (rxErr hunit) hcode
      exact ⟨bs, hbs, hnone, hunits, hutf, fun he _ => by rw [hcbuf he]⟩

end Sys2Proof.Machine
end

section
/-! Proofs of the obligations of spec/10_state.md, part 4: the host port. One equation for each way a host access can
end, the address map as the legal shapes, and the registers. -/

namespace Sys2Proof.Machine

/-! ### The ends of a host access (20_memory.md R53, R55, 70_reset_and_hazards.md R186) -/

section HostAccess

variable {s : State} {width : Nat} {addr : Word} {tg : Target}

theorem hostAccess_read_unmapped (hr : s.params.resolve width addr = none) :
    hostAccess (.read width addr) s = .fault (.hostBadAccess addr width) := by
  simp [hostAccess, hr]

theorem hostAccess_write_unmapped {v : Word} (hr : s.params.resolve width addr = none) :
    hostAccess (.write width addr v) s = .fault (.hostBadAccess addr width) := by
  simp [hostAccess, hr]

theorem hostAccess_read_hazard (hr : s.params.resolve width addr = some tg)
    (hb : s.targetBusy tg = true ∧ tg.readForbidden = true) :
    hostAccess (.read width addr) s = .fault (.hostHazard tg.unit addr) := by
  simp [hostAccess, hr, hb]

theorem hostAccess_read_error {r : Fault} (hr : s.params.resolve width addr = some tg)
    (hb : ¬ (s.targetBusy tg = true ∧ tg.readForbidden = true)) (hv : s.readTarget tg = .error r) :
    hostAccess (.read width addr) s = .fault r := by
  simp [hostAccess, hr, hb, hv]

theorem hostAccess_read_ok {v : Word} (hr : s.params.resolve width addr = some tg)
    (hb : ¬ (s.targetBusy tg = true ∧ tg.readForbidden = true)) (hv : s.readTarget tg = .ok v) :
    hostAccess (.read width addr) s = .next { s with lastRead := some v } := by
  simp [hostAccess, hr, hb, hv]

theorem hostAccess_write_hazard {v : Word} (hr : s.params.resolve width addr = some tg)
    (hb : s.targetBusy tg = true) : hostAccess (.write width addr v) s = .fault (.hostHazard tg.unit addr) := by
  simp [hostAccess, hr, hb]

theorem hostAccess_write_ok {v : Word} (hr : s.params.resolve width addr = some tg)
    (hb : s.targetBusy tg = false) : hostAccess (.write width addr v) s = .next (s.writeTarget v tg) := by
  simp [hostAccess, hr, hb]

theorem readTarget_rxbuf_some {i : Nat} {b : Byte} (h : s.rxbuf.read i = some b) :
    s.readTarget (.rxbuf i) = .ok (b.setWidth 32) := by
  simp [State.readTarget, h]

theorem readTarget_rxbuf_none {i : Nat} (h : s.rxbuf.read i = none) :
    s.readTarget (.rxbuf i) = .error (.uninitRead .rxbuf i) := by
  simp [State.readTarget, h]

theorem readTarget_txbuf_some {i : Nat} {b : Byte} (h : s.txbuf.read i = some b) :
    s.readTarget (.txbuf i) = .ok (b.setWidth 32) := by
  simp [State.readTarget, h]

theorem readTarget_txbuf_none {i : Nat} (h : s.txbuf.read i = none) :
    s.readTarget (.txbuf i) = .error (.uninitRead .txbuf i) := by
  simp [State.readTarget, h]

theorem readTarget_cbuf_some {i : Nat} {c : CodeUnit} (h : s.cbuf.read i = some c) :
    s.readTarget (.cbuf i) = .ok (c.setWidth 32) := by
  simp [State.readTarget, h]

theorem readTarget_cbuf_none {i : Nat} (h : s.cbuf.read i = none) :
    s.readTarget (.cbuf i) = .error (.uninitRead .cbuf i) := by
  simp [State.readTarget, h]

/-- The only fault of a read of a mapped element is that it was never written (20_memory.md R55). -/
theorem readTarget_eq_error {r : Fault} (h : s.readTarget tg = .error r) : ∃ b i, r = .uninitRead b i := by
  cases tg with
  | reg r => cases h
  | rxbuf i =>
    cases hv : s.rxbuf.read i with
    | none => exact ⟨_, _, Except.error.inj (h.symm.trans (readTarget_rxbuf_none hv))⟩
    | some b => cases h.symm.trans (readTarget_rxbuf_some hv)
  | txbuf i =>
    cases hv : s.txbuf.read i with
    | none => exact ⟨_, _, Except.error.inj (h.symm.trans (readTarget_txbuf_none hv))⟩
    | some b => cases h.symm.trans (readTarget_txbuf_some hv)
  | cbuf i =>
    cases hv : s.cbuf.read i with
    | none => exact ⟨_, _, Except.error.inj (h.symm.trans (readTarget_cbuf_none hv))⟩
    | some c => cases h.symm.trans (readTarget_cbuf_some hv)

/-- A read raises HOST_BAD_ACCESS exactly when the address map gives it no target (20_memory.md R53). -/
theorem hostAccess_read_badAccess_iff :
    hostAccess (.read width addr) s = .fault (.hostBadAccess addr width) ↔ s.params.resolve width addr = none := by
  refine ⟨fun h => ?_, hostAccess_read_unmapped⟩
  cases hr : s.params.resolve width addr with
  | none => rfl
  | some tg =>
    by_cases hb : s.targetBusy tg = true ∧ tg.readForbidden = true
    · rw [hostAccess_read_hazard hr hb] at h
      cases h
    · cases hv : s.readTarget tg with
      | error r =>
        obtain ⟨b, i, rfl⟩ := readTarget_eq_error hv
        rw [hostAccess_read_error hr hb hv] at h
        cases h
      | ok v =>
        rw [hostAccess_read_ok hr hb hv] at h
        cases h

/-- A write raises HOST_BAD_ACCESS exactly when the address map gives it no target (20_memory.md R53). -/
theorem hostAccess_write_badAccess_iff {v : Word} :
    hostAccess (.write width addr v) s = .fault (.hostBadAccess addr width) ↔
      s.params.resolve width addr = none := by
  refine ⟨fun h => ?_, hostAccess_write_unmapped⟩
  cases hr : s.params.resolve width addr with
  | none => rfl
  | some tg =>
    cases hb : s.targetBusy tg with
    | true =>
      rw [hostAccess_write_hazard hr hb] at h
      cases h
    | false =>
      rw [hostAccess_write_ok hr hb] at h
      cases h

end HostAccess

/-! ### The address map (20_memory.md R52, R53) -/

/-- A register stands at an offset exactly when the register map has that row (10_state.md R23). -/
theorem ofOffset_eq_some_iff (offset : Nat) (r : Reg) :
    Reg.ofOffset offset = some r ↔ (offset, r, r.kind, r.unit) ∈ registerMap := by
  constructor
  · intro h
    unfold Reg.ofOffset at h
    split at h <;> cases h <;> decide
  · have rows : ∀ row ∈ registerMap, Reg.ofOffset row.1 = some row.2.1 := by decide
    exact fun h => rows _ h

/-- The offsets of the register map are those of 10_state.md R23's legal accesses. -/
theorem ofOffset_isSome_iff (offset : Nat) : (Reg.ofOffset offset).isSome = true ↔
    offset % 4 = 0 ∧ (offset ≤ 0x04C ∨ (0x100 ≤ offset ∧ offset ≤ 0x12C)) := by
  constructor
  · intro h
    obtain ⟨r, hr⟩ := Option.isSome_iff_exists.mp h
    have rows : ∀ row ∈ registerMap, row.1 % 4 = 0 ∧ (row.1 ≤ 0x04C ∨ (0x100 ≤ row.1 ∧ row.1 ≤ 0x12C)) := by decide
    exact rows _ ((ofOffset_eq_some_iff _ _).mp hr)
  · have rxRows : ∀ k < 20, (Reg.ofOffset (4 * k)).isSome = true := by decide
    have txRows : ∀ k < 12, (Reg.ofOffset (0x100 + 4 * k)).isSome = true := by decide
    rintro ⟨hmod, hrx | htx⟩
    · rw [show offset = 4 * (offset / 4) by omega]
      exact rxRows _ (by omega)
    · rw [show offset = 0x100 + 4 * ((offset - 0x100) / 4) by omega]
      exact txRows _ (by omega)

section AddressMap

variable {p : Params} {addr : Word} {i : Nat}

/-- The register space lies below the buffers. -/
theorem resolve_reg (h : addr.toNat < 0x1000) (hmod : addr.toNat % 4 = 0) :
    p.resolve 32 addr = (Reg.ofOffset addr.toNat).map .reg := by
  simp [Params.resolve, h, hmod]

/-- The bytes of RXBUF stand from 0x1000_0000 on. -/
theorem resolve_rxbuf (hi : i < p.rxbufSize) (ha : addr.toNat = 0x10000000 + i) :
    p.resolve 8 addr = some (.rxbuf i) := by
  simp only [Params.resolve, ha]
  rw [if_neg (by omega), if_pos (by omega), if_pos trivial, Nat.add_sub_cancel_left]

/-- The bytes of TXBUF stand from 0x2000_0000 on, above every size of RXBUF. -/
theorem resolve_txbuf (hp : p.Ok) (hi : i < p.txbufSize) (ha : addr.toNat = 0x20000000 + i) :
    p.resolve 8 addr = some (.txbuf i) := by
  obtain ⟨⟨-, hrx⟩, -, -⟩ := hp
  simp only [Params.resolve, ha]
  rw [if_neg (by omega), if_neg (by omega), if_pos (by omega), if_pos trivial, Nat.add_sub_cancel_left]

/-- The code units of CBUF stand at the even addresses from 0x3000_0000 on, above every size of TXBUF. -/
theorem resolve_cbuf (hp : p.Ok) (hi : i < p.cbufSize) (ha : addr.toNat = 0x30000000 + 2 * i) :
    p.resolve 16 addr = some (.cbuf i) := by
  obtain ⟨⟨-, hrx⟩, ⟨-, htx⟩, -⟩ := hp
  simp only [Params.resolve, ha, Nat.add_sub_cancel_left]
  rw [if_neg (by omega), if_neg (by omega), if_neg (by omega), if_pos (by omega)]
  rw [if_pos ⟨trivial, by omega⟩, Nat.mul_div_cancel_left i (by omega)]

/-- What a resolved access says of its width and address. -/
theorem resolve_eq_some {width : Nat} {tg : Target} (h : p.resolve width addr = some tg) :
    match tg with
    | .reg r => width = 32 ∧ Reg.ofOffset addr.toNat = some r
    | .rxbuf i => width = 8 ∧ i < p.rxbufSize ∧ addr.toNat = 0x10000000 + i
    | .txbuf i => width = 8 ∧ i < p.txbufSize ∧ addr.toNat = 0x20000000 + i
    | .cbuf i => width = 16 ∧ i < p.cbufSize ∧ addr.toNat = 0x30000000 + 2 * i := by
  simp only [Params.resolve] at h
  split at h
  · split at h
    · obtain ⟨r, hr, rfl⟩ := Option.map_eq_some_iff.mp h
      exact ⟨by omega, hr⟩
    · cases h
  split at h
  · split at h
    · cases h
      exact ⟨‹_›, by omega, by omega⟩
    · cases h
  split at h
  · split at h
    · cases h
      exact ⟨‹_›, by omega, by omega⟩
    · cases h
  split at h
  · split at h
    · cases h
      exact ⟨by omega, by omega, by omega⟩
    · cases h
  · cases h

/-- An access has a target exactly when it has one of the legal shapes (20_memory.md R53). -/
theorem resolve_isSome_iff {width : Nat} (hp : p.Ok) :
    (p.resolve width addr).isSome = true ↔ LegalAccess p width addr.toNat := by
  constructor
  · intro h
    obtain ⟨tg, htg⟩ := Option.isSome_iff_exists.mp h
    have hshape := resolve_eq_some htg
    cases tg with
    | reg r =>
      obtain ⟨hw, hr⟩ := hshape
      exact .inl ⟨hw, (ofOffset_isSome_iff _).mp (Option.isSome_of_eq_some hr)⟩
    | rxbuf i =>
      obtain ⟨hw, hi, ha⟩ := hshape
      exact .inr (.inl ⟨hw, i, hi, ha⟩)
    | txbuf i =>
      obtain ⟨hw, hi, ha⟩ := hshape
      exact .inr (.inr (.inl ⟨hw, i, hi, ha⟩))
    | cbuf i =>
      obtain ⟨hw, hi, ha⟩ := hshape
      exact .inr (.inr (.inr ⟨hw, i, hi, ha⟩))
  · rintro (⟨rfl, hreg⟩ | ⟨rfl, i, hi, ha⟩ | ⟨rfl, i, hi, ha⟩ | ⟨rfl, i, hi, ha⟩)
    · rw [resolve_reg (by omega) hreg.1, Option.isSome_map]
      exact (ofOffset_isSome_iff _).mpr hreg
    · rw [resolve_rxbuf hi ha, Option.isSome_some]
    · rw [resolve_txbuf hp hi ha, Option.isSome_some]
    · rw [resolve_cbuf hp hi ha, Option.isSome_some]

end AddressMap

/-- A step at a faulting event records the fault and does nothing else (60_exceptions.md R166; log 6). -/
theorem afterStep_fault {s : State} {r : Fault} (h : step s = .fault r) : s.afterStep = s.raise r := by
  simp [State.afterStep, h]

/-- Settles O48: an access faults as malformed exactly when the address map gives it no target. -/
theorem onlyLegalAccessesAreServed : Obligations.OnlyLegalAccessesAreServed := by
  intro s width addr rest hp hf hin
  have hbad : step s = .fault (.hostBadAccess addr width) ↔ s.params.resolve width addr = none := by
    obtain hin | ⟨v, hin⟩ := hin <;> rw [step_access hf hin]
    · exact hostAccess_read_badAccess_iff
    · exact hostAccess_write_badAccess_iff
  refine ⟨?_, fun h => ?_⟩
  · rw [hbad, ← resolve_isSome_iff hp, Bool.not_eq_true, Option.isSome_eq_false_iff, Option.isNone_iff_eq_none]
  · rw [afterStep_fault h, State.raise, hf]
    rfl

/-- Settles O58: the offsets of the register map are word aligned and below the buffers. -/
theorem registerMapIsTheTable : Obligations.RegisterMapIsTheTable := by
  intro p width addr r
  rw [← ofOffset_eq_some_iff]
  constructor
  · exact fun h => resolve_eq_some h
  · rintro ⟨rfl, hr⟩
    obtain ⟨hmod, hrange⟩ := (ofOffset_isSome_iff _).mp (Option.isSome_of_eq_some hr)
    rw [resolve_reg (by omega) hmod, hr, Option.map_some]

/-! ### Register reads and writes -/

/-- RX_HDR after a DEC_HDR that read header bytes 0 and 1 (10_state.md R30, 40_frame_codec.md R101). -/
theorem execDecHdr_hdr {s t : State} {b0 b1 : Byte} (hn : execDecHdr s = .next t) (hf : s.rxWindowFits = true)
    (hl : 2 ≤ s.rx.len.toNat) (h0 : s.rxbuf.read s.rx.off.toNat = some b0)
    (h1 : s.rxbuf.read (s.rx.off.toNat + 1) = some b1) : t.rx.hdr = RxHdr.ofBytes b0 b1 := by
  obtain ⟨hf', -⟩ | ⟨-, hl', -⟩ | ⟨-, -, h, hh, hread⟩ := receiveHeader_cases hn
  · rw [hf] at hf'
    cases hf'
  · omega
  · rw [readHdr_eq_ok h0 h1] at hh
    cases hh
    obtain ⟨_, -, rfl⟩ | ⟨-, -, rfl⟩ | ⟨-, -, _, -, ⟨_, -, rfl⟩ | ⟨-, rfl⟩⟩ := hread <;> rfl

/-- The fields of a word made of two bytes and a bit above them. -/
theorem extract_header_word (b0 b1 : Byte) (c : Bool) :
    let w : Word := BitVec.setWidth 16 (BitVec.ofBool c) ++ b1 ++ b0
    w.extractLsb' 0 8 = b0 ∧ w.extractLsb' 8 8 = b1 ∧ w.extractLsb' 16 16 = if c = true then 1#16 else 0#16 := by
  intro w
  have hw : w.toNat = b0.toNat + 2 ^ 8 * b1.toNat + 2 ^ 16 * c.toNat := by
    simp only [w, toNat_append_mul, BitVec.toNat_setWidth, BitVec.toNat_ofBool]
    have := Bool.toNat_le c
    omega
  have field {k n : Nat} (x : BitVec n) (hx : w.toNat / 2 ^ k % 2 ^ n = x.toNat) : w.extractLsb' k n = x :=
    BitVec.eq_of_toNat_eq (by rw [BitVec.extractLsb'_toNat, Nat.shiftRight_eq_div_pow, hx])
  have h0 := b0.isLt
  have h1 := b1.isLt
  refine ⟨field _ ?_, field _ ?_, field _ ?_⟩ <;> rw [hw]
  · omega
  · omega
  · cases c <;> simp <;> omega

/-- Settles O59: the word of each register by its layout, and RX_HDR as the header bytes it was read from. -/
theorem registerWordsShowTheState : Obligations.RegisterWordsShowTheState := by
  constructor
  · intro s r
    cases r with
    | rxStatus => exact s.rx.status.word_toNat
    | rxCfg => exact readReg_rxCfg_toNat s
    | rxHdr => exact s.rx.hdr.word_toNat
    | rxPlenLo => exact low_toNat _
    | rxPlenHi => exact high_toNat _
    | rxFsizeLo => exact low_toNat _
    | rxFsizeHi => exact high_toNat _
    | rxUtf => exact s.rx.utf.word_toNat
    | txStatus => exact s.tx.status.word_toNat
    | txCfg => exact readReg_txCfg_toNat s
    | txCtl => exact s.tx.ctl.word_toNat
    | txPhase => exact readReg_txPhase_toNat s
    | _ => rfl
  · intro s t b0 b1 hn hfit hl h0 h1
    have hword : t.readReg .rxHdr =
        BitVec.setWidth 16 (BitVec.ofBool (isControl (b0.extractLsb' 0 4))) ++ b1 ++ b0 := by
      rw [← RxHdr.word_ofBytes, ← execDecHdr_hdr hn ((rxWindowFits_iff s).mpr hfit) hl h0 h1]
      rfl
    rw [hword]
    exact extract_header_word b0 b1 _

/-- A bit of a word as a number. -/
theorem toNat_getLsbD (v : Word) (i : Nat) : (v.getLsbD i).toNat = v.toNat / 2 ^ i % 2 := by
  rw [BitVec.getLsbD, Nat.toNat_testBit]

/-- Masking a word keeps its low bits. -/
theorem toNat_and_mask (v : Word) {k : Nat} (hk : k ≤ 32) :
    (v &&& BitVec.ofNat 32 (2 ^ k - 1)).toNat = v.toNat % 2 ^ k := by
  have hpow : 2 ^ k ≤ 2 ^ 32 := Nat.pow_le_pow_right (by decide) hk
  have hpos := Nat.two_pow_pos k
  rw [BitVec.toNat_and, BitVec.toNat_ofNat, Nat.mod_eq_of_lt (by omega), Nat.and_two_pow_sub_one_eq_mod]

theorem readReg_writeReg_rxCfg (s : State) (v : Word) :
    (s.writeReg v .rxCfg).readReg .rxCfg = v &&& 0x0000000F#32 := by
  apply BitVec.eq_of_toNat_eq
  refine Eq.trans ?_ (toNat_and_mask v (k := 4) (by decide)).symm
  rw [readReg_rxCfg_toNat]
  simp only [State.writeReg, toNat_getLsbD, BitVec.extractLsb'_toNat, Nat.shiftRight_eq_div_pow]
  omega

theorem readReg_writeReg_txCfg (s : State) (v : Word) :
    (s.writeReg v .txCfg).readReg .txCfg = v &&& 0x00000007#32 := by
  apply BitVec.eq_of_toNat_eq
  refine Eq.trans ?_ (toNat_and_mask v (k := 3) (by decide)).symm
  rw [readReg_txCfg_toNat]
  simp [State.writeReg]

theorem readReg_writeReg_txCtl (s : State) (v : Word) :
    (s.writeReg v .txCtl).readReg .txCtl = v &&& 0x000000FF#32 := by
  apply BitVec.eq_of_toNat_eq
  refine ((TxCtl.word_toNat _).trans ?_).trans (toNat_and_mask v (k := 8) (by decide)).symm
  simp only [State.writeReg, TxCtl.ofWord, toNat_getLsbD, BitVec.extractLsb'_toNat, Nat.shiftRight_eq_div_pow]
  omega

theorem readReg_writeReg_txPhase (s : State) (v : Word) :
    (s.writeReg v .txPhase).readReg .txPhase = v &&& 0x00000003#32 := by
  apply BitVec.eq_of_toNat_eq
  refine Eq.trans ?_ (toNat_and_mask v (k := 2) (by decide)).symm
  rw [readReg_txPhase_toNat]
  simp [State.writeReg]

/-- An RW register is one field of the state, and no other register reads it (10_state.md R24). -/
theorem readReg_writeReg_ne (s : State) (v : Word) {r r' : Reg} (h : r.kind = .rw) (hne : r' ≠ r) :
    (s.writeReg v r).readReg r' = s.readReg r' := by
  cases r <;> cases h <;> cases r' <;> first | rfl | exact absurd rfl hne

/-- STATUS is the register a busy unit lets the host read (70_reset_and_hazards.md R186). -/
theorem readable_reg {s : State} {r : Reg} (h : (s.status r.unit).busy = false ∨ r = .rxStatus ∨ r = .txStatus) :
    ¬ (s.targetBusy (.reg r) = true ∧ (Target.reg r).readForbidden = true) := by
  rintro ⟨hb, hf⟩
  obtain h | rfl | rfl := h
  · exact Bool.false_ne_true (h.symm.trans hb)
  · cases hf
  · cases hf

/-- Settles O50: a register access is the register's read or write, and a write touches the fields of its register. -/
theorem registerReadsAndWrites : Obligations.RegisterReadsAndWrites := by
  refine ⟨fun s addr rest r hf hin hr hb => ?_, fun s addr v rest r hf hin hr hb => ?_, fun s v r h => ?_,
    fun s v r r' h hne => readReg_writeReg_ne s v h hne, fun s v r => writeReg_ro s v, fun s r h => ?_, fun s v r => ?_⟩
  · rw [step_access hf hin]
    exact hostAccess_read_ok hr (readable_reg hb) rfl
  · rw [step_access hf hin]
    exact hostAccess_write_ok (s := { s with inputs := rest }) hr hb
  · cases r with
    | rxCfg => exact readReg_writeReg_rxCfg s v
    | txCfg => exact readReg_writeReg_txCfg s v
    | txCtl => exact readReg_writeReg_txCtl s v
    | txPhase => exact readReg_writeReg_txPhase s v
    | _ => cases h <;> rfl
  · cases r <;> cases h <;> rfl
  · obtain ⟨hrxbuf, htxbuf, hcbuf, hparams, hrecord, hinputs, hlast, hdraws, hstatus⟩ := writeReg_leaves s v r
    exact ⟨hrxbuf, htxbuf, hcbuf, ⟨hparams, hrecord, hinputs, hlast⟩, hdraws, hstatus⟩

/-- Settles O42: offsets 0 and 0x100 are the command registers. -/
theorem commandWriteStartsCommand : Obligations.CommandWriteStartsCommand := by
  intro s w rest hf
  constructor <;> intro hin hidle <;> rw [step_access hf hin]
  · exact hostAccess_write_ok (tg := .reg .rxCmd) rfl (congrArg Option.isSome hidle)
  · exact hostAccess_write_ok (tg := .reg .txCmd) rfl (congrArg Option.isSome hidle)

/-- Settles O46: the reset state, register by register. -/
theorem resetValues : Obligations.ResetValues := by
  refine ⟨fun r => ?_, rfl, rfl, rfl, fun u => ?_, fun _ => ⟨rfl, rfl, rfl⟩, rfl⟩
  · cases r <;> decide
  · cases u <;> exact ⟨rfl, rfl, rfl, rfl⟩

end Sys2Proof.Machine
end

section
/-! Proofs of the obligations of spec/10_state.md, part 5: steps. What completion steps and host accesses leave, that no
event is refused, and the order of completion steps and accesses of the two units. -/

namespace Sys2Proof.Machine

/-! ### No event is refused -/

section NotRefused

variable {s : State} {r : Refusal}

theorem receiveHeader_ne_refused {hdr : Except Fault RxHdr} {plen : RxHdr → Except Fault Nat} :
    receiveHeader hdr plen s ≠ .refused r := by
  intro h
  simp only [receiveHeader] at h
  repeat' split at h
  all_goals cases h

theorem encodeFrame_ne_refused {draw : Word} : encodeFrame draw s ≠ .refused r := by
  intro h
  simp only [encodeFrame] at h
  repeat' split at h
  all_goals cases h

theorem execXorMask_ne_refused : execXorMask s ≠ .refused r := by
  intro h
  simp only [execXorMask] at h
  repeat' split at h
  all_goals cases h

theorem utf8DecodeRange_ne_refused {emit : Bool} : utf8DecodeRange emit s ≠ .refused r := by
  intro h
  simp only [utf8DecodeRange] at h
  repeat' split at h
  all_goals cases h

/-- Every instruction has a meaning. -/
theorem exec_ne_refused {i : Instr} : exec i s ≠ .refused r := by
  cases i using instr_byKind with
  | wireFrame opcode f i hw =>
    rw [exec_wireFrame hw]
    exact receiveHeader_ne_refused
  | decHdr => exact receiveHeader_ne_refused
  | encFrame => exact encodeFrame_ne_refused
  | xorMask => exact execXorMask_ne_refused
  | utfReset => exact nofun
  | utfDecode => exact utf8DecodeRange_ne_refused
  | utfDecodeE => exact utf8DecodeRange_ne_refused
  | utfFinish =>
    intro h
    cases (execUtfFinish_eq s).symm.trans h

theorem completeUnit_ne_refused {u : UnitId} : completeUnit u s ≠ .refused r := by
  cases hp : (s.status u).pending with
  | none =>
    rw [completeUnit_idle hp]
    exact nofun
  | some w =>
    cases hd : decodeCommand u w with
    | error e =>
      rw [completeUnit_illegal hp hd]
      exact nofun
    | ok i =>
      rw [completeUnit_exec hp hd]
      exact exec_ne_refused

theorem hostAccess_ne_refused {a : HostAccess} : hostAccess a s ≠ .refused r := by
  intro h
  cases a <;> simp only [hostAccess] at h
  all_goals
    repeat' split at h
    all_goals cases h

theorem runOut_ne_refused : runOut s ≠ .refused r := by
  unfold runOut
  split
  · exact completeUnit_ne_refused
  · split
    · exact completeUnit_ne_refused
    · exact nofun

/-- No step of any state is refused. -/
theorem step_ne_refused : step s ≠ .refused r := by
  unfold step
  split
  · unfold nextEvent
    split
    · exact runOut_ne_refused
    · exact hostAccess_ne_refused
    · exact completeUnit_ne_refused
    · exact nofun
  · unfold afterFault
    split <;> exact nofun

end NotRefused

/-! ### What the events leave -/

section Leaves

variable {s t : State}

/-- After its completion step a unit is idle, the other unit's status is as before, and so is what no command touches
(10_state.md R21, R45). -/
theorem completeUnit_leaves {u : UnitId} (h : completeUnit u s = .next t) :
    (t.status u).busy = false ∧ (∀ v, v ≠ u → t.status v = s.status v) ∧ SameSurroundings s t := by
  obtain ⟨hidle, rfl⟩ | ⟨w, e, -, -, rfl⟩ | ⟨w, i, -, -, rfl, hn⟩ := completeUnit_cases h
  · exact ⟨congrArg Option.isSome hidle, fun _ _ => rfl, rfl, rfl, rfl, rfl⟩
  · refine ⟨by rw [finish_status]; rfl, fun v hv => ?_, by simp [SameSurroundings]⟩
    cases u <;> cases v
    · exact absurd rfl hv
    · rfl
    · rfl
    · exact absurd rfl hv
  · obtain ⟨code, -, hst⟩ := exec_finished hn
    exact ⟨by rw [hst]; rfl, fun v => exec_other_status hn, (exec_surroundings hn).2⟩

/-- Every fault of a completion step is a read of an element never written (20_memory.md R55). -/
theorem completeUnit_eq_fault {u : UnitId} {r : Fault} (h : completeUnit u s = .fault r) :
    ∃ b i, r = .uninitRead b i := by
  cases hp : (s.status u).pending with
  | none => rw [completeUnit_idle hp] at h; cases h
  | some w =>
    cases hd : decodeCommand u w with
    | error e => rw [completeUnit_illegal hp hd] at h; cases h
    | ok i =>
      rw [completeUnit_exec hp hd] at h
      obtain ⟨j, hj, -⟩ | ⟨j, hj, -⟩ := exec_eq_fault h <;> exact ⟨_, j, hj⟩

/-- With no input left RXU completes first; TXU completes where RXU is idle (70_reset_and_hazards.md R189; log 3). -/
theorem runOut_leaves (h : runOut s = .next t) : t.rx.status.busy = false ∧
    (s.rx.status.busy = false → t.tx.status.busy = false) ∧ SameSurroundings s t := by
  unfold runOut at h
  split at h
  · obtain ⟨hidle, -, hsame⟩ := completeUnit_leaves h
    exact ⟨hidle, fun hrx => absurd hrx (by simp [*]), hsame⟩
  · have hrx : s.rx.status.busy = false := Bool.eq_false_iff.mpr ‹_›
    split at h
    · obtain ⟨hidle, hother, hsame⟩ := completeUnit_leaves h
      have hother : t.rx.status = s.rx.status := hother .rxu (by simp)
      exact ⟨by rw [hother, hrx], fun _ => hidle, hsame⟩
    · cases h
      exact ⟨hrx, fun _ => Bool.eq_false_iff.mpr ‹_›, rfl, rfl, rfl, rfl⟩

theorem runOut_eq_fault {r : Fault} (h : runOut s = .fault r) : ∃ b i, r = .uninitRead b i := by
  unfold runOut at h
  split at h
  · exact completeUnit_eq_fault h
  · split at h
    · exact completeUnit_eq_fault h
    · cases h

/-- A host write leaves RX_UTF and the fault record. -/
theorem writeTarget_leaves (s : State) (v : Word) (tg : Target) :
    (s.writeTarget v tg).rx.utf = s.rx.utf ∧ (s.writeTarget v tg).faultRecord = s.faultRecord := by
  cases tg with
  | reg r => cases r <;> exact ⟨rfl, rfl⟩
  | rxbuf i => exact ⟨rfl, rfl⟩
  | txbuf i => exact ⟨rfl, rfl⟩
  | cbuf i => exact ⟨rfl, rfl⟩

theorem hostAccess_leaves {a : HostAccess} (h : hostAccess a s = .next t) :
    t.rx.utf = s.rx.utf ∧ t.faultRecord = s.faultRecord := by
  obtain ⟨_, _, _, _, -, -, -, -, rfl⟩ | ⟨_, _, v, tg, -, -, -, rfl⟩ := hostAccess_cases h
  · exact ⟨rfl, rfl⟩
  · exact writeTarget_leaves s v tg

/-- The step at a reset, from a state with a recorded fault too (70_reset_and_hazards.md R180). -/
theorem step_reset {rest : List Input} (hin : s.inputs = .reset :: rest) : step s = .next (s.resetEvent rest) := by
  unfold step
  split
  · simp only [nextEvent, hin]
  · simp only [afterFault, hin]

/-- A recorded fault is the answer of every step but a reset (60_exceptions.md R166; log 5). -/
theorem step_recorded {r : Fault} {rs : List Fault} (hf : s.faultRecord = r :: rs)
    (hin : ∀ rest, s.inputs ≠ .reset :: rest) : step s = .fault r := by
  simp only [step, hf]
  unfold afterFault
  split
  · exact absurd ‹_› (hin _)
  · rfl

/-- Every written mark of `s` is set in `t` (10_state.md R49). -/
def KeepsMarks (s t : State) : Prop := ∀ i,
  ((s.rxbuf.read i).isSome = true → (t.rxbuf.read i).isSome = true) ∧
    ((s.txbuf.read i).isSome = true → (t.txbuf.read i).isSome = true) ∧
    ((s.cbuf.read i).isSome = true → (t.cbuf.read i).isSome = true)

/-- Equal buffers have equal marks. -/
theorem KeepsMarks.of_eq (hrx : t.rxbuf = s.rxbuf) (htx : t.txbuf = s.txbuf) (hc : t.cbuf = s.cbuf) :
    KeepsMarks s t := fun i => by
  rw [hrx, htx, hc]
  exact ⟨id, id, id⟩

/-- TXU's instructions write TXBUF by ranges. -/
theorem exec_txu_txbuf {i : Instr} (hi : i.unit = .txu) (hn : exec i s = .next t) :
    t.txbuf = s.txbuf ∨ ∃ bs, t.txbuf = s.txbuf.writeRange s.tx.dst.toNat bs := by
  obtain rfl | rfl := unit_eq_txu hi
  · obtain ⟨_, -, -, rfl⟩ | ⟨_, -, rfl⟩ := execEncFrame_ends hn
    · exact .inl rfl
    · exact .inr ⟨_, rfl⟩
  · obtain ⟨-, rfl⟩ | ⟨-, _, -, rfl⟩ := execXorMask_cases hn
    · exact .inl rfl
    · exact .inr ⟨_, rfl⟩

/-- Every instruction keeps the written marks of CBUF. -/
theorem exec_cbuf_marks {i : Instr} (hn : exec i s = .next t) (a : Nat) (ha : (s.cbuf.read a).isSome = true) :
    (t.cbuf.read a).isSome = true := by
  by_cases hE : i = .utfDecodeE
  · subst hE
    obtain ⟨-, rfl⟩ | ⟨-, -, r, hr, rfl⟩ := utf8DecodeRange_cases hn
    · exact ha
    · exact (utf8Loop_cbuf hr).2.2 a ha
  · rwa [exec_cbuf hE hn]

theorem exec_keepsMarks {i : Instr} (hn : exec i s = .next t) : KeepsMarks s t := by
  obtain ⟨hrxbuf, -⟩ := exec_surroundings hn
  refine fun a => ⟨by rw [hrxbuf]; exact id, fun ha => ?_, exec_cbuf_marks hn a⟩
  cases hi : i.unit with
  | rxu => rwa [exec_rxu_frame hi hn]
  | txu =>
    obtain h | ⟨bs, h⟩ := exec_txu_txbuf hi hn <;> rw [h]
    · exact ha
    · exact Memory.isSome_read_writeRange _ _ _ _ ha

theorem completeUnit_keepsMarks {u : UnitId} (h : completeUnit u s = .next t) : KeepsMarks s t := by
  obtain ⟨-, rfl⟩ | ⟨_, _, -, -, rfl⟩ | ⟨_, i, -, -, -, hn⟩ := completeUnit_cases h
  · exact .of_eq rfl rfl rfl
  · exact .of_eq (finish_rxbuf _ _ _) (finish_txbuf _ _ _) (finish_cbuf _ _ _)
  · exact exec_keepsMarks hn

theorem writeTarget_keepsMarks (s : State) (v : Word) (tg : Target) : KeepsMarks s (s.writeTarget v tg) := by
  cases tg with
  | reg r =>
    obtain ⟨hrxbuf, htxbuf, hcbuf, -⟩ := writeReg_leaves s v r
    exact .of_eq hrxbuf htxbuf hcbuf
  | rxbuf i => exact fun a => ⟨Memory.isSome_read_writeRange s.rxbuf i a [v.setWidth 8], id, id⟩
  | txbuf i => exact fun a => ⟨id, Memory.isSome_read_writeRange s.txbuf i a [v.setWidth 8], id⟩
  | cbuf i => exact fun a => ⟨id, id, Memory.isSome_read_writeRange s.cbuf i a [v.setWidth 16]⟩

theorem hostAccess_keepsMarks {a : HostAccess} (h : hostAccess a s = .next t) : KeepsMarks s t := by
  obtain ⟨_, _, _, _, -, -, -, -, rfl⟩ | ⟨_, _, v, tg, -, -, -, rfl⟩ := hostAccess_cases h
  · exact .of_eq rfl rfl rfl
  · exact writeTarget_keepsMarks s v tg

/-- Only a reset clears a written mark (10_state.md R49, 70_reset_and_hazards.md R180). -/
theorem step_keepsMarks (hin : ∀ rest, s.inputs ≠ .reset :: rest) (h : step s = .next t) : KeepsMarks s t := by
  obtain ⟨rest, hr, -⟩ | ⟨-, ⟨a, rest, -, ha⟩ | ⟨u, rest, -, hu⟩ | ⟨-, ⟨u, hu⟩ | rfl⟩⟩ := step_cases h
  · exact absurd hr (hin rest)
  · exact hostAccess_keepsMarks (s := { s with inputs := rest }) ha
  · exact completeUnit_keepsMarks (s := { s with inputs := rest }) hu
  · exact completeUnit_keepsMarks hu
  · exact .of_eq rfl rfl rfl

theorem completeUnit_keeps_utf_inv {u : UnitId} (hs : s.rx.utf.Inv) (h : completeUnit u s = .next t) :
    t.rx.utf.Inv := by
  obtain ⟨-, rfl⟩ | ⟨_, _, -, -, rfl⟩ | ⟨_, i, -, -, -, hn⟩ := completeUnit_cases h
  · exact hs
  · cases u <;> exact hs
  · exact exec_keeps_utf_inv hs hn

/-- A step keeps the state invariant of RX_UTF (10_state.md R43). -/
theorem step_keeps_utf_inv (hs : s.rx.utf.Inv) (h : step s = .next t) : t.rx.utf.Inv := by
  obtain ⟨rest, -, rfl⟩ | ⟨-, ⟨a, rest, -, ha⟩ | ⟨u, rest, -, hu⟩ | ⟨-, ⟨u, hu⟩ | rfl⟩⟩ := step_cases h
  · exact Utf8State.empty_inv
  · rwa [(hostAccess_leaves ha).1]
  · exact completeUnit_keeps_utf_inv (s := { s with inputs := rest }) hs hu
  · exact completeUnit_keeps_utf_inv hs hu
  · exact hs

/-- Only a state without a recorded fault is a next state (60_exceptions.md R166). -/
theorem step_faultRecord (h : step s = .next t) : t.faultRecord = [] := by
  obtain ⟨rest, -, rfl⟩ | ⟨hf, ⟨a, rest, -, ha⟩ | ⟨u, rest, -, hu⟩ | ⟨-, ⟨u, hu⟩ | rfl⟩⟩ := step_cases h
  · rfl
  · rwa [(hostAccess_leaves ha).2]
  · obtain ⟨-, -, -, hrecord, -⟩ := completeUnit_leaves hu
    rwa [hrecord]
  · obtain ⟨-, -, -, hrecord, -⟩ := completeUnit_leaves hu
    rwa [hrecord]
  · exact hf

end Leaves

/-- DEC_HDR over a window that begins with the header bytes of a frame is the receiving of that frame (log 10). -/
theorem execDecHdr_eq_receiveFrame {s : State} {opcode : BitVec 4} {f : FrameFields} (hf : f.wf = true) {k : Nat}
    {rest : List Byte} (h : s.rxbuf.readRange s.rx.off.toNat k = .ok (headerBytes opcode f ++ rest)) :
    execDecHdr s = receiveFrame opcode f s := by
  obtain ⟨hhdr, hplen⟩ := readings_of_headerBytes hf h
  refine receiveHeader_congr hhdr fun x hx => ?_
  rw [hhdr] at hx
  cases hx
  exact hplen

/-- An instruction encoded in wire bytes is a wire instruction with those header bytes (30_encoding.md R70, R75). -/
theorem encode_wire {i : Instr} {bs : List Byte} (he : encode i = .wire bs) (hw : i.wf = true) :
    ∃ opcode f, IsWireFrame opcode f i ∧ f.wf = true ∧ bs = headerBytes opcode f := by
  cases i using instr_byKind with
  | wireFrame opcode f i h =>
    obtain ⟨rfl, rfl⟩ | ⟨rfl, rfl⟩ | ⟨rfl, rfl⟩ | ⟨rfl, rfl⟩ | ⟨rfl, rfl⟩ | ⟨rfl, rfl⟩ := id h <;>
      exact ⟨_, f, h, hw, (Encoding.wire.inj he).symm⟩
  | _ => cases he

/-! ### The obligations on steps -/

/-- Settles O25: the step of the validator, the commands and the events keep the invariant. -/
theorem utf8StateInvariantKept : Obligations.Utf8StateInvariantKept := by
  refine ⟨Utf8State.empty_inv, fun s t => step_keeps_utf_inv, fun u => Utf8State.cp_lt,
    fun u u' b strict => utf8Step_pend_inv, fun u u' b strict us => utf8Step_emit,
    fun i s t => exec_keeps_utf_inv, fun i s t hn h => ?_⟩
  obtain rfl | rfl | ⟨hi, hcode⟩ := h
  · cases hn
    rfl
  · cases (execUtfFinish_eq s).symm.trans hn
    rfl
  · rw [exec_decode hi] at hn
    exact utf8DecodeRange_error_empties hn hcode

/-- Settles O45: the first of two steps leaves RXU idle, and the second, which finds it idle, TXU. -/
theorem startedCommandsComplete : Obligations.StartedCommandsComplete := by
  refine ⟨fun s t u hf hin hst htu => ?_, fun s r hf hin h => ?_, fun s r => step_ne_refused⟩
  · rw [step_runOut hf hin] at hst
    obtain ⟨hrx, -, -, hrecord, hinputs, -⟩ := runOut_leaves hst
    rw [step_runOut (hrecord.trans hf) (hinputs.trans hin)] at htu
    obtain ⟨hrx', htx', -⟩ := runOut_leaves htu
    exact ⟨hrx', htx' hrx⟩
  · rw [step_runOut hf hin] at h
    exact runOut_eq_fault h

/-- Settles O52: a host read of a buffer is its element or its absence, an instruction faults only on an absent element,
and no event but a reset takes a mark away. -/
theorem unwrittenElementsHaveNoValue : Obligations.UnwrittenElementsHaveNoValue := by
  refine ⟨fun s width addr rest tg hf hin hr hidle => ?_, fun i s r => exec_eq_fault,
    fun s t hin h => step_keepsMarks hin h⟩
  have hb : ¬ (s.targetBusy tg = true ∧ tg.readForbidden = true) := fun h =>
    Bool.false_ne_true (hidle.symm.trans h.1)
  rw [step_access hf hin]
  refine ⟨?_, ?_, ?_, ?_, ?_, ?_⟩
  · rintro i rfl h
    exact hostAccess_read_error hr hb (readTarget_rxbuf_none h)
  · rintro i rfl h
    exact hostAccess_read_error hr hb (readTarget_txbuf_none h)
  · rintro i rfl h
    exact hostAccess_read_error hr hb (readTarget_cbuf_none h)
  · rintro i b rfl h
    exact hostAccess_read_ok hr hb (readTarget_rxbuf_some h)
  · rintro i b rfl h
    exact hostAccess_read_ok hr hb (readTarget_txbuf_some h)
  · rintro i c rfl h
    exact hostAccess_read_ok hr hb (readTarget_cbuf_some h)

/-- Settles O40: a completion step is the meaning of the decoded word, and DEC_HDR over wire bytes that of their
instruction. -/
theorem stepRunsThePendingCommand : Obligations.StepRunsThePendingCommand := by
  intro s u w rest hf hin hp
  rw [step_complete hf hin]
  refine ⟨fun i hd => completeUnit_exec hp hd, fun e hd => completeUnit_illegal hp hd, ?_⟩
  rintro i bs rfl rfl hwf he hbs
  obtain ⟨opcode, f, hw, hf, rfl⟩ := encode_wire he hwf
  refine (completeUnit_exec (s := { s with inputs := rest }) hp (i := .decHdr) rfl).trans ?_
  rw [exec_wireFrame hw]
  exact execDecHdr_eq_receiveFrame (s := { s with inputs := rest }) hf (rest := []) (by rwa [List.append_nil])

/-- Settles O47: the reset event, whatever the fault record. -/
theorem resetEventRestoresReset : Obligations.ResetEventRestoresReset :=
  fun s rest hin => ⟨s.resetEvent rest, step_reset hin, rfl, rfl, fun _ => ⟨rfl, rfl, rfl⟩, rfl, rfl, rfl⟩

/-- Settles O53: the fault is recorded, and a recorded fault answers every step but a reset. -/
theorem recordedFaultEndsTheRun : Obligations.RecordedFaultEndsTheRun := by
  refine ⟨fun s r h hf => ?_, fun s hf hin => ?_, fun s t => step_faultRecord⟩
  · rw [afterStep_fault h, raise_faultRecord, hf, List.nil_append]
  · obtain ⟨r, rs, hrecord⟩ := List.exists_cons_of_ne_nil hf
    exact ⟨r, by rw [hrecord]; exact List.mem_cons_self, step_recorded hrecord hin⟩

/-! ### The order of the two units -/

section Commute

variable {s t u : State} {i j : Instr}

/-- An instruction of RXU and then one of TXU, in the other order (20_memory.md R61). -/
theorem exec_rxu_txu_commute (hi : i.unit = .rxu) (hj : j.unit = .txu) (hst : exec i s = .next t)
    (htu : exec j t = .next u) : ∃ t', exec j s = .next t' ∧ exec i t' = .next u := by
  have hside : SameTxuSide t s := by
    rw [exec_rxu_frame hi hst]
    exact ⟨rfl, rfl, rfl, rfl⟩
  have hside' : SameRxuSide s { s with tx := u.tx, txbuf := u.txbuf, draws := u.draws } := ⟨rfl, rfl, rfl, rfl⟩
  have hu := exec_txu_frame hj htu
  rw [exec_rxu_frame hi hst] at hu
  exact ⟨_, exec_txu_transfer hj hside htu, (exec_rxu_transfer hi hside' hst).trans (congrArg _ hu.symm)⟩

/-- An instruction of TXU and then one of RXU, in the other order (20_memory.md R61). -/
theorem exec_txu_rxu_commute (hi : i.unit = .txu) (hj : j.unit = .rxu) (hst : exec i s = .next t)
    (htu : exec j t = .next u) : ∃ t', exec j s = .next t' ∧ exec i t' = .next u := by
  have hside : SameRxuSide t s := by
    rw [exec_txu_frame hi hst]
    exact ⟨rfl, rfl, rfl, rfl⟩
  have hside' : SameTxuSide s { s with rx := u.rx, cbuf := u.cbuf } := ⟨rfl, rfl, rfl, rfl⟩
  have hu := exec_rxu_frame hj htu
  rw [exec_txu_frame hi hst] at hu
  exact ⟨_, exec_rxu_transfer hj hside htu, (exec_txu_transfer hi hside' hst).trans (congrArg _ hu.symm)⟩

/-- A read of a TXU target sees nothing of RXU's. -/
theorem readTarget_txu (s : State) {tg : Target} (h : tg.unit = .txu) (rx : RxUnit) (cbuf : Memory CodeUnit) :
    State.readTarget { s with rx := rx, cbuf := cbuf } tg = s.readTarget tg := by
  cases tg with
  | reg r => cases r <;> cases h <;> rfl
  | txbuf k => rfl
  | rxbuf k => cases h
  | cbuf k => cases h

/-- A read of an RXU target sees nothing of TXU's. -/
theorem readTarget_rxu (s : State) {tg : Target} (h : tg.unit = .rxu) (tx : TxUnit) (txbuf : Memory Byte)
    (draws : Nat) : State.readTarget { s with tx := tx, txbuf := txbuf, draws := draws } tg = s.readTarget tg := by
  cases tg with
  | reg r => cases r <;> cases h <;> rfl
  | txbuf k => cases h
  | rxbuf k => rfl
  | cbuf k => rfl

variable {width : Nat} {addr : Word} {tg : Target} {a : HostAccess}

/-- `a` is an access of `width` bits at `addr`, a read or a write of some word. -/
def HostAccess.IsAt (width : Nat) (addr : Word) (a : HostAccess) : Prop :=
  a = .read width addr ∨ ∃ v, a = .write width addr v

/-- What a served access with a known target does. -/
theorem hostAccess_next_of_resolve (hr : s.params.resolve width addr = some tg) (ha : HostAccess.IsAt width addr a)
    (h : hostAccess a s = .next t) :
    (∃ v, a = .read width addr ∧ ¬ (s.targetBusy tg = true ∧ tg.readForbidden = true) ∧ s.readTarget tg = .ok v ∧
      t = { s with lastRead := some v }) ∨
    (∃ v, a = .write width addr v ∧ s.targetBusy tg = false ∧ t = s.writeTarget v tg) := by
  obtain ⟨width', addr', tg', v, rfl, hr', hb, hv, rfl⟩ | ⟨width', addr', v, tg', rfl, hr', hb, rfl⟩ :=
    hostAccess_cases h
  · obtain ha | ⟨_, ha⟩ := ha <;> cases ha
    cases hr.symm.trans hr'
    exact .inl ⟨v, rfl, hb, hv, rfl⟩
  · obtain ha | ⟨_, ha⟩ := ha <;> cases ha
    cases hr.symm.trans hr'
    exact .inr ⟨v, rfl, hb, rfl⟩

/-- An access to TXU's side does the same before RXU's side is changed as after it. -/
theorem hostAccess_txu_before (hu : tg.unit = .txu) (hr : s.params.resolve width addr = some tg)
    (ha : HostAccess.IsAt width addr a) {rx : RxUnit} {cbuf : Memory CodeUnit}
    (h : hostAccess a { s with rx := rx, cbuf := cbuf } = .next u) :
    ∃ t', hostAccess a s = .next t' ∧ SameRxuSide s t' ∧ u = { t' with rx := rx, cbuf := cbuf } := by
  have hbusy : State.targetBusy { s with rx := rx, cbuf := cbuf } tg = s.targetBusy tg := by
    simp only [State.targetBusy, hu, status_txu]
  obtain ⟨v, rfl, hb, hv, rfl⟩ | ⟨v, rfl, hb, rfl⟩ :=
    hostAccess_next_of_resolve (s := { s with rx := rx, cbuf := cbuf }) hr ha h
  · rw [hbusy] at hb
    rw [readTarget_txu s hu] at hv
    exact ⟨_, hostAccess_read_ok hr hb hv, ⟨rfl, rfl, rfl, rfl⟩, rfl⟩
  · rw [hbusy] at hb
    refine ⟨_, hostAccess_write_ok hr hb, ?_, ?_⟩
    · rw [writeTarget_txu (s := s) v hu rfl rfl]
      exact ⟨rfl, rfl, rfl, rfl⟩
    · rw [writeTarget_txu (s := s) (s' := s) v hu rfl rfl]
      exact writeTarget_txu (s := s) v hu rfl rfl

/-- An access to RXU's side does the same before TXU's side is changed as after it. -/
theorem hostAccess_rxu_before (hu : tg.unit = .rxu) (hr : s.params.resolve width addr = some tg)
    (ha : HostAccess.IsAt width addr a) {tx : TxUnit} {txbuf : Memory Byte} {draws : Nat}
    (h : hostAccess a { s with tx := tx, txbuf := txbuf, draws := draws } = .next u) :
    ∃ t', hostAccess a s = .next t' ∧ SameTxuSide s t' ∧ u = { t' with tx := tx, txbuf := txbuf, draws := draws } := by
  have hbusy : State.targetBusy { s with tx := tx, txbuf := txbuf, draws := draws } tg = s.targetBusy tg := by
    simp only [State.targetBusy, hu, status_rxu]
  obtain ⟨v, rfl, hb, hv, rfl⟩ | ⟨v, rfl, hb, rfl⟩ :=
    hostAccess_next_of_resolve (s := { s with tx := tx, txbuf := txbuf, draws := draws }) hr ha h
  · rw [hbusy] at hb
    rw [readTarget_rxu s hu] at hv
    exact ⟨_, hostAccess_read_ok hr hb hv, ⟨rfl, rfl, rfl, rfl⟩, rfl⟩
  · rw [hbusy] at hb
    refine ⟨_, hostAccess_write_ok hr hb, ?_, ?_⟩
    · rw [writeTarget_rxu (s := s) v hu rfl rfl rfl]
      exact ⟨rfl, rfl, rfl, rfl⟩
    · rw [writeTarget_rxu (s := s) (s' := s) v hu rfl rfl rfl]
      exact writeTarget_rxu (s := s) v hu rfl rfl rfl

/-- A completion step and then an access to the other unit, in the other order (20_memory.md R61). -/
theorem exec_hostAccess_commute (hu : tg.unit ≠ i.unit) (hr : s.params.resolve width addr = some tg)
    (ha : HostAccess.IsAt width addr a) (hst : exec i s = .next t) (htu : hostAccess a t = .next u) :
    ∃ t', hostAccess a s = .next t' ∧ exec i t' = .next u := by
  cases hi : i.unit with
  | rxu =>
    have htg : tg.unit = .txu := by cases h : tg.unit <;> simp_all
    rw [exec_rxu_frame hi hst] at htu
    obtain ⟨t', ht', hside, rfl⟩ := hostAccess_txu_before htg hr ha htu
    exact ⟨t', ht', exec_rxu_transfer hi hside hst⟩
  | txu =>
    have htg : tg.unit = .rxu := by cases h : tg.unit <;> simp_all
    rw [exec_txu_frame hi hst] at htu
    obtain ⟨t', ht', hside, rfl⟩ := hostAccess_rxu_before htg hr ha htu
    exact ⟨t', ht', exec_txu_transfer hi hside hst⟩

end Commute

/-- Settles O55: what the second event changes, the first neither reads nor changes. -/
theorem completionStepsCommute : Obligations.CompletionStepsCommute := by
  refine ⟨fun i j s t u hij hst htu => ?_, fun i a s t u tg ⟨width, addr, hr, ha⟩ hu hst htu =>
    exec_hostAccess_commute hu hr ha hst htu⟩
  cases hi : i.unit <;> cases hj : j.unit
  · exact absurd (hi.trans hj.symm) hij
  · exact exec_rxu_txu_commute hi hj hst htu
  · exact exec_txu_rxu_commute hi hj hst htu
  · exact absurd (hi.trans hj.symm) hij

end Sys2Proof.Machine
end

section
/-! Proofs of the obligations of spec/20_memory.md: the range checks and unwritten elements of the commands that read a
buffer (R54, R55), and the host writes of buffer elements (R51, R52, R57). -/

namespace Sys2Proof.Machine

/-! ### ENC_FRAME's checks -/

/-- The checks of ENC_FRAME as one chain of conditions (40_frame_codec.md R106). -/
theorem encodeError_eq (allow : BitVec 3) (c : TxCtl) (len : Nat) : encodeError allow c len =
    if c.rsv &&& ~~~allow ≠ 0#3 then some .protoRsv
    else if recognized c.opcode = false then some .protoOpcode
    else if isControl c.opcode = true ∧ c.fin = false then some .protoCtrlFrag
    else if isControl c.opcode = true ∧ 125 < len then some .protoCtrlLen
    else none := by
  simp only [encodeError, Bool.and_eq_true, Bool.not_eq_true']

/-- Settles O17: each branch is the first check of ENC_FRAME that fails, and in the last one the payload is read. -/
theorem encFrameRefusesIllegalFrame : Obligations.EncFrameRefusesIllegalFrame := by
  intro s len hs report
  have hfits : s.frameFits = true ↔ s.tx.src.toNat + len ≤ s.params.txbufSize ∧
      s.tx.dst.toNat + hs + len ≤ s.params.txbufSize := frameFits_iff s
  have hchecks := encodeError_eq s.tx.rsvAllow s.tx.ctl len
  split_ifs with hrange hrsv hop hfrag hlen
  · exact encodeFrame_useRange (Bool.eq_false_iff.mpr (by rw [Ne, hfits]; omega))
  all_goals have hfit : s.frameFits = true := hfits.mpr (by omega)
  · exact encodeFrame_error hfit (by rw [hchecks, if_pos hrsv])
  · exact encodeFrame_error hfit (by rw [hchecks, if_neg hrsv, if_pos hop])
  · exact encodeFrame_error hfit (by rw [hchecks, if_neg hrsv, if_neg hop, if_pos hfrag])
  · exact encodeFrame_error hfit (by rw [hchecks, if_neg hrsv, if_neg hop, if_neg hfrag, if_pos hlen])
  · intro j hj
    exact encodeFrame_fault hfit (by rw [hchecks, if_neg hrsv, if_neg hop, if_neg hfrag, if_neg hlen])
      ((txBytes_eq_error_iff _ _ _ _).mpr ⟨j, hj, rfl⟩)

/-! ### UTF_DECODE's checks -/

/-- Where the bytes before an element never written decode without an error and their code units fit, the loop of
UTF_DECODE reaches that element (41_utf8_validator.md R136, 20_memory.md R55). -/
theorem decodeRun_reaches_unwritten {s : State} {emit : Bool} {bs : List Byte} (hlt : bs.length < s.rx.len.toNat)
    (hr : s.rxbuf.readRange s.rx.off.toNat bs.length = .ok bs)
    (hnone : s.rxbuf.read (s.rx.off.toNat + bs.length) = none)
    (herr : (utf8Fold s.rx.utfStrict bs 0 [] s.rx.utf).error = none)
    (hcap : emit = true → (utf8Fold s.rx.utfStrict bs 0 [] s.rx.utf).units.length ≤ s.rx.ccap.toNat) :
    s.decodeRun emit = .error (.uninitRead .rxbuf (s.rx.off.toNat + bs.length)) := by
  obtain ⟨more, hmore⟩ : ∃ more, s.rx.len.toNat = bs.length + (more + 1) :=
    ⟨s.rx.len.toNat - bs.length - 1, by omega⟩
  have hfold := utf8Loop_eq_fold (s.decodeParams emit) s.rxbuf bs (more + 1) s.rx.off.toNat 0 [] s.rx.utf s.cbuf hr hcap
  have herr : (utf8Fold (s.decodeParams emit).strict bs 0 [] s.rx.utf).error = none := herr
  rw [herr, Memory.writeRange_nil, ite_self] at hfold
  rw [State.decodeRun, hmore]
  refine hfold.trans ?_
  rw [utf8Loop_succ, hnone]

/-- Settles O32: the windows are checked before the loop, and the loop reaches the byte never written. -/
theorem utfDecodeRangeAndUninit : Obligations.UtfDecodeRangeAndUninit := by
  refine fun s => ⟨fun hrx i hi => ?_, fun hc => ?_, fun bs hfit hlt hr hnone herr => ?_⟩
  · rw [exec_decode hi]
    exact utf8DecodeRange_useRange (.inl (Bool.eq_false_iff.mpr (by rw [Ne, rxWindowFits_iff]; omega)))
  · exact utf8DecodeRange_useRange (.inr ⟨rfl, Bool.eq_false_iff.mpr (by rw [Ne, cbufWindowFits_iff]; omega)⟩)
  · have hwindow := (rxWindowFits_iff s).mpr hfit
    exact ⟨utf8DecodeRange_fault hwindow nofun (decodeRun_reaches_unwritten hlt hr hnone herr nofun),
      fun hc hcap => utf8DecodeRange_fault hwindow (fun _ => (cbufWindowFits_iff s).mpr hc)
        (decodeRun_reaches_unwritten hlt hr hnone herr fun _ => hcap)⟩

/-! ### Host writes of buffer elements -/

/-- The step at a host write of a target of an idle unit is the write (20_memory.md R52, R58). -/
theorem step_write_idle {s : State} {width : Nat} {addr v : Word} {rest : List Input} {tg : Target}
    (hf : s.faultRecord = []) (hin : s.inputs = .access (.write width addr v) :: rest)
    (hr : s.params.resolve width addr = some tg) (hidle : (s.status tg.unit).pending = none) :
    step s = .next (State.writeTarget v { s with inputs := rest } tg) := by
  rw [step_access hf hin]
  exact hostAccess_write_ok (s := { s with inputs := rest }) hr (congrArg Option.isSome hidle)

/-- Settles O51: the address is the element's in the address map, and the element is the only one written. -/
theorem hostBufferWrites : Obligations.HostBufferWrites := by
  intro s v rest i hp hf
  obtain ⟨⟨-, hrx⟩, ⟨-, htx⟩, -, hc⟩ := id hp
  refine ⟨fun hi hidle hin => ?_, fun hi hidle hin => ?_, fun hi hidle hin => ?_⟩
  · have hr := resolve_rxbuf hi (addr := BitVec.ofNat 32 (0x10000000 + i)) (Nat.mod_eq_of_lt (by omega))
    exact ⟨_, step_write_idle hf hin hr hidle, Memory.read_write_same _ _ _, fun _ => Memory.read_write_ne _ _⟩
  · have hr := resolve_txbuf hp hi (addr := BitVec.ofNat 32 (0x20000000 + i)) (Nat.mod_eq_of_lt (by omega))
    exact ⟨_, step_write_idle hf hin hr hidle, Memory.read_write_same _ _ _, fun _ => Memory.read_write_ne _ _⟩
  · have hr := resolve_cbuf hp hi (addr := BitVec.ofNat 32 (0x30000000 + 2 * i)) (Nat.mod_eq_of_lt (by omega))
    exact ⟨_, step_write_idle hf hin hr hidle, Memory.read_write_same _ _ _, fun _ => Memory.read_write_ne _ _⟩

end Sys2Proof.Machine
end

section
/-! Proofs of the obligations of spec/30_encoding.md, part 1: the encodings. The wire decoder answers exactly the wire
instructions whose header bytes the list begins with, and the word decoder exactly the words that encode a command; the
round trips in both directions are read off these two equivalences. -/

namespace Sys2Proof.Machine

/-! ### The wire instructions (30_encoding.md R70 to R79) -/

section WireFrame

variable {opcode : BitVec 4} {f : FrameFields} {i : Instr}

theorem encode_wireFrame (h : IsWireFrame opcode f i) : encode i = .wire (headerBytes opcode f) := by
  obtain ⟨rfl, rfl⟩ | ⟨rfl, rfl⟩ | ⟨rfl, rfl⟩ | ⟨rfl, rfl⟩ | ⟨rfl, rfl⟩ | ⟨rfl, rfl⟩ := h <;> rfl

theorem wf_wireFrame (h : IsWireFrame opcode f i) : i.wf = f.wf := by
  obtain ⟨rfl, rfl⟩ | ⟨rfl, rfl⟩ | ⟨rfl, rfl⟩ | ⟨rfl, rfl⟩ | ⟨rfl, rfl⟩ | ⟨rfl, rfl⟩ := h <;> rfl

/-- The row that a wire opcode names is the wire instruction with that opcode (30_encoding.md R75). -/
theorem frameOfOpcode_eq_some_iff : frameOfOpcode opcode f = some i ↔ IsWireFrame opcode f i := by
  constructor
  · intro h
    unfold frameOfOpcode at h
    split_ifs at h with h0 h1 h2 h8 h9 hA <;> cases h
    · exact .inl ⟨h0, rfl⟩
    · exact .inr (.inl ⟨h1, rfl⟩)
    · exact .inr (.inr (.inl ⟨h2, rfl⟩))
    · exact .inr (.inr (.inr (.inl ⟨h8, rfl⟩)))
    · exact .inr (.inr (.inr (.inr (.inl ⟨h9, rfl⟩))))
    · exact .inr (.inr (.inr (.inr (.inr ⟨hA, rfl⟩))))
  · intro h
    obtain ⟨rfl, rfl⟩ | ⟨rfl, rfl⟩ | ⟨rfl, rfl⟩ | ⟨rfl, rfl⟩ | ⟨rfl, rfl⟩ | ⟨rfl, rfl⟩ := h <;> rfl

/-- The opcodes of the wire instructions are the recognized ones (30_encoding.md R76). -/
theorem recognized_wireFrame (h : IsWireFrame opcode f i) : recognized opcode = true := by
  rw [← frameOfOpcode_isSome opcode f, frameOfOpcode_eq_some_iff.mpr h, Option.isSome_some]

end WireFrame

/-- The size ParseHeader reads is the number of header bytes (30_encoding.md R77). -/
theorem headerOf_hsize (opcode : BitVec 4) {f : FrameFields} (hf : f.wf = true) :
    (headerOf opcode f).hsize = (headerBytes opcode f).length :=
  (headerBytes_length opcode f hf).symm

/-- ParseHeader answers a header exactly when the list begins with the header bytes of a frame. -/
theorem parseHeader_eq_header_iff (bs : List Byte) (h : Header) : parseHeader bs = .header h ↔
    ∃ opcode f rest, f.wf = true ∧ bs = headerBytes opcode f ++ rest ∧ h = headerOf opcode f := by
  constructor
  · intro hp
    obtain ⟨n, hn, -⟩ | ⟨opcode, f, rest, hf, hbs, hh⟩ := parseHeader_cases bs
    · cases hp.symm.trans hn
    · exact ⟨opcode, f, rest, hf, hbs, ParseResult.header.inj (hp.symm.trans hh)⟩
  · rintro ⟨opcode, f, rest, hf, rfl, rfl⟩
    exact parseHeader_headerBytes opcode f hf rest

/-- The wire decoder answers an instruction exactly when the list begins with its header bytes. -/
theorem decodeFrame_eq_ok_iff (bs rest : List Byte) (i : Instr) : decodeFrame bs = .ok (i, rest) ↔
    ∃ opcode f, IsWireFrame opcode f i ∧ f.wf = true ∧ bs = headerBytes opcode f ++ rest := by
  constructor
  · intro h
    unfold decodeFrame at h
    split at h
    · cases h
    · rename_i hdr hp
      obtain ⟨opcode, f, rest', hf, rfl, rfl⟩ := (parseHeader_eq_header_iff _ _).mp hp
      split at h
      · rename_i j hj
        rw [headerOf_hsize opcode hf, List.drop_left] at h
        cases h
        rw [fields_headerOf opcode f hf] at hj
        exact ⟨opcode, f, frameOfOpcode_eq_some_iff.mp hj, hf, rfl⟩
      · cases h
  · rintro ⟨opcode, f, hi, hf, rfl⟩
    have hrow : frameOfOpcode (headerOf opcode f).opcode (headerOf opcode f).fields = some i := by
      rw [fields_headerOf opcode f hf]
      exact frameOfOpcode_eq_some_iff.mpr hi
    simp only [decodeFrame, parseHeader_headerBytes opcode f hf rest, hrow]
    rw [headerOf_hsize opcode hf, List.drop_left]

/-! ### The command words (30_encoding.md R85 to R87) -/

/-- A word names a command exactly when the command is encoded by that word, for its unit. -/
theorem decodeCommandWord_eq_ok_iff (w : Word) (i : Instr) :
    decodeCommandWord w = .ok i ↔ encode i = .command i.unit w := by
  constructor
  · have small : ∀ k < 32, ∀ i ∈ (decodeCommandWord (BitVec.ofNat 32 k)).toOption,
        encode i = .command i.unit (BitVec.ofNat 32 k) := by decide
    intro h
    have hlt : w.toNat < 32 := by
      by_contra hge
      rw [decodeCommandWord_of_ge (Nat.le_of_not_lt hge)] at h
      cases h
    have hw := small w.toNat hlt
    rw [BitVec.ofNat_toNat, BitVec.setWidth_eq, h] at hw
    exact hw i rfl
  · intro h
    cases i <;> cases h <;> rfl

/-- A word written to a unit starts a command exactly when the command is encoded by that word for that unit. -/
theorem decodeCommand_eq_ok_iff_encode (u : UnitId) (w : Word) (i : Instr) :
    decodeCommand u w = .ok i ↔ encode i = .command u w := by
  rw [decodeCommand_eq_ok_iff, decodeCommandWord_eq_ok_iff]
  constructor
  · rintro ⟨h, rfl⟩
    exact h
  · intro h
    cases i <;> cases h <;> exact ⟨rfl, rfl⟩

/-! ### The round trips -/

/-- Settles O3: the two decoders answer what is encoded, and a header's own bytes leave no rest. -/
theorem decodeEncodeRoundTrip : Obligations.DecodeEncodeRoundTrip := by
  intro i hwf
  cases he : encode i with
  | command u w => exact (decodeCommand_eq_ok_iff_encode u w i).mpr he
  | wire bs =>
    obtain ⟨opcode, f, hi, hf, rfl⟩ := encode_wire he hwf
    have hd : decodeFrame (headerBytes opcode f) = .ok (i, []) :=
      (decodeFrame_eq_ok_iff _ _ _).mpr ⟨opcode, f, hi, hf, (List.append_nil _).symm⟩
    simp only [decode, hd]

/-- Settles O5: a client header is the header bytes of a masked frame with the shortest length form, which ParseHeader
reads. -/
theorem parseHeaderReadsEncodeHeader : Obligations.ParseHeaderReadsEncodeHeader := by
  intro fin rsv opcode len key rest hlen
  have hf : FrameFields.wf { fin := fin, rsv := rsv, len := shortestLen len, key := some key } = true :=
    shortestLen_wf len
  rw [encodeHeader_eq_headerBytes, parseHeader_headerBytes opcode _ hf rest, headerOf, shortestLen_value (by omega),
    extBytes_length _ (shortestLen_wf len), show 6 = 2 + 4 from rfl, Nat.add_right_comm 2 4]
  rfl

/-- Settles O1: the seven commands are the instructions encoded by a command word. -/
theorem commandWordsAreExactlyTheTable : Obligations.CommandWordsAreExactlyTheTable := by
  intro u w i
  rw [decodeCommand_eq_ok_iff_encode]
  cases i <;> simp [encode, eq_comm]

/-- Settles O4: what the wire decoder answers is a wire instruction whose header bytes it read. -/
theorem decodedHeaderReencodes : Obligations.DecodedHeaderReencodes := by
  intro bs rest i h
  obtain ⟨opcode, f, hi, hf, hbs⟩ := (decodeFrame_eq_ok_iff bs rest i).mp h
  exact ⟨(wf_wireFrame hi).trans hf, _, encode_wireFrame hi, hbs⟩

/-- LEN7 of the shortest length form, in the three tiers (30_encoding.md R74). -/
theorem shortestLen_len7Bits_toNat (len : Nat) :
    (shortestLen len).len7Bits.toNat = if len ≤ 125 then len else if len ≤ 65535 then 126 else 127 := by
  unfold shortestLen
  split
  · exact Nat.mod_eq_of_lt (by omega)
  · split <;> rfl

/-- The extended length bytes of the two longer forms hold the length (30_encoding.md R74). -/
theorem beValue_extBytes_shortestLen {len : Nat} (hmin : 125 < len) (hmax : len < 2 ^ 64) :
    beValue (shortestLen len).extBytes = len := by
  have hvalue := value_of_extBytes _ (shortestLen_wf len)
  have hext : extSize (shortestLen len).len7Bits ≠ 0 := by
    rw [← extBytes_length _ (shortestLen_wf len), extBytes_shortestLen_length, if_neg (by omega)]
    split <;> simp
  rwa [if_neg hext, shortestLen_value hmax] at hvalue

/-- Settles O6: the parts of EncodeHeader are its two first bytes, the extended length and the key, each by its
value. -/
theorem encodeHeaderLayout : Obligations.EncodeHeaderLayout := by
  intro fin rsv opcode len key hlen
  refine ⟨headerByte0 fin rsv opcode, headerByte1 true (shortestLen len).len7Bits, (shortestLen len).extBytes,
    beBytes 4 key.toNat, rfl, headerByte0_toNat fin rsv opcode, ?_, extBytes_shortestLen_length len,
    fun h => beValue_extBytes_shortestLen h (by omega), beBytes_length 4 _, beValue_beBytes_of_lt key.isLt, ?_⟩
  · rw [headerByte1_toNat, shortestLen_len7Bits_toNat, Bool.toNat_true, Nat.one_mul]
  · rw [encodeHeader_length, ← clientHeaderSize_eq]
    exact clientHeaderSize_cases len

/-- Settles O7: a header answered is that of the header bytes the list begins with, and the other answers are those of
an incomplete header. -/
theorem parseHeaderReadsOnlyTheHeader : Obligations.ParseHeaderReadsOnlyTheHeader := by
  refine fun bs => ⟨fun h hp => ?_, fun n hp => ?_⟩
  · obtain ⟨opcode, f, rest, hf, rfl, rfl⟩ := (parseHeader_eq_header_iff bs h).mp hp
    refine ⟨rfl, ?_, value_lt f.len, fun more => ?_⟩
    · rw [headerOf_hsize opcode hf, List.length_append]
      exact Nat.le_add_right _ _
    · rw [headerOf_hsize opcode hf, List.take_left]
      exact parseHeader_headerBytes opcode f hf more
  · obtain ⟨m, hm, hlt, hsizes⟩ | ⟨opcode, f, rest, -, -, hh⟩ := parseHeader_cases bs
    · cases hp.symm.trans hm
      exact ⟨hlt, hsizes⟩
    · cases hp.symm.trans hh

/-- Settles O2: the words and bytes are evaluated, and there are sixteen opcodes. -/
theorem wordsOfTheSpecDecode : Obligations.WordsOfTheSpecDecode := by
  exact ⟨rfl, rfl, rfl, by decide, by decide, by decide, by decide, by decide, by decide, by decide⟩

/-! ### Illegal words (30_encoding.md R87) -/

/-- The completion step of a word that names no command of its unit (40_frame_codec.md R100). -/
theorem step_illegal {s : State} {u : UnitId} {w : Word} {rest : List Input} (hf : s.faultRecord = [])
    (hin : s.inputs = .complete u :: rest) (hp : (s.status u).pending = some w) (hd : ∀ i, decodeCommand u w ≠ .ok i) :
    step s = .next (State.finish u .useIllegalCmd { s with inputs := rest }) := by
  rw [step_complete hf hin]
  have hp : (State.status u { s with inputs := rest }).pending = some w := by cases u <;> exact hp
  cases he : decodeCommand u w with
  | ok i => exact absurd he (hd i)
  | error e => exact completeUnit_illegal hp he

/-- Settles O41: none of the words that encode a command has one of the four marks of an illegal word. -/
theorem illegalWordChangesNothing : Obligations.IllegalWordChangesNothing := by
  intro s u w rest hillegal
  have hnone : ∀ i, decodeCommand u w ≠ .ok i := by
    intro i hi
    rw [decodeCommand_eq_ok_iff_encode] at hi
    cases i <;> cases hi <;> revert hillegal <;> decide
  refine ⟨hnone, fun hf hin hp => (step_illegal hf hin hp hnone).trans ?_⟩
  cases u <;> rfl

end Sys2Proof.Machine
end

section
/-! Proofs of the obligations of spec/30_encoding.md, part 2: the commands that receive a header and XOR_MASK. The
checks of DEC_HDR on a wire header are chains of conditions on its fields, and each way its rule ends is one record of
results. -/

namespace Sys2Proof.Machine

/-! ### DEC_HDR's checks of a wire header as chains of conditions (40_frame_codec.md R101) -/

/-- The checks on the first bytes of a wire header, whose opcode is always recognized. -/
theorem firstBytesError_ofFields (allow : BitVec 3) {opcode : BitVec 4} (f : FrameFields)
    (hop : recognized opcode = true) : firstBytesError allow (RxHdr.ofFields opcode f) =
      if f.rsv &&& ~~~allow ≠ 0#3 then some .protoRsv
      else if f.key.isSome = true then some .protoMasked
      else if isControl opcode = true ∧ f.fin = false then some .protoCtrlFrag
      else none := by
  simp only [firstBytesError, RxHdr.ofFields, hop, Bool.not_true, Bool.false_eq_true, if_false, Bool.and_eq_true,
    Bool.not_eq_true']

/-- A length of 2^63 or more is in the 64-bit form (30_encoding.md R73). -/
theorem extSize_of_value_ge {l : LenField} (h : 2 ^ 63 ≤ l.value) : extSize l.len7Bits = 8 := by
  by_contra hne
  exact absurd (lenField_value_lt hne) (Nat.not_lt.mpr h)

/-- The checks on the length of a wire header. -/
theorem lengthError_ofFields (maxLen : Nat) (opcode : BitVec 4) (f : FrameFields) :
    lengthError maxLen (RxHdr.ofFields opcode f) f.len.value =
      if 2 ^ 63 ≤ f.len.value then some .protoLen64
      else if isControl opcode = true ∧ 125 < f.len.value then some .protoCtrlLen
      else if maxLen < f.len.value then some .resTooLarge
      else none := by
  have h64 : extSize f.len.len7Bits = 8 ∧ 2 ^ 63 ≤ f.len.value ↔ 2 ^ 63 ≤ f.len.value :=
    ⟨And.right, fun h => ⟨extSize_of_value_ge h, h⟩⟩
  rw [lengthError]
  exact if_congr h64 rfl rfl

/-! ### The six wire instructions (log 10) -/

section WireFrame

variable {opcode : BitVec 4} {f : FrameFields} {s : State}

/-- RXU accepts a header that R82 and R83 allow, of an unmasked frame (40_frame_codec.md R101). -/
theorem receiveFrame_accepted (hwindow : s.rx.off.toNat + s.rx.len.toNat ≤ s.params.rxbufSize)
    (hlen : 2 + extSize f.len.len7Bits ≤ s.rx.len.toNat) (hrsv : f.rsv &&& ~~~s.rx.rsvAllow = 0#3)
    (hop : recognized opcode = true) (hkey : f.key = none)
    (hctl : isControl opcode = true → f.fin = true ∧ f.len.value ≤ 125) (h63 : f.len.value < 2 ^ 63)
    (hmax : f.len.value ≤ s.rx.maxLen) : receiveFrame opcode f s = .next (headerAccepted
      { opcode := opcode, rsv := f.rsv, fin := f.fin, len7 := f.len.len7Bits, mask := false, ctrl := isControl opcode }
      (2 + extSize f.len.len7Bits) f.len.value s) := by
  have hhdr : RxHdr.ofFields opcode f =
      { opcode := opcode, rsv := f.rsv, fin := f.fin, len7 := f.len.len7Bits, mask := false,
        ctrl := isControl opcode } := by
    rw [RxHdr.ofFields, hkey]
    rfl
  rw [receiveFrame, hhdr, ← finish_withAccepted]
  exact receiveHeader_ok ((rxWindowFits_iff s).mpr hwindow) (by omega) rfl
    ((firstBytesError_none_iff _ _).mpr ⟨hrsv, hop, rfl, fun h => (hctl h).1⟩) hlen rfl
    ((lengthError_none_iff _ _ _).mpr ⟨fun _ => h63, fun h => (hctl h).2, hmax⟩)

end WireFrame

/-- Settles O9: the window begins with the header bytes ParseHeader read, so DEC_HDR receives that frame. -/
theorem decHdrAcceptsLegalHeader : Obligations.DecHdrAcceptsLegalHeader := by
  intro s k bs h hwindow hk hr hp hrsv hop hmask hctl h63 hmax
  obtain ⟨opcode, f, rest, hf, rfl, rfl⟩ := (parseHeader_eq_header_iff bs h).mp hp
  have hkey : f.key = none := Option.isNone_iff_eq_none.mp (Option.isSome_eq_false_iff.mp hmask)
  have hlen := Memory.readRange_length _ _ _ _ hr
  rw [List.length_append, headerBytes_length opcode f hf] at hlen
  have hsize : (headerOf opcode f).hsize = 2 + extSize f.len.len7Bits := by rw [headerOf, hkey]; rfl
  rw [hsize]
  exact (execDecHdr_eq_receiveFrame hf hr).trans
    (receiveFrame_accepted hwindow (by omega) hrsv hop hkey hctl h63 hmax)

/-- Settles O10: what DEC_HDR reads of the window are the fields of the instruction. -/
theorem decHdrRunsTheWireFrame : Obligations.DecHdrRunsTheWireFrame := by
  intro i bs s hwf he hr
  obtain ⟨opcode, f, hi, hf, rfl⟩ := encode_wire he hwf
  rw [exec_wireFrame hi]
  exact execDecHdr_eq_receiveFrame hf (rest := []) (by rwa [List.append_nil])

/-- Settles O11: a wire instruction is the receiving of its header. -/
theorem wireFrameAccepted : Obligations.WireFrameAccepted := by
  intro opcode f i s hi hf hwindow hlen hrsv hkey hctl h63 hmax
  rw [exec_wireFrame hi]
  exact receiveFrame_accepted hwindow hlen hrsv (recognized_wireFrame hi) hkey hctl h63 hmax

/-- Settles O12: each branch is the first condition of DEC_HDR's rule that fails. -/
theorem wireFrameRefused : Obligations.WireFrameRefused := by
  intro opcode f i s hi hf report
  have hfirst := firstBytesError_ofFields s.rx.rsvAllow f (recognized_wireFrame hi)
  have hlength := lengthError_ofFields s.rx.maxLen opcode f
  have hreport {code : StatusCode} (h : receiveFrame opcode f s =
      .next ((s.headerRead (RxHdr.ofFields opcode f)).finish .rxu code)) : report code := (exec_wireFrame hi s).trans h
  rw [exec_wireFrame hi]
  split_ifs with hrange hshort hrsv hmask hfrag hneed h64 hctl
  · exact receiveHeader_useRange (Bool.eq_false_iff.mpr (by rw [Ne, rxWindowFits_iff]; omega))
  all_goals have hfit : s.rxWindowFits = true := (rxWindowFits_iff s).mpr (by omega)
  · exact receiveHeader_short hfit hshort
  all_goals have htwo : 2 ≤ s.rx.len.toNat := by omega
  · exact hreport (receiveHeader_firstBytes hfit htwo rfl (hfirst.trans (if_pos hrsv)))
  all_goals rw [if_neg hrsv] at hfirst
  · exact hreport (receiveHeader_firstBytes hfit htwo rfl (hfirst.trans (if_pos hmask)))
  all_goals rw [if_neg hmask] at hfirst
  · exact hreport (receiveHeader_firstBytes hfit htwo rfl (hfirst.trans (if_pos hfrag)))
  all_goals rw [if_neg hfrag] at hfirst
  · exact hreport (receiveHeader_needMore hfit htwo rfl hfirst hneed)
  all_goals have hext : 2 + extSize (RxHdr.ofFields opcode f).len7 ≤ s.rx.len.toNat := Nat.le_of_not_lt hneed
  · exact hreport (receiveHeader_length hfit htwo rfl hfirst hext rfl (hlength.trans (if_pos h64)))
  all_goals rw [if_neg h64] at hlength
  · exact hreport (receiveHeader_length hfit htwo rfl hfirst hext rfl (hlength.trans (if_pos hctl)))
  · intro hlarge
    rw [if_neg hctl] at hlength
    exact hreport (receiveHeader_length hfit htwo rfl hfirst hext rfl (hlength.trans (if_pos hlarge)))

/-! ### NEED_MORE (40_frame_codec.md R103) -/

section NeedMore

variable {s t : State}

/-- DEC_HDR finishes NEED_MORE where byte 0 or 1 is missing, with RX_NEED = 2, or where the extended length is, with
RX_NEED the size of the header it read. -/
theorem execDecHdr_needMore (hn : execDecHdr s = .next t) (hcode : t.rx.status.code = .needMore) :
    (s.rx.len.toNat < 2 ∧ t.rx.need = 2#32) ∨
    (2 ≤ s.rx.len.toNat ∧ ∃ h, s.readHdr = .ok h ∧ s.rx.len.toNat < 2 + extSize h.len7 ∧
      t.rx.need = BitVec.ofNat 32 (2 + extSize h.len7)) := by
  obtain ⟨-, rfl⟩ | ⟨-, hl, rfl⟩ | ⟨-, hl, h, hh, hread⟩ := receiveHeader_cases hn
  · cases hcode
  · exact .inl ⟨hl, rfl⟩
  · obtain ⟨code, he, rfl⟩ | ⟨-, hs, rfl⟩ | ⟨-, -, n, -, ⟨code, hc, rfl⟩ | ⟨-, rfl⟩⟩ := hread
    · obtain rfl : code = .needMore := hcode
      obtain h | h | h | h := firstBytesError_ne he <;> cases h
    · exact .inr ⟨hl, h, hh, hs, rfl⟩
    · obtain rfl : code = .needMore := hcode
      obtain h | h | h := lengthError_ne hc <;> cases h
    · cases hcode

/-- RX_NEED where the extended length is missing (30_encoding.md R77). -/
theorem need_of_missing_ext {n : Nat} {len7 : BitVec 7} (hn : 2 ≤ n) (hlt : n < 2 + extSize len7) :
    BitVec.ofNat 32 (2 + extSize len7) = 4#32 ∨ BitVec.ofNat 32 (2 + extSize len7) = 10#32 := by
  obtain ⟨e, -⟩ | ⟨e, -⟩ | ⟨e, -⟩ := extSize_cases len7 <;> rw [e] at hlt ⊢
  · omega
  · exact .inl rfl
  · exact .inr rfl

/-- DEC_HDR reads bytes 0 and 1 at RX_OFF and nothing else for RX_HDR. -/
theorem readHdr_congr {s' : State} (hoff : s'.rx.off = s.rx.off)
    (hbytes : ∀ k < 2, s'.rxbuf.read (s.rx.off.toNat + k) = s.rxbuf.read (s.rx.off.toNat + k)) :
    s'.readHdr = s.readHdr := by
  have h0 := hbytes 0 (by decide)
  have h1 := hbytes 1 (by decide)
  rw [Nat.add_zero] at h0
  simp only [State.readHdr, State.rxByte, hoff, h0, h1]

end NeedMore

/-- Settles O13: once bytes 0 and 1 are there, RX_NEED is the size of their header, and a window of that size misses no
byte of it. -/
theorem needMoreAtMostTwice : Obligations.NeedMoreAtMostTwice := by
  intro s t hn hcode
  obtain ⟨hlen, hneed⟩ | ⟨hlen, h, hh, hmiss, hneed⟩ := execDecHdr_needMore hn hcode
  · refine ⟨by rw [hneed]; exact hlen, .inl hneed, fun s' t' hoff hallow hbytes hsat hn' hcode' => ⟨hneed, ?_⟩⟩
    rw [hneed] at hsat
    obtain ⟨hlen', -⟩ | ⟨hlen', h', -, hmiss', hneed'⟩ := execDecHdr_needMore hn' hcode'
    · exact absurd hsat (Nat.not_le.mpr hlen')
    · rw [hneed']
      exact need_of_missing_ext hlen' hmiss'
  · have hvalue : t.rx.need.toNat = 2 + extSize h.len7 := by rw [hneed]; exact (headerSize_toNat h.len7).1
    refine ⟨by rw [hvalue]; exact hmiss, .inr (by rw [hneed]; exact need_of_missing_ext hlen hmiss),
      fun s' t' hoff hallow hbytes hsat hn' hcode' => ?_⟩
    rw [hvalue] at hsat
    obtain ⟨hlen', -⟩ | ⟨-, h', hh', hmiss', -⟩ := execDecHdr_needMore hn' hcode'
    · omega
    · rw [readHdr_congr hoff fun k hk => hbytes k (by omega), hh] at hh'
      cases hh'
      omega

/-! ### Frames -/

/-- Settles O14: both ends of DEC_HDR's rule are records that differ from the state in its results only. -/
theorem headerCommandsFrame : Obligations.HeaderCommandsFrame := by
  intro i s t hi hn
  obtain ⟨code, h, need, -, -, rfl⟩ | ⟨h, hs, n, rfl⟩ := exec_header_ends hi hn <;>
    exact ⟨⟨rfl, rfl, rfl, rfl, rfl, rfl, rfl, rfl, rfl, rfl, rfl⟩, rfl, ⟨rfl, rfl, rfl, rfl⟩, rfl, fun _ => rfl,
      fun _ => rfl, fun _ => rfl⟩

/-- XOR_MASK writes no register but TX_STATUS and draws no key (40_frame_codec.md R111). -/
theorem execXorMask_registers {s t : State} (hn : execXorMask s = .next t) :
    SameTxOperands s t ∧ t.tx.hsize = s.tx.hsize ∧ t.tx.keyOut = s.tx.keyOut ∧ t.tx.fsize = s.tx.fsize ∧
      t.draws = s.draws := by
  obtain ⟨-, rfl⟩ | ⟨-, bs, -, rfl⟩ := execXorMask_cases hn <;>
    exact ⟨⟨rfl, rfl, rfl, rfl, rfl, rfl, rfl⟩, rfl, rfl, rfl, rfl⟩

/-- XOR_MASK writes TXBUF only when it finishes OK, and only in the TX_LEN bytes from TX_DST
(40_frame_codec.md R111). -/
theorem execXorMask_txbuf_out {s t : State} (hn : execXorMask s = .next t) {a : Nat}
    (ha : t.tx.status.code ≠ .ok ∨ a < s.tx.dst.toNat ∨ s.tx.dst.toNat + s.tx.len.toNat ≤ a) :
    t.txbuf.read a = s.txbuf.read a := by
  obtain ⟨-, rfl⟩ | ⟨-, bs, hp, rfl⟩ := execXorMask_cases hn
  · rfl
  · have hlen := Memory.readRange_length _ _ _ _ ((txBytes_eq_ok_iff _ _ _ _).mp hp)
    have hout := ha.resolve_left (not_not.mpr rfl)
    exact Memory.read_writeRange_out _ _ _ _ (by rwa [maskBytes_length, hlen])

/-- Settles O24: TXU's frame, and the states XOR_MASK leaves. -/
theorem xorMaskFrame : Obligations.XorMaskFrame := by
  intro s t hn
  obtain ⟨hrxbuf, hsurroundings⟩ := exec_surroundings hn
  obtain ⟨hoperands, hhsize, hkeyOut, hfsize, hdraws⟩ := execXorMask_registers hn
  exact ⟨by rw [exec_txu_frame rfl hn], hoperands, hhsize, hkeyOut, hfsize, hsurroundings, hdraws,
    fun _ => by rw [hrxbuf], fun _ => by rw [exec_cbuf (by simp) hn], fun a => execXorMask_txbuf_out hn⟩

/-! ### Accepted and written frames (30_encoding.md R83) -/

section Legal

variable {s t : State}

/-- The header registers of `t` describe a frame that R83 allows under the configuration of `s`. -/
def ReportsLegalHeader (s t : State) : Prop :=
  recognized t.rx.hdr.opcode = true ∧ t.rx.hdr.rsv &&& ~~~s.rx.rsvAllow = 0#3 ∧
    (isControl t.rx.hdr.opcode = true → t.rx.hdr.fin = true ∧ t.rx.plen.toNat ≤ 125) ∧
    t.rx.hdr.mask = false ∧ t.rx.plen.toNat < 2 ^ 63 ∧ t.rx.plen.toNat ≤ s.rx.maxLen

/-- What DEC_HDR's rule accepts has passed every check, whatever it reads, if a length of 2^63 or more is read only in
the 64-bit form. -/
theorem receiveHeader_ok_legal {hdr : Except Fault RxHdr} {plen : RxHdr → Except Fault Nat}
    (hplen : ∀ h n, hdr = .ok h → plen h = .ok n → extSize h.len7 ≠ 8 → n < 2 ^ 63)
    (hn : receiveHeader hdr plen s = .next t) (hcode : t.rx.status.code = .ok) : ReportsLegalHeader s t := by
  obtain ⟨-, rfl⟩ | ⟨-, -, rfl⟩ | ⟨-, -, h, hh, hread⟩ := receiveHeader_cases hn
  · cases hcode
  · cases hcode
  · obtain ⟨code, he, rfl⟩ | ⟨-, -, rfl⟩ | ⟨hfirst, -, n, hp, ⟨code, hc, rfl⟩ | ⟨hlength, rfl⟩⟩ := hread
    · exact absurd hcode (firstBytesError_code he).2
    · cases hcode
    · exact absurd hcode (lengthError_code hc).2
    · obtain ⟨hrsv, hop, hmask, hfin⟩ := (firstBytesError_none_iff _ _).mp hfirst
      obtain ⟨h64, hctl, hmax⟩ := (lengthError_none_iff _ _ _).mp hlength
      have h63 : n < 2 ^ 63 := by
        by_cases h8 : extSize h.len7 = 8
        · exact h64 h8
        · exact hplen h n hh hp h8
      rw [finish_withAccepted]
      have hvalue : (BitVec.ofNat 64 n).toNat = n := Nat.mod_eq_of_lt (by omega)
      simp only [ReportsLegalHeader, headerAccepted, hvalue]
      exact ⟨hop, hrsv, fun h => ⟨hfin h, hctl h⟩, hmask, h63, hmax⟩

theorem exec_header_ok_legal {i : Instr} (hi : i = .decHdr ∨ ∃ opcode f, IsWireFrame opcode f i)
    (hn : exec i s = .next t) (hcode : t.rx.status.code = .ok) : ReportsLegalHeader s t := by
  obtain rfl | ⟨opcode, f, hw⟩ := hi
  · exact receiveHeader_ok_legal (fun _ _ _ => readPlen_lt) hn hcode
  · rw [exec_wireFrame hw] at hn
    refine receiveHeader_ok_legal (fun h n hh hp h8 => ?_) hn hcode
    cases hh
    cases hp
    exact lenField_value_lt h8

end Legal

/-- The first part of a range just written reads back. -/
theorem Memory.readRange_writeRange_append {α : Type} (m : Memory α) (i : Nat) (vs ws : List α) :
    (m.writeRange i (vs ++ ws)).readRange i vs.length = .ok vs := by
  have h := Memory.readRange_sub (Memory.readRange_writeRange m i (vs ++ ws)) (a := 0) (b := vs.length) (by simp)
  rwa [Nat.add_zero, List.drop_zero, List.take_left] at h

/-- The header of a written frame is what EncodeHeader answers for TX_CTL, TX_LEN and the key
(40_frame_codec.md R106). -/
theorem frameWritten_header (s : State) (key : Word) {payload : List Byte} (hlen : payload.length = s.tx.len.toNat) :
    (s.frameWritten key payload).txbuf.readRange s.tx.dst.toNat (s.frameWritten key payload).tx.hsize.toNat =
      .ok (encodeHeader s.tx.ctl.fin s.tx.ctl.rsv s.tx.ctl.opcode s.tx.len.toNat key) := by
  have hsize : (s.frameWritten key payload).tx.hsize.toNat =
      (encodeHeader s.tx.ctl.fin s.tx.ctl.rsv s.tx.ctl.opcode s.tx.len.toNat key).length := by
    rw [encodeHeader_length, ← clientHeaderSize_eq]
    obtain h | h | h := clientHeaderSize_cases s.tx.len.toNat <;> rw [frameWritten_tx, h] <;> rfl
  rw [hsize, frameWritten_txbuf, clientFrame, hlen]
  exact Memory.readRange_writeRange_append _ _ _ _

/-- Settles O15: an accepted header has passed DEC_HDR's checks, and a written one those of ENC_FRAME, whose fields
ParseHeader reads back. -/
theorem acceptedFramesAreLegal : Obligations.AcceptedFramesAreLegal := by
  refine ⟨fun i s t => exec_header_ok_legal, fun s t hn hcode => ?_⟩
  obtain ⟨-, rfl⟩ | ⟨-, code, he, rfl⟩ | ⟨-, hchecks, payload, hp, rfl⟩ := encodeFrame_cases hn
  · cases hcode
  · exact absurd hcode (encodeError_ne_ok he)
  · obtain ⟨hrsv, hop, hctl⟩ := (encodeError_none_iff _ _ _).mp hchecks
    have hlen := Memory.readRange_length _ _ _ _ ((txBytes_eq_ok_iff _ _ _ _).mp hp)
    have hparse := parseHeaderReadsEncodeHeader s.tx.ctl.fin s.tx.ctl.rsv s.tx.ctl.opcode s.tx.len.toNat
      (frameKey (drawKey s.draws) s.tx.len.toNat) [] (Nat.lt_trans s.tx.len.isLt (by decide))
    rw [List.append_nil] at hparse
    exact ⟨_, _, frameWritten_header s _ hlen, hparse, hop, hrsv, hctl, rfl⟩

end Sys2Proof.Machine
end

section
/-! Proofs of the obligations of spec/40_frame_codec.md. DEC_HDR's rule is one chain of checks on the header it read, a
written frame is a client header and the masked payload, and XOR_MASK replaces the bytes of its range by their masked
form. -/

namespace Sys2Proof.Machine

/-! ### ENC_FRAME (40_frame_codec.md R106, R107) -/

/-- ENC_FRAME finishes OK only by writing the frame of the payload it read. -/
theorem execEncFrame_ok {s t : State} (hn : execEncFrame s = .next t) (hcode : t.tx.status.code = .ok) :
    s.frameFits = true ∧ ∃ key payload, s.txbuf.readRange s.tx.src.toNat s.tx.len.toNat = .ok payload ∧
      t = s.frameWritten key payload := by
  obtain ⟨-, rfl⟩ | ⟨-, code, he, rfl⟩ | ⟨hfit, -, payload, hp, rfl⟩ := encodeFrame_cases hn
  · cases hcode
  · exact absurd hcode (encodeError_ne_ok he)
  · exact ⟨hfit, _, payload, (txBytes_eq_ok_iff _ _ _ _).mp hp, rfl⟩

/-- ParseHeader reads the fields of a client frame, and its payload length as the number of payload bytes. -/
theorem parseHeader_clientFrame (c : TxCtl) (key : Word) {payload : List Byte} (hlen : payload.length < 2 ^ 63) :
    parseHeader (clientFrame c key payload) = .header
      { fin := c.fin, rsv := c.rsv, opcode := c.opcode, mask := true, len7 := (shortestLen payload.length).len7Bits,
        plen := payload.length, key := key, hsize := clientHeaderSize payload.length } := by
  rw [clientFrame, parseHeaderReadsEncodeHeader _ _ _ _ _ _ hlen, extBytes_shortestLen_length, ← clientHeaderSize_eq]

/-- After the header of a client frame stands the masked payload. -/
theorem drop_clientFrame (c : TxCtl) (key : Word) (payload : List Byte) :
    (clientFrame c key payload).drop (clientHeaderSize payload.length) = maskBytes key 0 payload :=
  List.drop_left' (by rw [encodeHeader_length, clientHeaderSize_eq])

/-- A written frame reads back from TX_DST. -/
theorem readRange_frameWritten (s : State) (key : Word) {payload : List Byte} (hlen : payload.length = s.tx.len.toNat) :
    (s.frameWritten key payload).txbuf.readRange s.tx.dst.toNat
      (clientHeaderSize s.tx.len.toNat + s.tx.len.toNat) = .ok (clientFrame s.tx.ctl key payload) := by
  rw [← hlen, ← clientFrame_length s.tx.ctl key, frameWritten_txbuf]
  exact Memory.readRange_writeRange _ _ _

/-- The payload byte at index `i` of a written frame. -/
theorem read_frameWritten_payload (s : State) (key : Word) {payload : List Byte}
    (hlen : payload.length = s.tx.len.toNat) {i : Nat} (hi : i < s.tx.len.toNat) :
    (s.frameWritten key payload).txbuf.read (s.tx.dst.toNat + clientHeaderSize s.tx.len.toNat + i) =
      (maskBytes key 0 payload)[i]? := by
  rw [← hlen] at hi ⊢
  rw [frameWritten_txbuf, Nat.add_assoc, Memory.read_writeRange_in _ _ _ _ (by rw [clientFrame_length]; omega),
    ← List.getElem?_drop, drop_clientFrame]

/-- Settles O18: the frame written is read back whole; ParseHeader reads its header, and masking is its own inverse. -/
theorem encFrameParsesBack : Obligations.EncFrameParsesBack := by
  intro s t hn hcode
  obtain ⟨-, key, payload, hp, rfl⟩ := execEncFrame_ok hn hcode
  have hlen := Memory.readRange_length _ _ _ _ hp
  have hsmall : payload.length < 2 ^ 63 := by omega
  refine ⟨payload, _, hp, readRange_frameWritten s key hlen, ?_, ?_⟩
  · rw [parseHeader_clientFrame _ _ hsmall, hlen, frameWritten_tx]
  · rw [← hlen, drop_clientFrame, frameWritten_tx]
    have htwice := maskBytes_twice key 0 payload
    rw [maskBytes_eq_mapIdx] at htwice
    simpa only [Nat.zero_add] using htwice

/-! ### DEC_HDR (40_frame_codec.md R101) -/

/-- The checks on header bytes 0 and 1 as one chain of conditions. -/
theorem firstBytesError_eq (allow : BitVec 3) (h : RxHdr) : firstBytesError allow h =
    if h.rsv &&& ~~~allow ≠ 0#3 then some .protoRsv
    else if recognized h.opcode = false then some .protoOpcode
    else if h.mask = true then some .protoMasked
    else if isControl h.opcode = true ∧ h.fin = false then some .protoCtrlFrag
    else none := by
  simp only [firstBytesError, Bool.and_eq_true, Bool.not_eq_true']

section DecHdr

variable {s : State} {h : RxHdr}

theorem readHdr_eq_error_byte0 (h0 : s.rxbuf.read s.rx.off.toNat = none) :
    s.readHdr = .error (.uninitRead .rxbuf s.rx.off.toNat) := by
  simp only [State.readHdr, (rxByte_eq_error_iff _ _ _).mpr ⟨h0, rfl⟩]

theorem readHdr_eq_error_byte1 {b0 : Byte} (h0 : s.rxbuf.read s.rx.off.toNat = some b0)
    (h1 : s.rxbuf.read (s.rx.off.toNat + 1) = none) :
    s.readHdr = .error (.uninitRead .rxbuf (s.rx.off.toNat + 1)) := by
  simp only [State.readHdr, (rxByte_eq_ok_iff _ _ _).mpr h0, (rxByte_eq_error_iff _ _ _).mpr ⟨h1, rfl⟩]

/-- DEC_HDR's reading of the payload length fails at the first extended length byte never written. -/
theorem readPlen_eq_error {j : Nat} (hr : s.rxbuf.readRange (s.rx.off.toNat + 2) (extSize h.len7) = .error j) :
    s.readPlen h = .error (.uninitRead .rxbuf j) := by
  have hext : extSize h.len7 ≠ 0 := by
    intro hzero
    rw [hzero] at hr
    cases hr
  simp only [State.readPlen, if_neg hext, (rxBytes_eq_error_iff _ _ _ _).mpr ⟨j, hr, rfl⟩]

/-- The end of DEC_HDR's rule, for a header whose bytes 0 and 1 have passed and whose payload length is `n`. -/
theorem execDecHdr_length_checks {n : Nat} (hf : s.rxWindowFits = true) (hl : 2 ≤ s.rx.len.toNat)
    (hh : s.readHdr = .ok h) (he : firstBytesError s.rx.rsvAllow h = none) (hs : 2 + extSize h.len7 ≤ s.rx.len.toNat)
    (hp : s.readPlen h = .ok n) :
    let report := fun code => execDecHdr s = .next (headerReport code h (2 + extSize h.len7) s)
    if extSize h.len7 = 8 ∧ 2 ^ 63 ≤ n then report .protoLen64
    else if isControl h.opcode = true ∧ 125 < n then report .protoCtrlLen
    else if s.rx.maxLen < n then report .resTooLarge
    else execDecHdr s = .next (headerAccepted h (2 + extSize h.len7) n s) := by
  intro report
  have hreport {code : StatusCode} (hc : lengthError s.rx.maxLen h n = some code) : report code :=
    receiveHeader_length hf hl hh he hs hp hc
  split_ifs with h64 hctl hmax
  · exact hreport (if_pos h64)
  · exact hreport ((if_neg h64).trans (if_pos hctl))
  · exact hreport ((if_neg h64).trans ((if_neg hctl).trans (if_pos hmax)))
  · rw [← finish_withAccepted]
    exact receiveHeader_ok hf hl hh he hs hp ((if_neg h64).trans ((if_neg hctl).trans (if_neg hmax)))

/-- DEC_HDR's checks on bytes 0 and 1 and on the bytes available: each branch is the first check that fails, and `rest`
is what DEC_HDR does when all of them pass. -/
theorem execDecHdr_first_checks {rest : Prop} (hf : s.rxWindowFits = true) (hl : 2 ≤ s.rx.len.toNat)
    (hh : s.readHdr = .ok h)
    (hrest : firstBytesError s.rx.rsvAllow h = none → 2 + extSize h.len7 ≤ s.rx.len.toNat → rest) :
    let report := fun code => execDecHdr s = .next (headerReport code h (2 + extSize h.len7) s)
    if h.rsv &&& ~~~s.rx.rsvAllow ≠ 0#3 then report .protoRsv
    else if recognized h.opcode = false then report .protoOpcode
    else if h.mask = true then report .protoMasked
    else if isControl h.opcode = true ∧ h.fin = false then report .protoCtrlFrag
    else if s.rx.len.toNat < 2 + extSize h.len7 then report .needMore
    else rest := by
  intro report
  have hfirst := firstBytesError_eq s.rx.rsvAllow h
  have hreport {code : StatusCode} (he : firstBytesError s.rx.rsvAllow h = some code) : report code :=
    receiveHeader_firstBytes hf hl hh he
  split_ifs with hrsv hop hmask hfrag hneed
  · exact hreport (hfirst.trans (if_pos hrsv))
  all_goals rw [if_neg hrsv] at hfirst
  · exact hreport (hfirst.trans (if_pos hop))
  all_goals rw [if_neg hop] at hfirst
  · exact hreport (hfirst.trans (if_pos hmask))
  all_goals rw [if_neg hmask] at hfirst
  · exact hreport (hfirst.trans (if_pos hfrag))
  all_goals rw [if_neg hfrag] at hfirst
  · exact receiveHeader_needMore hf hl hh hfirst hneed
  · exact hrest hfirst (Nat.le_of_not_lt hneed)

end DecHdr

/-- Settles O8: the window, the two bytes and their written marks come first, then the checks on the header read. -/
theorem decHdrFollowsItsPseudocode : Obligations.DecHdrFollowsItsPseudocode := by
  refine ⟨rfl, fun s => ⟨fun hrange => ?_, fun hwindow hshort => ?_, fun hwindow htwo => ?_⟩⟩
  · exact receiveHeader_useRange (Bool.eq_false_iff.mpr (by rw [Ne, rxWindowFits_iff]; omega))
  · exact receiveHeader_short ((rxWindowFits_iff s).mpr hwindow) hshort
  · have hfit := (rxWindowFits_iff s).mpr hwindow
    refine ⟨fun h0 => receiveHeader_fault hfit htwo (readHdr_eq_error_byte0 h0),
      fun b0 h0 h1 => receiveHeader_fault hfit htwo (readHdr_eq_error_byte1 h0 h1),
      fun b0 b1 h0 h1 => ?_⟩
    have hhdr := readHdr_eq_ok h0 h1
    exact execDecHdr_first_checks hfit htwo hhdr fun hfirst hext =>
      ⟨fun j hr => receiveHeader_plenFault hfit htwo hhdr hfirst hext (readPlen_eq_error hr),
        fun ext hr => execDecHdr_length_checks hfit htwo hhdr hfirst hext (readPlen_eq_ok hr)⟩

/-! ### XOR_MASK (40_frame_codec.md R111 to R114) -/

/-- Range reads agree where every element of the range does. -/
theorem Memory.readRange_congr {α : Type} {m m' : Memory α} {i n : Nat}
    (h : ∀ k < n, m.read (i + k) = m'.read (i + k)) : m.readRange i n = m'.readRange i n := by
  induction n generalizing i with
  | zero => rfl
  | succ n ih =>
    have hrest : m.readRange (i + 1) n = m'.readRange (i + 1) n :=
      ih fun k hk => by rw [Nat.add_assoc, Nat.add_comm 1 k]; exact h (k + 1) (by omega)
    rw [Memory.readRange_succ, Memory.readRange_succ, hrest, show m.read i = m'.read i from h 0 (by omega)]

/-- A range read in one is read in two pieces. -/
theorem Memory.readRange_pieces {α : Type} {m : Memory α} {i a b : Nat} {vs : List α}
    (h : m.readRange i (a + b) = .ok vs) :
    m.readRange i a = .ok (vs.take a) ∧ m.readRange (i + a) b = .ok (vs.drop a) := by
  have hl := Memory.readRange_length _ _ _ _ h
  have hfirst := Memory.readRange_sub h (a := 0) (b := a) (by omega)
  have hsecond := Memory.readRange_sub h (a := a) (b := b) (Nat.le_refl _)
  rw [Nat.add_zero, List.drop_zero] at hfirst
  rw [List.take_of_length_le (by rw [List.length_drop]; omega)] at hsecond
  exact ⟨hfirst, hsecond⟩

/-- Masking two adjacent ranges in turn, the second at the phase where the first ended, writes what masking the whole
range does. -/
theorem writeRange_maskBytes_pieces {m : Memory Byte} {key : Word} {dst ph ph' a b : Nat} {whole as bs : List Byte}
    (hwhole : m.readRange dst (a + b) = .ok whole) (has : m.readRange dst a = .ok as)
    (hbs : (m.writeRange dst (maskBytes key ph as)).readRange (dst + a) b = .ok bs) (hph : ph' % 4 = (ph + a) % 4) :
    (m.writeRange dst (maskBytes key ph as)).writeRange (dst + a) (maskBytes key ph' bs) =
      m.writeRange dst (maskBytes key ph whole) := by
  obtain ⟨hfirst, hsecond⟩ := Memory.readRange_pieces hwhole
  have hlen := Memory.readRange_length _ _ _ _ has
  have hafter : ∀ k < b, (m.writeRange dst (maskBytes key ph as)).read (dst + a + k) = m.read (dst + a + k) :=
    fun k _ => Memory.read_writeRange_out _ _ _ _ (by rw [maskBytes_length, hlen]; omega)
  obtain rfl : as = whole.take a := Except.ok.inj (has.symm.trans hfirst)
  obtain rfl : bs = whole.drop a := Except.ok.inj (hbs.symm.trans ((Memory.readRange_congr hafter).trans hsecond))
  calc (m.writeRange dst (maskBytes key ph (whole.take a))).writeRange (dst + a) (maskBytes key ph' (whole.drop a))
    _ = m.writeRange dst (maskBytes key ph (whole.take a) ++ maskBytes key (ph + a) (whole.drop a)) := by
      rw [Memory.writeRange_append, maskBytes_length, hlen, maskBytes_phase_mod key ph' _ _ hph]
    _ = m.writeRange dst (maskBytes key ph (whole.take a ++ whole.drop a)) := by rw [maskBytes_append, hlen]
    _ = m.writeRange dst (maskBytes key ph whole) := by rw [List.take_append_drop]

section XorMask

variable {s t : State} {bs : List Byte}

/-- XOR_MASK on a range that fits and whose bytes are written. -/
theorem execXorMask_of_readRange (hfit : s.tx.dst.toNat + s.tx.len.toNat ≤ s.params.txbufSize)
    (hr : s.txbuf.readRange s.tx.dst.toNat s.tx.len.toNat = .ok bs) : execXorMask s = .next (s.masked bs) :=
  execXorMask_ok ((maskFits_iff s).mpr hfit) ((txBytes_eq_ok_iff _ _ _ _).mpr hr)

/-- XOR_MASK completes on a range that fits only if its bytes are written, and masks them. -/
theorem execXorMask_fits {dst len : Nat} (hn : execXorMask s = .next t) (hdst : s.tx.dst.toNat = dst)
    (hlen : s.tx.len.toNat = len) (hfit : dst + len ≤ s.params.txbufSize) :
    ∃ bs, s.txbuf.readRange dst len = .ok bs ∧ t = s.masked bs := by
  subst hdst hlen
  obtain ⟨hf, -⟩ | ⟨-, bs, hp, ht⟩ := execXorMask_cases hn
  · exact absurd ((maskFits_iff s).mpr hfit) (Bool.eq_false_iff.mp hf)
  · exact ⟨bs, (txBytes_eq_ok_iff _ _ _ _).mp hp, ht⟩

/-- A byte of the masked range. -/
theorem read_masked_in (s : State) {i : Nat} (hi : i < bs.length) :
    (s.masked bs).txbuf.read (s.tx.dst.toNat + i) = (maskBytes s.tx.key s.tx.phase.toNat bs)[i]? := by
  rw [masked_txbuf]
  exact Memory.read_writeRange_in _ _ _ _ (by rwa [maskBytes_length])

/-- The masked range reads back whole. -/
theorem readRange_masked (s : State) (hlen : bs.length = s.tx.len.toNat) :
    (s.masked bs).txbuf.readRange s.tx.dst.toNat s.tx.len.toNat = .ok (maskBytes s.tx.key s.tx.phase.toNat bs) := by
  rw [masked_txbuf, ← hlen, ← maskBytes_length s.tx.key s.tx.phase.toNat bs]
  exact Memory.readRange_writeRange _ _ _

end XorMask

/-- Settles O21: the range check, the reading of the range and its masked bytes. -/
theorem xorMaskMasksEachByte : Obligations.XorMaskMasksEachByte := by
  refine ⟨rfl, fun s => ⟨fun hrange => ?_, fun hfit => ⟨fun j hj => ?_, fun hwritten => ?_⟩⟩⟩
  · exact execXorMask_useRange (Bool.eq_false_iff.mpr (by rw [Ne, maskFits_iff]; omega))
  · exact execXorMask_fault ((maskFits_iff s).mpr hfit) ((txBytes_eq_error_iff _ _ _ _).mpr ⟨j, hj, rfl⟩)
  · obtain ⟨bs, hr⟩ := Memory.readRange_total _ _ _ hwritten
    obtain ⟨hlen, hbytes⟩ := (Memory.readRange_eq_ok_iff _ _ _ _).mp hr
    have hn := execXorMask_of_readRange hfit hr
    refine ⟨(s.masked bs).txbuf, hn, fun i hi b hb => ?_, fun a ha => execXorMask_txbuf_out hn (.inr ha)⟩
    rw [read_masked_in s (by omega), maskBytes_getElem?, ← hbytes i hi, hb, Option.map_some]

/-- Settles O22: the second command reads the masked bytes, and masking is its own inverse. -/
theorem xorMaskIsInvolutive : Obligations.XorMaskIsInvolutive := by
  intro s t u hn hparams hdst hlen hkey hphase hsame
  obtain ⟨hf, rfl⟩ | ⟨hf, bs, hp, rfl⟩ := execXorMask_cases hn
  · have hfu : u.maskFits = false := by rwa [State.maskFits, hdst, hlen, hparams]
    exact ⟨_, execXorMask_useRange hfu, hsame⟩
  · obtain ⟨hl, hbytes⟩ := (Memory.readRange_eq_ok_iff _ _ _ _).mp ((txBytes_eq_ok_iff _ _ _ _).mp hp)
    have hfu : u.tx.dst.toNat + u.tx.len.toNat ≤ u.params.txbufSize := by
      rw [hdst, hlen, hparams]
      exact (maskFits_iff s).mp hf
    have hr : u.txbuf.readRange u.tx.dst.toNat u.tx.len.toNat =
        .ok (maskBytes s.tx.key s.tx.phase.toNat bs) := by
      rw [hdst, hlen, Memory.readRange_congr hsame, readRange_masked s hl]
    refine ⟨_, execXorMask_of_readRange hfu hr, fun i hi => ?_⟩
    rw [← hdst, read_masked_in u (by rw [maskBytes_length]; omega), hkey, hphase, maskBytes_twice, hdst, hbytes i hi]

/-- Settles O23: the three commands mask the bytes they read, at TX_DST and TX_LEN as given, and a lane's bytes are the
masked list's. -/
theorem xorMaskChunksAndLanes : Obligations.XorMaskChunksAndLanes := by
  refine ⟨fun s t u v n m hfit hok ht hu hv a => ?_, fun key ph bs i j b hj hb => ?_⟩
  · obtain ⟨-, ⟨-, hsize⟩, -⟩ := hok
    have toNat_ofNat {k : Nat} (hk : k ≤ s.params.txbufSize) : (BitVec.ofNat 32 k).toNat = k :=
      Nat.mod_eq_of_lt (by omega)
    obtain ⟨whole, hwhole, rfl⟩ := execXorMask_fits hv rfl (toNat_ofNat (by omega)) hfit
    obtain ⟨as, has, rfl⟩ := execXorMask_fits ht rfl (toNat_ofNat (k := n) (by omega))
      (show s.tx.dst.toNat + n ≤ s.params.txbufSize by omega)
    obtain ⟨bs, hbs, rfl⟩ := execXorMask_fits hu (toNat_ofNat (k := s.tx.dst.toNat + n) (by omega))
      (toNat_ofNat (k := m) (by omega)) (show s.tx.dst.toNat + n + m ≤ s.params.txbufSize by omega)
    have hphase : (BitVec.ofNat 2 ((s.tx.phase.toNat + n) % 4)).toNat % 4 = (s.tx.phase.toNat + n) % 4 := by
      rw [BitVec.toNat_ofNat]
      omega
    rw [masked_txbuf, toNat_ofNat (k := s.tx.dst.toNat + n) (by omega)]
    exact congrArg (Memory.read · a) (writeRange_maskBytes_pieces hwhole has hbs hphase)
  · have hmask : (maskBytes key ph bs)[i + j]? = some (b ^^^ keyByte key ((ph + i + j) % 4)) := by
      rw [maskBytes_getElem?, hb, Option.map_some, Nat.add_assoc]
    refine ⟨hmask, fun hlane => ⟨keyByte key j, beBytes_getElem?_keyByte key j hj, ?_⟩⟩
    rw [hmask, show (ph + i + j) % 4 = j by omega]

/-- The state of R114 before XOR_MASK: the payload stands at TX_DST + H, and TX_DST, TX_KEY and TX_PHASE are that place,
the key and phase 0. -/
def State.payloadCopied (key : Word) (payload : List Byte) (s : State) : State :=
  { s with
    txbuf := s.txbuf.writeRange (s.tx.dst.toNat + clientHeaderSize s.tx.len.toNat) payload
    tx := { s.tx with dst := BitVec.ofNat 32 (s.tx.dst.toNat + clientHeaderSize s.tx.len.toNat),
                      key := key, phase := 0#2 } }

section PayloadCopied

variable {s : State} {key : Word} {payload : List Byte}

theorem payloadCopied_dst_toNat
    (hfit : s.tx.dst.toNat + clientHeaderSize s.tx.len.toNat + s.tx.len.toNat ≤ s.params.txbufSize)
    (hsize : s.params.txbufSize ≤ 2 ^ 28) :
    (s.payloadCopied key payload).tx.dst.toNat = s.tx.dst.toNat + clientHeaderSize s.tx.len.toNat :=
  Nat.mod_eq_of_lt (by omega)

/-- XOR_MASK masks the copied payload. -/
theorem execXorMask_payloadCopied
    (hfit : s.tx.dst.toNat + clientHeaderSize s.tx.len.toNat + s.tx.len.toNat ≤ s.params.txbufSize)
    (hsize : s.params.txbufSize ≤ 2 ^ 28) (hlen : payload.length = s.tx.len.toNat) :
    execXorMask (s.payloadCopied key payload) = .next ((s.payloadCopied key payload).masked payload) := by
  have hdst := payloadCopied_dst_toNat (key := key) (payload := payload) hfit hsize
  refine execXorMask_of_readRange (by rw [hdst]; exact hfit) ?_
  have hr := Memory.readRange_writeRange s.txbuf (s.tx.dst.toNat + clientHeaderSize s.tx.len.toNat) payload
  rw [hlen] at hr
  rw [hdst]
  exact hr

end PayloadCopied

/-- Settles O20: both commands leave the payload masked from phase 0. -/
theorem encFrameMasksLikeXorMask : Obligations.EncFrameMasksLikeXorMask := by
  intro s t payload hok hn hcode hp
  obtain ⟨hframe, key, payload', hp', rfl⟩ := execEncFrame_ok hn hcode
  obtain rfl : payload' = payload := Except.ok.inj (hp'.symm.trans hp)
  have hlen := Memory.readRange_length _ _ _ _ hp
  obtain ⟨-, hfit⟩ := (frameFits_iff s).mp hframe
  obtain ⟨-, ⟨-, hsize⟩, -⟩ := hok
  refine ⟨(s.payloadCopied key payload').masked payload', execXorMask_payloadCopied hfit hsize hlen, rfl,
    fun i hi => ?_⟩
  rw [read_frameWritten_payload s key hlen hi, ← payloadCopied_dst_toNat hfit hsize, read_masked_in _ (by omega)]
  rfl

end Sys2Proof.Machine
end

section
/-! Proofs of the obligations of spec/41_utf8_validator.md, part 1: single characters. The fold over the bytes of one
sequence, once for each length, ends in the check of R131 on the codepoint the bytes spell; the classes of leading bytes
and the decoding of every scalar value are read off it. -/

namespace Sys2Proof.Machine

/-! ### Leading bytes (R133) -/

section Lead

variable {b : Byte} {strict : Bool}

/-- The empty state expects a leading byte. -/
theorem utf8Step_empty : utf8Step Utf8State.empty b strict = utf8Lead b := rfl

theorem utf8Step_single (h : b.toNat ≤ 0x7F) :
    utf8Step Utf8State.empty b strict = .emit [b.setWidth 16] Utf8State.empty := by
  rw [utf8Step_empty, utf8Lead_table, if_pos h]

theorem utf8Step_continuationAsLead (h : 0x80 ≤ b.toNat) (h' : b.toNat ≤ 0xBF) :
    utf8Step Utf8State.empty b strict = .err .utfBadLead := by
  rw [utf8Step_empty, utf8Lead_table, if_neg (by omega), if_pos h']

theorem utf8Step_leadOfTwo (h : 0xC0 ≤ b.toNat) (h' : b.toNat ≤ 0xDF) : utf8Step Utf8State.empty b strict =
    .pend { cp := BitVec.ofNat 21 (b.toNat % 32), rem := 1#2, seqLen := 2#3 } := by
  rw [utf8Step_empty, utf8Lead_table, if_neg (by omega), if_neg (by omega), if_pos h']

theorem utf8Step_leadOfThree (h : 0xE0 ≤ b.toNat) (h' : b.toNat ≤ 0xEF) : utf8Step Utf8State.empty b strict =
    .pend { cp := BitVec.ofNat 21 (b.toNat % 16), rem := 2#2, seqLen := 3#3 } := by
  rw [utf8Step_empty, utf8Lead_table, if_neg (by omega), if_neg (by omega), if_neg (by omega), if_pos h']

theorem utf8Step_leadOfFour (h : 0xF0 ≤ b.toNat) (h' : b.toNat ≤ 0xF7) : utf8Step Utf8State.empty b strict =
    .pend { cp := BitVec.ofNat 21 (b.toNat % 8), rem := 3#2, seqLen := 4#3 } := by
  rw [utf8Step_empty, utf8Lead_table, if_neg (by omega), if_neg (by omega), if_neg (by omega), if_neg (by omega),
    if_pos h']

theorem utf8Step_invalidLead (h : 0xF8 ≤ b.toNat) : utf8Step Utf8State.empty b strict = .err .utfBadLead := by
  rw [utf8Step_empty, utf8Lead_table, if_neg (by omega), if_neg (by omega), if_neg (by omega), if_neg (by omega),
    if_neg (by omega)]

end Lead

/-! ### Whole sequences (R130, R131) -/

/-- How a sequence of `sl` bytes that spells the codepoint `cp` ends at its last byte, of index `i`: the check of R131
lets its code units through, or refuses it. -/
def sequenceEnd (strict : Bool) (cp sl i : Nat) : FoldResult :=
  if validCodepoint cp sl strict then { units := codeUnits cp, utf := Utf8State.empty, error := none }
  else { units := [], utf := Utf8State.empty, error := some (i, .utfBadCp) }

section Sequence

variable {strict : Bool} {b c1 c2 c3 c : Byte}

/-- A continuation byte that is not the last appends its six payload bits to CP. -/
theorem utf8Fold_continue {cp i : Nat} {rem : BitVec 2} {seqLen : BitVec 3} {bs : List Byte} (hc : IsContinuation c)
    (hcp : cp < 2 ^ 21) (hrem : 1#2 < rem) :
    utf8Fold strict (c :: bs) i [] { cp := BitVec.ofNat 21 cp, rem := rem, seqLen := seqLen } =
      utf8Fold strict bs (i + 1) []
        { cp := BitVec.ofNat 21 (cp * 64 + (c.toNat - 128)), rem := rem - 1#2, seqLen := seqLen } := by
  have hr : rem ≠ 0#2 := by
    rintro rfl
    simp at hrem
  rw [utf8Fold_cons, utf8Step_continuation _ _ _ _ _ hc hr, if_pos hrem, BitVec.toNat_ofNat, Nat.mod_eq_of_lt hcp]

/-- The last continuation byte completes the sequence. -/
theorem utf8Fold_complete {cp i : Nat} {seqLen : BitVec 3} (hc : IsContinuation c) (hcp : cp < 2 ^ 21) :
    utf8Fold strict [c] i [] { cp := BitVec.ofNat 21 cp, rem := 1#2, seqLen := seqLen } =
      sequenceEnd strict (cp * 64 + (c.toNat - 128)) seqLen.toNat i := by
  rw [utf8Fold_cons, utf8Step_continuation _ _ _ _ _ hc (by decide), if_neg (by decide), BitVec.toNat_ofNat,
    Nat.mod_eq_of_lt hcp, sequenceEnd]
  cases validCodepoint (cp * 64 + (c.toNat - 128)) seqLen.toNat strict <;> simp

theorem utf8Fold_single (h : b.toNat ≤ 0x7F) : utf8Fold strict [b] 0 [] Utf8State.empty =
    { units := [b.setWidth 16], utf := Utf8State.empty, error := none } := by
  rw [utf8Fold_cons, utf8Step_single h]
  rfl

theorem utf8Fold_two (h : 0xC0 ≤ b.toNat) (h' : b.toNat ≤ 0xDF) (h1 : IsContinuation c1) :
    utf8Fold strict [b, c1] 0 [] Utf8State.empty = sequenceEnd strict (b.toNat % 32 * 64 + (c1.toNat - 128)) 2 1 := by
  rw [utf8Fold_cons, utf8Step_leadOfTwo h h']
  exact utf8Fold_complete h1 (by omega)

theorem utf8Fold_three (h : 0xE0 ≤ b.toNat) (h' : b.toNat ≤ 0xEF) (h1 : IsContinuation c1) (h2 : IsContinuation c2) :
    utf8Fold strict [b, c1, c2] 0 [] Utf8State.empty =
      sequenceEnd strict ((b.toNat % 16 * 64 + (c1.toNat - 128)) * 64 + (c2.toNat - 128)) 3 2 := by
  have hb1 := h1.2
  rw [utf8Fold_cons, utf8Step_leadOfThree h h']
  exact (utf8Fold_continue h1 (by omega) (by decide)).trans (utf8Fold_complete h2 (by omega))

theorem utf8Fold_four (h : 0xF0 ≤ b.toNat) (h' : b.toNat ≤ 0xF7) (h1 : IsContinuation c1) (h2 : IsContinuation c2)
    (h3 : IsContinuation c3) : utf8Fold strict [b, c1, c2, c3] 0 [] Utf8State.empty =
      sequenceEnd strict (((b.toNat % 8 * 64 + (c1.toNat - 128)) * 64 + (c2.toNat - 128)) * 64 + (c3.toNat - 128)) 4 3 := by
  have hb1 := h1.2
  have hb2 := h2.2
  rw [utf8Fold_cons, utf8Step_leadOfFour h h']
  exact (utf8Fold_continue h1 (by omega) (by decide)).trans
    ((utf8Fold_continue h2 (by omega) (by decide)).trans (utf8Fold_complete h3 (by omega)))

end Sequence

/-- What the check of a completed sequence lets through (41_utf8_validator.md R131). -/
theorem validCodepoint_iff (cp sl : Nat) (strict : Bool) : validCodepoint cp sl strict = true ↔
    cp ≤ 0x10FFFF ∧ (strict = true → ¬ (sl = 2 ∧ cp < 0x80) ∧ ¬ (sl = 3 ∧ cp < 0x800) ∧
      ¬ (sl = 3 ∧ 0xD800 ≤ cp ∧ cp ≤ 0xDFFF) ∧ ¬ (sl = 4 ∧ cp < 0x10000)) := by
  cases strict
  · simp [validCodepoint]
  · simp only [validCodepoint, Bool.not_true, Bool.false_eq_true, if_false]
    split_ifs <;> simp <;> omega

theorem sequenceEnd_valid {strict : Bool} {cp sl : Nat} (i : Nat) (h : validCodepoint cp sl strict = true) :
    sequenceEnd strict cp sl i = { units := codeUnits cp, utf := Utf8State.empty, error := none } := if_pos h

theorem sequenceEnd_invalid {strict : Bool} {cp sl : Nat} (i : Nat) (h : ¬ validCodepoint cp sl strict = true) :
    sequenceEnd strict cp sl i = { units := [], utf := Utf8State.empty, error := some (i, .utfBadCp) } := if_neg h

/-- Settles O26: the step on each class of leading bytes; a sequence of the classes that R133 marks spells a codepoint
that the check of R131 refuses. -/
theorem leadingByteClasses : Obligations.LeadingByteClasses := by
  refine fun b strict => ⟨utf8Step_single, utf8Step_continuationAsLead, utf8Step_leadOfTwo, utf8Step_leadOfThree,
    utf8Step_leadOfFour, utf8Step_invalidLead, fun c1 h1 hb hb' => ?_, fun c1 c2 h1 h2 hb => ?_,
    fun c1 c2 c3 h1 h2 h3 => ⟨fun hb => ?_, fun hb => ?_⟩⟩
  · have ⟨hlow, hhigh⟩ := h1
    refine (utf8Fold_two hb (by omega) h1).trans (sequenceEnd_invalid 1 ?_)
    rw [validCodepoint_iff, forall_prop_of_true rfl]
    omega
  · have ⟨hlow1, hhigh1⟩ := h1
    have ⟨hlow2, hhigh2⟩ := h2
    refine (utf8Fold_three (by omega) (by omega) h1 h2).trans (sequenceEnd_invalid 2 ?_)
    rw [validCodepoint_iff, forall_prop_of_true rfl]
    omega
  · have ⟨hlow1, hhigh1⟩ := h1
    have ⟨hlow2, hhigh2⟩ := h2
    have ⟨hlow3, hhigh3⟩ := h3
    refine (utf8Fold_four (by omega) (by omega) h1 h2 h3).trans (sequenceEnd_invalid 3 ?_)
    rw [validCodepoint_iff, forall_prop_of_true rfl]
    omega
  · have ⟨hlow1, hhigh1⟩ := h1
    refine (utf8Fold_four (by omega) (by omega) h1 h2 h3).trans (sequenceEnd_invalid 3 ?_)
    rw [validCodepoint_iff]
    omega

/-! ### Scalar values -/

/-- The bytes of a codepoint's sequence decode to its code units where the check of R131 lets it through: an ASCII byte
is its code unit, and a longer sequence spells the codepoint. -/
theorem utf8Fold_utf8Bytes {c : Nat} (strict : Bool) (hmax : c ≤ 0x10FFFF) (hsurrogate : ¬ (0xD800 ≤ c ∧ c ≤ 0xDFFF)) :
    utf8Fold strict (utf8Bytes c) 0 [] Utf8State.empty =
      { units := codeUnits c, utf := Utf8State.empty, error := none } := by
  have toNat_byte {n : Nat} (h : n < 256) : (BitVec.ofNat 8 n).toNat = n := Nat.mod_eq_of_lt h
  have continuation (n : Nat) : (BitVec.ofNat 8 (0x80 + n % 64)).toNat = 0x80 + n % 64 := toNat_byte (by omega)
  have isContinuation (n : Nat) : IsContinuation (BitVec.ofNat 8 (0x80 + n % 64)) := by
    rw [IsContinuation, continuation]
    omega
  unfold utf8Bytes
  split_ifs with h1 h2 h3
  · have hb := toNat_byte (n := c) (by omega)
    rw [utf8Fold_single (by omega), codeUnits, if_pos (by omega)]
    congr 2
    apply BitVec.eq_of_toNat_eq
    rw [BitVec.toNat_setWidth, hb, BitVec.toNat_ofNat]
  · have hb := toNat_byte (n := 0xC0 + c / 64) (by omega)
    rw [utf8Fold_two (by omega) (by omega) (isContinuation _), hb, continuation,
      show (0xC0 + c / 64) % 32 * 64 + (0x80 + c % 64 - 128) = c by omega]
    exact sequenceEnd_valid 1 ((validCodepoint_iff _ _ _).mpr (by omega))
  · have hb := toNat_byte (n := 0xE0 + c / 4096) (by omega)
    rw [utf8Fold_three (by omega) (by omega) (isContinuation _) (isContinuation _), hb, continuation, continuation,
      show ((0xE0 + c / 4096) % 16 * 64 + (0x80 + c / 64 % 64 - 128)) * 64 + (0x80 + c % 64 - 128) = c by omega]
    exact sequenceEnd_valid 2 ((validCodepoint_iff _ _ _).mpr (by omega))
  · have hb := toNat_byte (n := 0xF0 + c / 262144) (by omega)
    rw [utf8Fold_four (by omega) (by omega) (isContinuation _) (isContinuation _) (isContinuation _), hb, continuation,
      continuation, continuation,
      show (((0xF0 + c / 262144) % 8 * 64 + (0x80 + c / 4096 % 64 - 128)) * 64 + (0x80 + c / 64 % 64 - 128)) * 64 +
        (0x80 + c % 64 - 128) = c by omega]
    exact sequenceEnd_valid 3 ((validCodepoint_iff _ _ _).mpr (by omega))

theorem codeUnits_map_toNat_bmp {c : Nat} (h : c ≤ 0xFFFF) : (codeUnits c).map BitVec.toNat = [c] := by
  rw [codeUnits, if_pos h, List.map_singleton, BitVec.toNat_ofNat, Nat.mod_eq_of_lt (by omega)]

/-- A codepoint above U+FFFF is a high and a low surrogate (41_utf8_validator.md R132). -/
theorem codeUnits_map_toNat_supplementary {c : Nat} (h : 0xFFFF < c) (hmax : c ≤ 0x10FFFF) :
    (codeUnits c).map BitVec.toNat = [0xD800 + (c - 0x10000) / 1024, 0xDC00 + (c - 0x10000) % 1024] := by
  have hhigh : (c - 0x10000) >>> 10 = (c - 0x10000) / 1024 := Nat.shiftRight_eq_div_pow _ 10
  have hlow : (c - 0x10000) &&& 0x3FF = (c - 0x10000) % 1024 := Nat.and_two_pow_sub_one_eq_mod _ 10
  rw [codeUnits, if_neg (by omega), hhigh, hlow, List.map_cons, List.map_singleton, BitVec.toNat_ofNat,
    BitVec.toNat_ofNat, Nat.mod_eq_of_lt (by omega), Nat.mod_eq_of_lt (by omega)]

/-- Settles O27: the sequence of a scalar value spells it, and its code units are given as numbers. -/
theorem everyScalarValueDecodes : Obligations.EveryScalarValueDecodes := by
  refine fun c strict hmax hsurrogate => ⟨utf8Fold_utf8Bytes strict hmax hsurrogate, ?_⟩
  split
  · exact codeUnits_map_toNat_bmp ‹_›
  · exact codeUnits_map_toNat_supplementary (by omega) hmax

end Sys2Proof.Machine
end

section
/-! Proofs of the obligations of spec/41_utf8_validator.md, part 2: the commands. UTF_DECODE's loop is the fold over the
bytes it reads; what EMIT, RX_COFF and RX_CCAP change of a run that has room, and how a run over a range is two runs over
its parts, are said once of the loop. -/

namespace Sys2Proof.Machine

/-! ### UTF_RESET and UTF_FINISH -/

/-- Settles O37: UTF_RESET's one next state. -/
theorem utfResetEmptiesTheState : Obligations.UtfResetEmptiesTheState := ⟨rfl, fun _ => rfl⟩

/-- Settles O38: UTF_FINISH's one next state, whose code tells whether a sequence was in progress. -/
theorem utfFinishChecksTheEnd : Obligations.UtfFinishChecksTheEnd := by
  refine ⟨rfl, fun s => (execUtfFinish_eq s).trans ?_⟩
  rw [ite_not]
  rfl

/-! ### UTF_DECODE as the fold -/

/-- The fold over `bs` with the strictness and from the state that a UTF_DECODE finds (41_utf8_validator.md R137). -/
abbrev State.folded (bs : List Byte) (s : State) : FoldResult := utf8Fold s.rx.utfStrict bs 0 [] s.rx.utf

/-- CBUF with the fold's code units from RX_COFF, where EMIT = 1 (41_utf8_validator.md R136). -/
def State.cbufFolded (emit : Bool) (bs : List Byte) (s : State) : Memory CodeUnit :=
  if emit then s.cbuf.writeRange s.rx.coff.toNat (s.folded bs).units else s.cbuf

section Fold

variable {emit : Bool} {s : State} {k : Nat} {bs : List Byte}

/-- A UTF_DECODE over a range whose first `k` bytes are written, and whose code units fit, ends at the fold's error or
goes on after these bytes from the folded state (41_utf8_validator.md R136, R137). -/
theorem decodeRun_eq_fold (hk : k ≤ s.rx.len.toNat) (hr : s.rxbuf.readRange s.rx.off.toNat k = .ok bs)
    (hcap : emit = true → (s.folded bs).units.length ≤ s.rx.ccap.toNat) :
    s.decodeRun emit =
      match (s.folded bs).error with
      | some (i, code) =>
        .ok { code := code, consumed := i, produced := (s.folded bs).units.length, utf := Utf8State.empty,
              cbuf := s.cbufFolded emit bs }
      | none =>
        utf8Loop (s.decodeParams emit) s.rxbuf (s.rx.len.toNat - k) (s.rx.off.toNat + k) k (s.folded bs).units.length
          (s.folded bs).utf (s.cbufFolded emit bs) := by
  obtain rfl := Memory.readRange_length _ _ _ _ hr
  have hfold := utf8Loop_eq_fold (s.decodeParams emit) s.rxbuf bs (s.rx.len.toNat - bs.length) s.rx.off.toNat 0 []
    s.rx.utf s.cbuf hr hcap
  rw [Memory.writeRange_nil, ite_self, Nat.zero_add, Nat.add_sub_cancel' hk] at hfold
  exact hfold

/-- A UTF_DECODE that folds its whole range without an error. -/
theorem utf8DecodeRange_fold_ok (hfit : s.rx.off.toNat + s.rx.len.toNat ≤ s.params.rxbufSize)
    (hdst : emit = true → s.rx.coff.toNat + s.rx.ccap.toNat ≤ s.params.cbufSize)
    (hr : s.rxbuf.readRange s.rx.off.toNat s.rx.len.toNat = .ok bs)
    (hcap : emit = true → (s.folded bs).units.length ≤ s.rx.ccap.toNat) (herr : (s.folded bs).error = none) :
    utf8DecodeRange emit s = .next { s with cbuf := s.cbufFolded emit bs, rx := { s.rx with
      status := UnitStatus.finished .ok, consumed := s.rx.len,
      produced := BitVec.ofNat 32 (s.folded bs).units.length, utf := (s.folded bs).utf } } := by
  have hrun := decodeRun_eq_fold (Nat.le_refl _) hr hcap
  rw [herr, Nat.sub_self] at hrun
  refine (utf8DecodeRange_run ((rxWindowFits_iff s).mpr hfit) (fun he => (cbufWindowFits_iff s).mpr (hdst he))
    hrun).trans ?_
  simp only [State.decoded, State.withDecodeRun, BitVec.ofNat_toNat, BitVec.setWidth_eq]
  rfl

/-- A UTF_DECODE that meets an error within the first `k` bytes of its range. -/
theorem utf8DecodeRange_fold_error (hfit : s.rx.off.toNat + s.rx.len.toNat ≤ s.params.rxbufSize)
    (hdst : emit = true → s.rx.coff.toNat + s.rx.ccap.toNat ≤ s.params.cbufSize) (hk : k ≤ s.rx.len.toNat)
    (hr : s.rxbuf.readRange s.rx.off.toNat k = .ok bs)
    (hcap : emit = true → (s.folded bs).units.length ≤ s.rx.ccap.toNat) {i : Nat} {code : StatusCode}
    (herr : (s.folded bs).error = some (i, code)) :
    utf8DecodeRange emit s = .next { s with cbuf := s.cbufFolded emit bs, rx := { s.rx with
      status := UnitStatus.finished code, consumed := BitVec.ofNat 32 i,
      produced := BitVec.ofNat 32 (s.folded bs).units.length, utf := Utf8State.empty } } := by
  have hrun := decodeRun_eq_fold hk hr hcap
  rw [herr] at hrun
  exact utf8DecodeRange_run ((rxWindowFits_iff s).mpr hfit) (fun he => (cbufWindowFits_iff s).mpr (hdst he)) hrun

end Fold

/-- Settles O29: without EMIT the command is the fold, wherever its destination lies. -/
theorem utfDecodeIsTheFold : Obligations.UtfDecodeIsTheFold := by
  refine fun s k bs hfit hk hr => ⟨fun herr hlen => ?_, fun i code herr => ?_⟩
  · subst hlen
    exact utf8DecodeRange_fold_ok (emit := false) hfit nofun hr nofun herr
  · exact utf8DecodeRange_fold_error (emit := false) hfit nofun hk hr nofun herr

/-- Settles O30: with EMIT the command is the fold while its code units fit, and CBUF holds them. -/
theorem utfDecodeEWritesTheFold : Obligations.UtfDecodeEWritesTheFold := by
  refine fun s k bs hfit hdst hk hr hcap => ⟨fun herr hlen => ?_, fun i code herr => ?_⟩
  · subst hlen
    exact ⟨_, utf8DecodeRange_fold_ok (emit := true) hfit (fun _ => hdst) hr (fun _ => hcap) herr, fun _ => rfl⟩
  · exact ⟨_, utf8DecodeRange_fold_error (emit := true) hfit (fun _ => hdst) hk hr (fun _ => hcap) herr, fun _ => rfl⟩

/-- Settles O31: after the fold over the bytes before it, the loop stops at the byte whose code units do not fit. -/
theorem utfDecodeEStopsWhenFull : Obligations.UtfDecodeEStopsWhenFull := by
  intro s bs b us u' hfit hdst hlt hr r herr hcap hstep hfull
  have hbs : s.rxbuf.readRange s.rx.off.toNat bs.length = .ok bs := by
    simpa using Memory.readRange_sub hr (a := 0) (b := bs.length) (by omega)
  have hb : s.rxbuf.read (s.rx.off.toNat + bs.length) = some b := by
    simpa using ((Memory.readRange_eq_ok_iff _ _ _ _).mp hr).2 bs.length (by omega)
  have hrun := decodeRun_eq_fold (emit := true) (Nat.le_of_lt hlt) hbs (fun _ => hcap)
  obtain ⟨more, hmore⟩ : ∃ more, s.rx.len.toNat - bs.length = more + 1 := ⟨s.rx.len.toNat - bs.length - 1, by omega⟩
  have hstep : utf8Step (s.folded bs).utf b (s.decodeParams true).strict = .emit us u' := hstep
  rw [herr, hmore, utf8Loop_succ, hb] at hrun
  simp only [hstep] at hrun
  rw [if_pos ⟨rfl, hfull⟩] at hrun
  exact ⟨_, utf8DecodeRange_run ((rxWindowFits_iff s).mpr hfit) (fun _ => (cbufWindowFits_iff s).mpr hdst) hrun,
    fun _ => rfl⟩

/-! ### Counters -/

/-- Settles O36: the loop's bounds on its counters, which the registers hold or, where one wraps, stay below. -/
theorem producedIsBounded : Obligations.ProducedIsBounded := by
  intro i s t hi hn
  rw [exec_decode hi] at hn
  obtain ⟨-, rfl⟩ | ⟨-, -, r, hr, rfl⟩ := utf8DecodeRange_cases hn
  · simp
  · have hbound := utf8Loop_produced_bound hr
    obtain ⟨-, hconsumed, -⟩ := utf8Loop_consumed hr
    have hlen := s.rx.len.isLt
    have hc : (BitVec.ofNat 32 r.consumed).toNat = r.consumed := Nat.mod_eq_of_lt (by omega)
    have hp : (BitVec.ofNat 32 r.produced).toNat ≤ r.produced := Nat.mod_le _ _
    rw [decoded_rx, hc]
    refine ⟨?_, fun hempty => ?_, by omega⟩
    · refine hp.trans ?_
      split at hbound <;> omega
    · rw [hempty, if_pos (show Utf8State.empty.rem = 0#2 from rfl)] at hbound
      exact hp.trans (by omega)

section Counters

variable {emit : Bool} {s : State} {r : DecodeRun}

/-- RX_CONSUMED and RX_PRODUCED of a range that lies in RXBUF are the loop's counters, without wrap. -/
theorem decoded_counters (hr : s.decodeRun emit = .ok r) (hfit : s.rxWindowFits = true) (hok : s.params.Ok) :
    (s.decoded r).rx.consumed.toNat = r.consumed ∧ (s.decoded r).rx.produced.toNat = r.produced := by
  have hbound := utf8Loop_produced_bound hr
  obtain ⟨-, hconsumed, -⟩ := utf8Loop_consumed hr
  obtain ⟨⟨-, hsize⟩, -, -⟩ := hok
  rw [rxWindowFits_iff] at hfit
  rw [decoded_rx]
  constructor <;> apply Nat.mod_eq_of_lt
  · omega
  · split at hbound <;> omega

end Counters

/-! ### Runs with room -/

section Room

variable {d d' : DecodeParams} {m : Memory Byte} {n pos i p : Nat} {u : Utf8State} {c : Memory CodeUnit}
  {r r' : DecodeRun}

/-- A loop that does not run out of room answers, but for CBUF, as the loop that writes no code units
(41_utf8_validator.md R140). -/
theorem utf8Loop_validate (hstrict : d'.strict = d.strict) (hemit : d'.emit = false) (c' : Memory CodeUnit)
    (h : utf8Loop d m n pos i p u c = .ok r) (hroom : r.code ≠ .outFull) :
    utf8Loop d' m n pos i p u c' = .ok { r with cbuf := c' } := by
  induction n generalizing pos i p u c with
  | zero =>
    rw [utf8Loop_zero] at h
    cases h
    rfl
  | succ n ih =>
    rw [utf8Loop_succ] at h ⊢
    cases hb : m.read pos with
    | none => simp [hb] at h
    | some b =>
      simp only [hb, hstrict] at h ⊢
      cases hs : utf8Step u b d.strict with
      | err code =>
        simp only [hs] at h
        cases h
        rfl
      | pend u' =>
        simp only [hs] at h
        exact ih h
      | emit us u' =>
        simp only [hs, hemit, Bool.false_eq_true, false_and, if_false] at h ⊢
        split at h
        · cases h
          exact absurd rfl hroom
        · exact ih h

/-- Two loops that do not run out of room, and write to the same place if at all, answer the same. -/
theorem utf8Loop_room_unique (h : utf8Loop d m n pos i p u c = .ok r) (hroom : r.code ≠ .outFull)
    (h' : utf8Loop d' m n pos i p u c = .ok r') (hroom' : r'.code ≠ .outFull) (hstrict : d'.strict = d.strict)
    (hemit : d'.emit = d.emit) (hcoff : d.emit = true → d'.coff = d.coff) : r' = r := by
  obtain ⟨strict, emit, coff, cap⟩ := d
  obtain ⟨strict', emit', coff', cap'⟩ := d'
  obtain rfl : strict' = strict := hstrict
  obtain rfl : emit' = emit := hemit
  cases emit' with
  | false =>
    have hv := utf8Loop_validate (d := ⟨strict', false, coff, cap⟩) (d' := ⟨strict', false, coff', cap'⟩) rfl rfl c h hroom
    have hcbuf := (utf8Loop_cbuf h).1 rfl
    rw [h'] at hv
    rw [Except.ok.inj hv, ← hcbuf]
  | true =>
    obtain rfl : coff' = coff := hcoff rfl
    have hmax := utf8Loop_more_room (Nat.le_max_left cap cap') h hroom
    have hmax' := utf8Loop_more_room (Nat.le_max_right cap cap') h' hroom'
    exact Except.ok.inj (hmax'.symm.trans hmax)

/-- A loop that ran out of room had decoded the bytes before, as the loop over these with more room does. -/
theorem utf8Loop_before_full {cap' : Nat} (he : d.emit = true) (hle : d.cap ≤ cap')
    (h : utf8Loop d m n pos 0 0 u c = .ok r) (hcode : r.code = .outFull) :
    utf8Loop { d with cap := cap' } m r.consumed pos 0 0 u c = .ok { r with code := .ok } := by
  have hproduced := (utf8Loop_produced_le h).2 he (Nat.zero_le _)
  have hloop : utf8Loop d m n pos 0 ([] : List CodeUnit).length u
      (if d.emit then c.writeRange d.coff [] else c) = .ok r := by
    rw [Memory.writeRange_nil, ite_self]
    exact h
  obtain ⟨bs, hbs, hnone, hunits, hutf, hcbuf⟩ := utf8Loop_prefix 0 hloop
  have hlen : bs.length = r.consumed := Memory.readRange_length _ _ _ _ hbs
  have hfold := utf8Loop_eq_fold { d with cap := cap' } m bs 0 pos 0 [] u c (by rw [hlen]; exact hbs)
    (fun _ => show (utf8Fold d.strict bs 0 [] u).units.length ≤ cap' by omega)
  rw [Memory.writeRange_nil, ite_self] at hfold
  simp only [hnone, utf8Loop_zero, Nat.add_zero, Nat.zero_add, hunits, hlen, List.length_nil] at hfold
  rw [hfold, ← hutf (.inr hcode), ← hcbuf]

end Room

section Ran

variable {emit : Bool} {s t : State}

/-- A UTF_DECODE that does not finish USE_RANGE answers what its loop ends with. -/
theorem utf8DecodeRange_ran (hn : utf8DecodeRange emit s = .next t)
    (hcode : t.rx.status.code ≠ .useRange) :
    s.rxWindowFits = true ∧ (emit = true → s.cbufWindowFits = true) ∧ ∃ r, s.decodeRun emit = .ok r ∧ t = s.decoded r := by
  obtain ⟨-, rfl⟩ | h := utf8DecodeRange_cases hn
  · exact absurd rfl hcode
  · exact h

/-- A UTF_DECODE whose ranges fit answers what its loop ends with. -/
theorem utf8DecodeRange_ran_of_fits (hn : utf8DecodeRange emit s = .next t) (hf : s.rxWindowFits = true)
    (hc : emit = true → s.cbufWindowFits = true) : ∃ r, s.decodeRun emit = .ok r ∧ t = s.decoded r := by
  obtain ⟨h | ⟨he, h⟩, -⟩ | ⟨-, -, h⟩ := utf8DecodeRange_cases hn
  · cases hf.symm.trans h
  · cases (hc he).symm.trans h
  · exact h

end Ran

/-- Settles O35: both commands refuse the same source range, and with room the loops answer alike but for CBUF. -/
theorem validateOnlyEqualsDecode : Obligations.ValidateOnlyEqualsDecode := by
  intro s t u ht hu hdst hroom
  obtain ⟨hf, rfl⟩ | ⟨hf, -, r, hr, rfl⟩ := utf8DecodeRange_cases (emit := false) ht
  · have hrx : s.rxWindowFits = false := hf.resolve_right nofun
    cases (utf8DecodeRange_useRange (emit := true) (.inl hrx)).symm.trans hu
    exact ⟨rfl, rfl⟩
  · obtain ⟨r', hr', rfl⟩ := utf8DecodeRange_ran_of_fits (emit := true) hu hf fun _ => (cbufWindowFits_iff s).mpr hdst
    have hv : s.decodeRun false = .ok { r' with cbuf := s.cbuf } :=
      utf8Loop_validate (d := s.decodeParams true) (d' := s.decodeParams false) rfl rfl s.cbuf hr' hroom
    obtain rfl := Except.ok.inj (hr.symm.trans hv)
    exact ⟨rfl, rfl⟩

/-! ### A range in two parts -/

/-- `b` is a state in which a UTF_DECODE continues over the range of `w`, where a run over its first bytes ended as `r`:
the rest of the range, and the RX_UTF and CBUF that `r` left (41_utf8_validator.md R137). -/
structure ContinuesAt (w : State) (r : DecodeRun) (b : State) : Prop where
  strict : b.rx.utfStrict = w.rx.utfStrict
  rxbuf : b.rxbuf = w.rxbuf
  off : b.rx.off.toNat = w.rx.off.toNat + r.consumed
  len : w.rx.len.toNat = r.consumed + b.rx.len.toNat
  utf : b.rx.utf = r.utf
  cbuf : b.cbuf = r.cbuf

/-- What a run over a whole range ends with, when a run over its first bytes ended as `r` and one over the rest as
`q`. -/
def DecodeRun.after (r q : DecodeRun) : DecodeRun :=
  { q with consumed := r.consumed + q.consumed, produced := r.produced + q.produced }

section Continue

variable {emit : Bool} {w b : State} {r rw rb : DecodeRun}

/-- A run over a whole range is a run over the rest of it, where a run over its first bytes ended OK, with the destination
advanced past the code units produced. -/
theorem decodeRun_continue (hw : w.decodeRun emit = .ok rw)
    (hfirst : utf8Loop (w.decodeParams emit) w.rxbuf r.consumed w.rx.off.toNat 0 0 w.rx.utf w.cbuf = .ok r)
    (hcode : r.code = .ok) (hb : ContinuesAt w r b) :
    ∃ q, utf8Loop { b.decodeParams emit with coff := w.rx.coff.toNat + r.produced, cap := w.rx.ccap.toNat - r.produced }
        b.rxbuf b.rx.len.toNat b.rx.off.toNat 0 0 b.rx.utf b.cbuf = .ok q ∧ rw = r.after q := by
  obtain ⟨hstrict, hrxbuf, hoff, hlen, hutf, hcbuf⟩ := hb
  have hroom : r.produced ≤ (w.decodeParams emit).cap ∨ (w.decodeParams emit).emit = false := by
    cases emit with
    | false => exact .inr rfl
    | true => exact .inl ((utf8Loop_produced_le hfirst).2 rfl (Nat.zero_le _))
  have hsplit := utf8Loop_add (w.decodeParams emit) w.rxbuf r.consumed b.rx.len.toNat w.rx.off.toNat 0 0 w.rx.utf w.cbuf
  have hshift := utf8Loop_shift (w.decodeParams emit) w.rxbuf b.rx.len.toNat (w.rx.off.toNat + r.consumed) 0 0
    r.consumed r.produced r.utf r.cbuf hroom
  rw [State.decodeRun, hlen, hsplit, hfirst] at hw
  simp only [if_pos hcode] at hw
  rw [Nat.add_zero, Nat.add_zero] at hshift
  rw [hshift] at hw
  rw [hrxbuf, hoff, hutf, hcbuf, State.decodeParams, hstrict]
  split at hw
  · cases hw
  · exact ⟨_, ‹_›, (Except.ok.inj hw).symm⟩

/-- Where the whole range and its rest both have room, the run over the rest is the continuation, whatever its capacity
(41_utf8_validator.md R137). -/
theorem decodeRun_continue_room (hw : w.decodeRun emit = .ok rw) (hwroom : rw.code ≠ .outFull)
    (hbr : b.decodeRun emit = .ok rb) (hbroom : rb.code ≠ .outFull)
    (hfirst : utf8Loop (w.decodeParams emit) w.rxbuf r.consumed w.rx.off.toNat 0 0 w.rx.utf w.cbuf = .ok r)
    (hcode : r.code = .ok) (hb : ContinuesAt w r b)
    (hcoff : emit = true → b.rx.coff.toNat = w.rx.coff.toNat + r.produced) : rw = r.after rb := by
  obtain ⟨q, hq, rfl⟩ := decodeRun_continue hw hfirst hcode hb
  rw [utf8Loop_room_unique hq hwroom hbr hbroom rfl rfl hcoff]

/-- Where the destination of the rest is what the first bytes left of it, the run over the rest is the continuation,
whether it has room or not (41_utf8_validator.md R136). -/
theorem decodeRun_continue_exact (hw : w.decodeRun emit = .ok rw)
    (hfirst : utf8Loop (w.decodeParams emit) w.rxbuf r.consumed w.rx.off.toNat 0 0 w.rx.utf w.cbuf = .ok r)
    (hcode : r.code = .ok) (hb : ContinuesAt w r b) (hcoff : b.rx.coff.toNat = w.rx.coff.toNat + r.produced)
    (hcap : b.rx.ccap.toNat = w.rx.ccap.toNat - r.produced) : ∃ q, b.decodeRun emit = .ok q ∧ rw = r.after q := by
  obtain ⟨q, hq, rfl⟩ := decodeRun_continue hw hfirst hcode hb
  rw [← hcoff, ← hcap] at hq
  exact ⟨q, hq, rfl⟩

end Continue

theorem toNat_ofNat_word {k : Nat} (h : k < 2 ^ 32) : (BitVec.ofNat 32 k).toNat = k := Nat.mod_eq_of_lt h

/-- The sizes of the buffers of RXU leave room in a 32-bit register (00_scope.md R6). -/
theorem Params.Ok.rxu_sizes {p : Params} (h : p.Ok) : p.rxbufSize ≤ 2 ^ 28 ∧ p.cbufSize ≤ 2 ^ 27 := by
  obtain ⟨⟨-, hrx⟩, -, -, hc⟩ := h
  exact ⟨hrx, hc⟩

/-- Settles O33: the run over both parts is the run over A, continued by the run over B. -/
theorem utfDecodeSplitInvariance : Obligations.UtfDecodeSplitInvariance := by
  intro i s t u v n m cap' hi hok hfit hcap' ht htok hu hufull hurange hv hvfull
  rw [exec_decode hi] at ht hu hv
  generalize decide (i = .utfDecodeE) = emit at ht hu hv
  obtain ⟨hrxsize, hcsize⟩ := Params.Ok.rxu_sizes hok
  have hn := toNat_ofNat_word (k := n) (by omega)
  have hm := toNat_ofNat_word (k := m) (by omega)
  have hnm := toNat_ofNat_word (k := n + m) (by omega)
  have hoff := toNat_ofNat_word (k := s.rx.off.toNat + n) (by omega)
  obtain ⟨hft, hct, rt, hrt, rfl⟩ := utf8DecodeRange_ran ht (by rw [htok]; decide)
  obtain ⟨hfu, -, ru, hru, rfl⟩ := utf8DecodeRange_ran hu hurange
  have hfv : State.rxWindowFits { s with rx := { s.rx with len := BitVec.ofNat 32 (n + m) } } = true := by
    rw [rxWindowFits_iff, hnm]
    exact hfit
  obtain ⟨rv, hrv, rfl⟩ := utf8DecodeRange_ran_of_fits hv hfv hct
  obtain ⟨hconsumedt, hproducedt⟩ := decoded_counters hrt hft hok
  obtain ⟨hconsumedu, hproducedu⟩ := decoded_counters hru hfu hok
  obtain ⟨hconsumedv, hproducedv⟩ := decoded_counters hrv hfv hok
  obtain ⟨-, -, hall⟩ := utf8Loop_consumed hrt
  have hconsumed : rt.consumed = (BitVec.ofNat 32 n).toNat := (hall htok).trans (Nat.zero_add _)
  have hwhole : rv = rt.after ru := by
    refine decodeRun_continue_room hrv hvfull hru hufull ?_ htok ⟨rfl, rfl, ?_, ?_, rfl, rfl⟩ fun he => ?_
    · rw [hconsumed]
      exact hrt
    · rw [hoff, hconsumed, hn]
    · rw [hnm, hm, hconsumed, hn]
    · subst he
      have hdst : s.rx.coff.toNat + s.rx.ccap.toNat ≤ s.params.cbufSize := (cbufWindowFits_iff _).mp (hct rfl)
      have hcap : rt.produced ≤ s.rx.ccap.toNat := (utf8Loop_produced_le hrt).2 rfl (Nat.zero_le _)
      rw [hproducedt]
      exact toNat_ofNat_word (by omega)
  subst hwhole
  refine ⟨rfl, rfl, rfl, ?_, ?_⟩
  · rw [hproducedv, hproducedu, hproducedt]
    rfl
  · rw [hconsumedv, hconsumedu, ← hn, ← hconsumed]
    rfl

/-- The state in which the host resumes a UTF_DECODE.E that left `s` as `r`, with what is left of the range and of the
capacity `cap` (41_utf8_validator.md R136, 92_eei_decisions.md D27). -/
def State.resumed (r : DecodeRun) (cap : Nat) (s : State) : State :=
  { s.decoded r with rx := { (s.decoded r).rx with
      off := BitVec.ofNat 32 (s.rx.off.toNat + r.consumed), len := BitVec.ofNat 32 (s.rx.len.toNat - r.consumed),
      coff := BitVec.ofNat 32 (s.rx.coff.toNat + r.produced), ccap := BitVec.ofNat 32 (cap - r.produced) } }

section Resumed

variable {s : State} {r : DecodeRun} {cap : Nat} (hok : s.params.Ok)
  (hfit : s.rx.off.toNat + s.rx.len.toNat ≤ s.params.rxbufSize) (hdst : s.rx.coff.toNat + cap ≤ s.params.cbufSize)
  (hconsumed : r.consumed ≤ s.rx.len.toNat) (hproduced : r.produced ≤ cap)

include hok hfit hconsumed in
theorem resumed_source : (s.resumed r cap).rx.off.toNat = s.rx.off.toNat + r.consumed ∧
    s.rx.len.toNat = r.consumed + (s.resumed r cap).rx.len.toNat := by
  obtain ⟨hrxsize, -⟩ := Params.Ok.rxu_sizes hok
  have hlen : (s.resumed r cap).rx.len.toNat = s.rx.len.toNat - r.consumed := toNat_ofNat_word (by omega)
  exact ⟨toNat_ofNat_word (by omega), by omega⟩

include hok hdst hproduced in
theorem resumed_destination : (s.resumed r cap).rx.coff.toNat = s.rx.coff.toNat + r.produced ∧
    (s.resumed r cap).rx.ccap.toNat = cap - r.produced := by
  obtain ⟨-, hcsize⟩ := Params.Ok.rxu_sizes hok
  exact ⟨toNat_ofNat_word (by omega), toNat_ofNat_word (by omega)⟩

include hok hfit hconsumed in
theorem resumed_rxWindowFits : (s.resumed r cap).rxWindowFits = true := by
  obtain ⟨hoff, hlen⟩ := resumed_source (cap := cap) hok hfit hconsumed
  rw [rxWindowFits_iff, hoff]
  show s.rx.off.toNat + r.consumed + (s.resumed r cap).rx.len.toNat ≤ s.params.rxbufSize
  omega

include hok hdst hproduced in
theorem resumed_cbufWindowFits : (s.resumed r cap).cbufWindowFits = true := by
  obtain ⟨hcoff, hccap⟩ := resumed_destination hok hdst hproduced
  rw [cbufWindowFits_iff, hcoff, hccap]
  show s.rx.coff.toNat + r.produced + (cap - r.produced) ≤ s.params.cbufSize
  omega

end Resumed

/-- Settles O34: the run with more capacity decodes the bytes before the one that did not fit as the first command did,
and the second command is its continuation. -/
theorem outFullResumesExactly : Obligations.OutFullResumesExactly := by
  intro s t v cap' hok hle hcap' ht hfull hv hvrange
  have hc := toNat_ofNat_word hcap'
  obtain ⟨hft, -, rt, hrt, rfl⟩ := utf8DecodeRange_ran (emit := true) ht (by rw [hfull]; decide)
  obtain ⟨hfv, hcv, rv, hrv, rfl⟩ := utf8DecodeRange_ran (emit := true) hv hvrange
  obtain ⟨hconsumedt, hproducedt⟩ := decoded_counters hrt hft hok
  obtain ⟨hconsumedv, hproducedv⟩ := decoded_counters hrv hfv hok
  have hfit := (rxWindowFits_iff s).mp hft
  have hdst : s.rx.coff.toNat + cap' ≤ s.params.cbufSize := by
    have hdst := (cbufWindowFits_iff _).mp (hcv rfl)
    rwa [hc] at hdst
  obtain ⟨-, hlen, -⟩ := utf8Loop_consumed hrt
  rw [Nat.zero_add] at hlen
  have hcap : rt.produced ≤ s.rx.ccap.toNat := (utf8Loop_produced_le hrt).2 rfl (Nat.zero_le _)
  have hbefore := utf8Loop_before_full (cap' := cap') rfl hle hrt hfull
  obtain ⟨hoff, hparts⟩ := resumed_source (cap := cap') hok hfit hlen
  obtain ⟨hcoff, hccap⟩ := resumed_destination hok hdst (hcap.trans hle)
  have hfu := resumed_rxWindowFits (cap := cap') hok hfit hlen
  obtain ⟨q, hq, rfl⟩ := decodeRun_continue_exact (r := { rt with code := .ok }) (b := s.resumed rt cap') hrv
    (by rw [State.decodeParams, hc]; exact hbefore) rfl ⟨rfl, rfl, hoff, hparts, rfl, rfl⟩ hcoff (by rw [hc]; exact hccap)
  obtain ⟨hconsumedu, hproducedu⟩ := decoded_counters hq hfu hok
  rw [hconsumedt, hproducedt, hconsumedv, hproducedv]
  exact ⟨_, utf8DecodeRange_run hfu (fun _ => resumed_cbufWindowFits hok hdst (hcap.trans hle)) hq, rfl, rfl, rfl,
    congrArg (rt.produced + ·) hproducedu, congrArg (rt.consumed + ·) hconsumedu⟩

end Sys2Proof.Machine
end

section
/-! Proof of the obligation of spec/60_exceptions.md: the host accesses that raise HOST_HAZARD. Of the ends of an access,
only the forbidden access to a busy unit has that name: an unwritten element is UNINIT_READ. -/

namespace Sys2Proof.Machine

/-- The reads that a busy unit allows are those of the two STATUS registers (70_reset_and_hazards.md R186). -/
theorem readForbidden_iff (tg : Target) :
    tg.readForbidden = true ↔ tg ≠ .reg .rxStatus ∧ tg ≠ .reg .txStatus := by
  cases tg with
  | reg r => cases r <;> decide
  | rxbuf i => exact ⟨fun _ => ⟨nofun, nofun⟩, fun _ => rfl⟩
  | txbuf i => exact ⟨fun _ => ⟨nofun, nofun⟩, fun _ => rfl⟩
  | cbuf i => exact ⟨fun _ => ⟨nofun, nofun⟩, fun _ => rfl⟩

section Hazard

variable {s : State} {width : Nat} {addr a : Word} {tg : Target} {u : UnitId}

/-- The write of a mapped element raises HOST_HAZARD exactly when its unit is busy (70_reset_and_hazards.md R186). -/
theorem hostAccess_write_hazard_iff {v : Word} (hr : s.params.resolve width addr = some tg) :
    hostAccess (.write width addr v) s = .fault (.hostHazard u a) ↔
      u = tg.unit ∧ a = addr ∧ s.targetBusy tg = true := by
  constructor
  · intro h
    cases hb : s.targetBusy tg with
    | true =>
      cases (hostAccess_write_hazard hr hb).symm.trans h
      exact ⟨rfl, rfl, rfl⟩
    | false => cases (hostAccess_write_ok hr hb).symm.trans h
  · rintro ⟨rfl, rfl, hb⟩
    exact hostAccess_write_hazard hr hb

/-- The read of a mapped element raises HOST_HAZARD exactly when its unit is busy and the target may not be read then
(70_reset_and_hazards.md R186). -/
theorem hostAccess_read_hazard_iff (hr : s.params.resolve width addr = some tg) :
    hostAccess (.read width addr) s = .fault (.hostHazard u a) ↔
      u = tg.unit ∧ a = addr ∧ s.targetBusy tg = true ∧ tg.readForbidden = true := by
  constructor
  · intro h
    by_cases hb : s.targetBusy tg = true ∧ tg.readForbidden = true
    · cases (hostAccess_read_hazard hr hb).symm.trans h
      exact ⟨rfl, rfl, hb⟩
    · cases hv : s.readTarget tg with
      | error r =>
        obtain ⟨b, i, rfl⟩ := readTarget_eq_error hv
        cases (hostAccess_read_error hr hb hv).symm.trans h
      | ok v => cases (hostAccess_read_ok hr hb hv).symm.trans h
  · rintro ⟨rfl, rfl, hb⟩
    exact hostAccess_read_hazard hr hb

end Hazard

/-- Settles O49: a step at an access is the access, whose hazards are those of a busy unit, and only STATUS may be read
then. -/
theorem busyUnitHazards : Obligations.BusyUnitHazards := by
  intro s width addr v rest tg hf hr
  constructor <;> intro hin u a <;> rw [step_access hf hin]
  · exact hostAccess_write_hazard_iff hr
  · rw [← readForbidden_iff]
    exact hostAccess_read_hazard_iff hr

end Sys2Proof.Machine
end
